-- ==== Sys2Proof/Word.lean ====
section
/-! DEFINITION. The plainest types of the block: bytes, command words, register indices. -/

namespace Sys2Proof

/-- One byte of data memory (20_memory.md R100). -/
abbrev Byte := BitVec 8

/-- One 32-bit command word (30_encoding.md R150); also the type of `pc` and FAULT_PC (10_state.md R54, R61). -/
abbrev Word := BitVec 32

/-- The index of a general register `x0` .. `x15` (10_state.md R51, 30_encoding.md R153). -/
abbrev Reg := Fin 16

end Sys2Proof
end

