-- ==== Sys2Proof/Syntax.lean ====
section
/-! DEFINITION. The commands of WMU-CMD v1: one constructor per row of the opcode map (30_encoding.md R156). -/

namespace Sys2Proof

/-- A command with its operands (30_encoding.md R153 to R156). Register operands are indices; immediates are the numbers the
assembler writes (R161), and `WellFormed.lean` says which of them the encoding can hold. `rs` of the stores is the register
of the `rd` field (42_limb.md R256, 44_prime_field.md R370). `NOFL`, `MONOFN` and `MONOFL` read, and do not write, their
`rd` (R160). -/
inductive Instr where
  | wmul64 (rd ra rb rc : Reg)
  | wmul32 (rd ra rb rc : Reg)
  | leq (rd ra rb : Reg)
  | lshr (rd ra rb : Reg)
  | lshri (rd ra : Reg) (amount : Nat)
  | ld (rd ra : Reg) (offset : Nat)
  | st (rs ra : Reg) (offset : Nat)
  | ldi (rd : Reg) (value : Nat)
  | nlt (rd ra rb : Reg)
  | nbit (rd ra rb : Reg)
  | invw (rd ra : Reg)
  | fcfg (ra : Reg) (be : Bool)
  | fadd (rd ra rb : Reg)
  | fsub (rd ra rb : Reg)
  | fmul (rd ra rb : Reg)
  | mulw (rd ra rb rc : Reg)
  | fred (rd ra rb : Reg)
  | ftom (rd ra : Reg)
  | ffromm (rd ra : Reg)
  | feq (rd ra rb : Reg)
  | fld (rd ra : Reg) (offset : Nat)
  | fst (rs ra : Reg) (offset : Nat)
  | clmul (rd ra rb rc : Reg)
  | gadd (rd ra rb : Reg)
  | gmul (rd ra rb : Reg)
  | evalm (rd ra rb : Reg)
  | nofl (rd ra : Reg)
  | evaln (rd ra rb : Reg)
  | monofn (rd ra : Reg)
  | monofl (rd ra : Reg)
  | fft (ra rb : Reg) (size : Nat)
  | ifft (ra rb : Reg) (size : Nat)
  | bfft (ra rb : Reg) (size : Nat)
  | halt
  | bnz (ra : Reg) (offset : Int)
  | csrr (rd : Reg) (csr : Nat)
  | csrw (ra : Reg) (csr : Nat)
  deriving DecidableEq, Repr

end Sys2Proof
end

