-- ==== Sys2Proof/WellFormed.lean ====
section
/-! DEFINITION. Which commands the encoding can hold: the ranges of the immediates (30_encoding.md R154, R155). -/

namespace Sys2Proof

/-- `imm8`: 0 .. 255, never scaled or sign-extended (30_encoding.md R154). -/
def fitsImm8 (n : Nat) : Bool := n < 2 ^ 8

/-- `imm16` where it is zero-extended: 0 .. 65535 (30_encoding.md R155). -/
def fitsImm16 (n : Nat) : Bool := n < 2 ^ 16

/-- `BNZ`'s signed offset: -32768 .. 32767 (30_encoding.md R155, R161; 48_sequencer.md R552). -/
def fitsOffset16 (n : Int) : Bool := -(2 ^ 15) ≤ n && n < 2 ^ 15

/-- A command whose immediates the encoding holds. A CSR number 0x0A .. 0xFF encodes legally (30_encoding.md R159). -/
def Instr.wf : Instr → Bool
  | .wmul64 _ _ _ _ => true
  | .wmul32 _ _ _ _ => true
  | .leq _ _ _ => true
  | .lshr _ _ _ => true
  | .lshri _ _ amount => fitsImm8 amount
  | .ld _ _ offset => fitsImm16 offset
  | .st _ _ offset => fitsImm16 offset
  | .ldi _ value => fitsImm16 value
  | .nlt _ _ _ => true
  | .nbit _ _ _ => true
  | .invw _ _ => true
  | .fcfg _ _ => true
  | .fadd _ _ _ => true
  | .fsub _ _ _ => true
  | .fmul _ _ _ => true
  | .mulw _ _ _ _ => true
  | .fred _ _ _ => true
  | .ftom _ _ => true
  | .ffromm _ _ => true
  | .feq _ _ _ => true
  | .fld _ _ offset => fitsImm16 offset
  | .fst _ _ offset => fitsImm16 offset
  | .clmul _ _ _ _ => true
  | .gadd _ _ _ => true
  | .gmul _ _ _ => true
  | .evalm _ _ _ => true
  | .nofl _ _ => true
  | .evaln _ _ _ => true
  | .monofn _ _ => true
  | .monofl _ _ => true
  | .fft _ _ size => fitsImm8 size
  | .ifft _ _ size => fitsImm8 size
  | .bfft _ _ size => fitsImm8 size
  | .halt => true
  | .bnz _ offset => fitsOffset16 offset
  | .csrr _ csr => fitsImm8 csr
  | .csrw _ csr => fitsImm8 csr

end Sys2Proof
end

