-- ==== Sys2Proof/Decode.lean ====
section
/-! DEFINITION. Decoding a command word, and the encoder of a command (30_encoding.md R150 to R159). -/

namespace Sys2Proof

/-! ## The fields of a word (R150 to R152) -/

/-- Bits 31..24, the opcode of every format (R150). -/
def opcodeField (w : Word) : Nat := w.toNat / 2 ^ 24

/-- Bits 23..20, `rd` (R151, R152). -/
def rdField (w : Word) : Reg := Fin.ofNat 16 (w.toNat / 2 ^ 20)

/-- Bits 19..16, `ra` (R151, R152). -/
def raField (w : Word) : Reg := Fin.ofNat 16 (w.toNat / 2 ^ 16)

/-- Bits 15..12, `rb` of format R (R151). -/
def rbField (w : Word) : Reg := Fin.ofNat 16 (w.toNat / 2 ^ 12)

/-- Bits 11..8, `rc` of format R (R151). -/
def rcField (w : Word) : Reg := Fin.ofNat 16 (w.toNat / 2 ^ 8)

/-- Bits 7..0, `imm8` of format R, zero-extended (R151, R154). -/
def imm8Field (w : Word) : Nat := w.toNat % 2 ^ 8

/-- Bits 15..0, `imm16` of format M, zero-extended (R152, R155). -/
def imm16Field (w : Word) : Nat := w.toNat % 2 ^ 16

/-- `sext` of a 16-bit value, as a signed integer (00_scope.md R13, 30_encoding.md R155). -/
def signed16 (n : Nat) : Int := if n < 2 ^ 15 then (n : Int) else (n : Int) - 2 ^ 16

/-! ## Decoding (R157) -/

/-- The command `i` if the fields it does not use are zero; no command otherwise (R157, R158). -/
def whenZero (unusedAreZero : Bool) (i : Instr) : Option Instr := if unusedAreZero then some i else none

/-- The command a word is, or `none` where it matches no row of R156 (R157): an opcode that is not assigned, or a nonzero bit
in a field the command does not use (R158). Total on every word. -/
def decode (w : Word) : Option Instr :=
  let rd := rdField w
  let ra := raField w
  let rb := rbField w
  let rc := rcField w
  let imm8 := imm8Field w
  let imm16 := imm16Field w
  match opcodeField w with
  | 0x10 => whenZero (imm8 = 0) (.wmul64 rd ra rb rc)
  | 0x11 => whenZero (imm8 = 0) (.wmul32 rd ra rb rc)
  | 0x20 => whenZero (rc = 0 && imm8 = 0) (.leq rd ra rb)
  | 0x21 => whenZero (rc = 0 && imm8 = 0) (.lshr rd ra rb)
  | 0x22 => whenZero (rb = 0 && rc = 0) (.lshri rd ra imm8)
  | 0x28 => some (.ld rd ra imm16)
  | 0x29 => some (.st rd ra imm16)
  | 0x2A => whenZero (ra = 0) (.ldi rd imm16)
  | 0x30 => whenZero (rc = 0 && imm8 = 0) (.nlt rd ra rb)
  | 0x31 => whenZero (rc = 0 && imm8 = 0) (.nbit rd ra rb)
  | 0x32 => whenZero (rb = 0 && rc = 0 && imm8 = 0) (.invw rd ra)
  | 0x40 => whenZero (rd = 0 && rb = 0 && rc = 0 && imm8 < 2) (.fcfg ra (imm8 == 1))
  | 0x44 => whenZero (imm8 = 0) (.mulw rd ra rb rc)
  | 0x45 => whenZero (rc = 0 && imm8 = 0) (.fred rd ra rb)
  | 0x41 => whenZero (rc = 0 && imm8 = 0) (.fadd rd ra rb)
  | 0x42 => whenZero (rc = 0 && imm8 = 0) (.fsub rd ra rb)
  | 0x43 => whenZero (rc = 0 && imm8 = 0) (.fmul rd ra rb)
  | 0x46 => whenZero (rb = 0 && rc = 0 && imm8 = 0) (.ftom rd ra)
  | 0x47 => whenZero (rb = 0 && rc = 0 && imm8 = 0) (.ffromm rd ra)
  | 0x48 => whenZero (rc = 0 && imm8 = 0) (.feq rd ra rb)
  | 0x49 => some (.fld rd ra imm16)
  | 0x4A => some (.fst rd ra imm16)
  | 0x50 => whenZero (imm8 = 0) (.clmul rd ra rb rc)
  | 0x51 => whenZero (rc = 0 && imm8 = 0) (.gadd rd ra rb)
  | 0x52 => whenZero (rc = 0 && imm8 = 0) (.gmul rd ra rb)
  | 0x60 => whenZero (rc = 0 && imm8 = 0) (.evalm rd ra rb)
  | 0x61 => whenZero (rb = 0 && rc = 0 && imm8 = 0) (.nofl rd ra)
  | 0x62 => whenZero (rc = 0 && imm8 = 0) (.evaln rd ra rb)
  | 0x63 => whenZero (rb = 0 && rc = 0 && imm8 = 0) (.monofn rd ra)
  | 0x64 => whenZero (rb = 0 && rc = 0 && imm8 = 0) (.monofl rd ra)
  | 0x70 => whenZero (rd = 0 && rc = 0) (.fft ra rb imm8)
  | 0x71 => whenZero (rd = 0 && rc = 0) (.ifft ra rb imm8)
  | 0x72 => whenZero (rd = 0 && rc = 0) (.bfft ra rb imm8)
  | 0xF0 => whenZero (rd = 0 && ra = 0 && rb = 0 && rc = 0 && imm8 = 0) .halt
  | 0xF1 => whenZero (rd = 0) (.bnz ra (signed16 imm16))
  | 0xF2 => whenZero (ra = 0 && rb = 0 && rc = 0) (.csrr rd imm8)
  | 0xF3 => whenZero (rd = 0 && rb = 0 && rc = 0) (.csrw ra imm8)
  | _ => none

/-! ## Encoding (R151, R152, R156) -/

/-- A word of format R from its fields (R151); an `imm8` that does not fit is cut to its low 8 bits. -/
def encR (opcode : Nat) (rd ra rb rc : Reg) (imm8 : Nat) : Word :=
  BitVec.ofNat 32 (opcode * 2 ^ 24 + rd.val * 2 ^ 20 + ra.val * 2 ^ 16 + rb.val * 2 ^ 12 + rc.val * 2 ^ 8 + imm8 % 2 ^ 8)

/-- A word of format M from its fields (R152); an `imm16` that does not fit is cut to its low 16 bits. -/
def encM (opcode : Nat) (rd ra : Reg) (imm16 : Nat) : Word :=
  BitVec.ofNat 32 (opcode * 2 ^ 24 + rd.val * 2 ^ 20 + ra.val * 2 ^ 16 + imm16 % 2 ^ 16)

/-- The word of a command (R156), every unused field zero. -/
def encode : Instr → Word
  | .wmul64 rd ra rb rc => encR 0x10 rd ra rb rc 0
  | .wmul32 rd ra rb rc => encR 0x11 rd ra rb rc 0
  | .leq rd ra rb => encR 0x20 rd ra rb 0 0
  | .lshr rd ra rb => encR 0x21 rd ra rb 0 0
  | .lshri rd ra amount => encR 0x22 rd ra 0 0 amount
  | .ld rd ra offset => encM 0x28 rd ra offset
  | .st rs ra offset => encM 0x29 rs ra offset
  | .ldi rd value => encM 0x2A rd 0 value
  | .nlt rd ra rb => encR 0x30 rd ra rb 0 0
  | .nbit rd ra rb => encR 0x31 rd ra rb 0 0
  | .invw rd ra => encR 0x32 rd ra 0 0 0
  | .fcfg ra be => encR 0x40 0 ra 0 0 (cond be 1 0)
  | .mulw rd ra rb rc => encR 0x44 rd ra rb rc 0
  | .fred rd ra rb => encR 0x45 rd ra rb 0 0
  | .fadd rd ra rb => encR 0x41 rd ra rb 0 0
  | .fsub rd ra rb => encR 0x42 rd ra rb 0 0
  | .fmul rd ra rb => encR 0x43 rd ra rb 0 0
  | .ftom rd ra => encR 0x46 rd ra 0 0 0
  | .ffromm rd ra => encR 0x47 rd ra 0 0 0
  | .feq rd ra rb => encR 0x48 rd ra rb 0 0
  | .fld rd ra offset => encM 0x49 rd ra offset
  | .fst rs ra offset => encM 0x4A rs ra offset
  | .clmul rd ra rb rc => encR 0x50 rd ra rb rc 0
  | .gadd rd ra rb => encR 0x51 rd ra rb 0 0
  | .gmul rd ra rb => encR 0x52 rd ra rb 0 0
  | .evalm rd ra rb => encR 0x60 rd ra rb 0 0
  | .nofl rd ra => encR 0x61 rd ra 0 0 0
  | .evaln rd ra rb => encR 0x62 rd ra rb 0 0
  | .monofn rd ra => encR 0x63 rd ra 0 0 0
  | .monofl rd ra => encR 0x64 rd ra 0 0 0
  | .fft ra rb size => encR 0x70 0 ra rb 0 size
  | .ifft ra rb size => encR 0x71 0 ra rb 0 size
  | .bfft ra rb size => encR 0x72 0 ra rb 0 size
  | .halt => encR 0xF0 0 0 0 0 0
  | .bnz ra offset => encM 0xF1 0 ra (offset % 2 ^ 16).toNat
  | .csrr rd csr => encR 0xF2 rd 0 0 0 csr
  | .csrw ra csr => encR 0xF3 0 ra 0 0 csr

/-! ## The opcode map as the spec writes it (R156) -/

/-- A row of the opcode map: a word `w` is the row's command exactly when `w AND mask = pattern` (R156). -/
structure OpcodeRow where
  /-- The row's mnemonic. -/
  mnemonic : String
  /-- The row's `match`. -/
  pattern : Word
  /-- The row's `mask`. -/
  mask : Word
  deriving DecidableEq, Repr

/-- A word matches a row (R156). -/
def OpcodeRow.matchesWord (r : OpcodeRow) (w : Word) : Bool := w &&& r.mask == r.pattern

/-- The opcode map (R156), in the order of opcode_table.json. -/
def opcodeMap : List OpcodeRow :=
  [⟨"WMUL64", 0x10000000, 0xFF0000FF⟩,
   ⟨"WMUL32", 0x11000000, 0xFF0000FF⟩,
   ⟨"LEQ", 0x20000000, 0xFF000FFF⟩,
   ⟨"LSHR", 0x21000000, 0xFF000FFF⟩,
   ⟨"LSHRI", 0x22000000, 0xFF00FF00⟩,
   ⟨"LD", 0x28000000, 0xFF000000⟩,
   ⟨"ST", 0x29000000, 0xFF000000⟩,
   ⟨"LDI", 0x2A000000, 0xFF0F0000⟩,
   ⟨"NLT", 0x30000000, 0xFF000FFF⟩,
   ⟨"NBIT", 0x31000000, 0xFF000FFF⟩,
   ⟨"INVW", 0x32000000, 0xFF00FFFF⟩,
   ⟨"FCFG", 0x40000000, 0xFFF0FFFE⟩,
   ⟨"MULW", 0x44000000, 0xFF0000FF⟩,
   ⟨"FRED", 0x45000000, 0xFF000FFF⟩,
   ⟨"FADD", 0x41000000, 0xFF000FFF⟩,
   ⟨"FSUB", 0x42000000, 0xFF000FFF⟩,
   ⟨"FMUL", 0x43000000, 0xFF000FFF⟩,
   ⟨"FTOM", 0x46000000, 0xFF00FFFF⟩,
   ⟨"FFROMM", 0x47000000, 0xFF00FFFF⟩,
   ⟨"FEQ", 0x48000000, 0xFF000FFF⟩,
   ⟨"FLD", 0x49000000, 0xFF000000⟩,
   ⟨"FST", 0x4A000000, 0xFF000000⟩,
   ⟨"CLMUL", 0x50000000, 0xFF0000FF⟩,
   ⟨"GADD", 0x51000000, 0xFF000FFF⟩,
   ⟨"GMUL", 0x52000000, 0xFF000FFF⟩,
   ⟨"EVALM", 0x60000000, 0xFF000FFF⟩,
   ⟨"NOFL", 0x61000000, 0xFF00FFFF⟩,
   ⟨"EVALN", 0x62000000, 0xFF000FFF⟩,
   ⟨"MONOFN", 0x63000000, 0xFF00FFFF⟩,
   ⟨"MONOFL", 0x64000000, 0xFF00FFFF⟩,
   ⟨"FFT", 0x70000000, 0xFFF00F00⟩,
   ⟨"IFFT", 0x71000000, 0xFFF00F00⟩,
   ⟨"BFFT", 0x72000000, 0xFFF00F00⟩,
   ⟨"HALT", 0xF0000000, 0xFFFFFFFF⟩,
   ⟨"BNZ", 0xF1000000, 0xFFF00000⟩,
   ⟨"CSRR", 0xF2000000, 0xFF0FFF00⟩,
   ⟨"CSRW", 0xF3000000, 0xFFF0FF00⟩]

/-- The mnemonic of a command (R156). -/
def Instr.mnemonic : Instr → String
  | .wmul64 _ _ _ _ => "WMUL64"
  | .wmul32 _ _ _ _ => "WMUL32"
  | .leq _ _ _ => "LEQ"
  | .lshr _ _ _ => "LSHR"
  | .lshri _ _ _ => "LSHRI"
  | .ld _ _ _ => "LD"
  | .st _ _ _ => "ST"
  | .ldi _ _ => "LDI"
  | .nlt _ _ _ => "NLT"
  | .nbit _ _ _ => "NBIT"
  | .invw _ _ => "INVW"
  | .fcfg _ _ => "FCFG"
  | .mulw _ _ _ _ => "MULW"
  | .fred _ _ _ => "FRED"
  | .fadd _ _ _ => "FADD"
  | .fsub _ _ _ => "FSUB"
  | .fmul _ _ _ => "FMUL"
  | .ftom _ _ => "FTOM"
  | .ffromm _ _ => "FFROMM"
  | .feq _ _ _ => "FEQ"
  | .fld _ _ _ => "FLD"
  | .fst _ _ _ => "FST"
  | .clmul _ _ _ _ => "CLMUL"
  | .gadd _ _ _ => "GADD"
  | .gmul _ _ _ => "GMUL"
  | .evalm _ _ _ => "EVALM"
  | .nofl _ _ => "NOFL"
  | .evaln _ _ _ => "EVALN"
  | .monofn _ _ => "MONOFN"
  | .monofl _ _ => "MONOFL"
  | .fft _ _ _ => "FFT"
  | .ifft _ _ _ => "IFFT"
  | .bfft _ _ _ => "BFFT"
  | .halt => "HALT"
  | .bnz _ _ => "BNZ"
  | .csrr _ _ => "CSRR"
  | .csrw _ _ => "CSRW"

/-! ## What the opcode table's numbering asks of the decoder -/

/-- The instruction the decoder reads from an instruction whose bits are `w`, of which the table gives `nbits`; the bits above
are zero. A command is one 32-bit word whose bit 0 is its least significant bit (R150), so the number is the word. -/
def decodeTableWord (nbits w : Nat) : Option Instr :=
  if w % 2 ^ nbits < 2 ^ 32 then decode (BitVec.ofNat 32 (w % 2 ^ nbits)) else none

end Sys2Proof
end

