-- ==== Sys2Proof/Config.lean ====
section
/-! DEFINITION. The construction parameters of the hardware (00_scope.md R9, R10). -/

namespace Sys2Proof

/-- The parameters fixed at construction (00_scope.md R9). The spec leaves `W`, `DM_SIZE`, `CM_SIZE` and `GF_POLY` open and
asks a model to take them as arguments: the machine's state carries them as a constant record, so that every statement about
every state is a statement about every value of the parameters (LOG 1). -/
structure Params where
  /-- `W`, limbs per register. -/
  limbs : Nat
  /-- `DM_SIZE`, bytes of data memory. -/
  dmSize : Nat
  /-- `CM_SIZE`, words of command memory. -/
  cmSize : Nat
  /-- `GF_POLY`, the polynomial of GF(2^128): bit `i` is the coefficient of `x^i` (45_binary_field.md R400). -/
  gfPoly : Nat
  deriving DecidableEq, Repr

/-- `RW = 64*W`, the register width in bits (00_scope.md R9). -/
def Params.regBits (c : Params) : Nat := 64 * c.limbs

/-- `ES = 8*W`, the bytes of a stored register or element (00_scope.md R9). -/
def Params.elemBytes (c : Params) : Nat := 8 * c.limbs

/-- The bounds 00_scope.md R9 puts on the parameters, with `GF_POLY` of degree exactly 128 (45_binary_field.md R400). That
`GF_POLY` is also irreducible is R400's own premise, which no check of this model decides (LOG 11). -/
abbrev Params.legal (c : Params) : Prop :=
  2 ≤ c.limbs ∧ (1 ≤ c.dmSize ∧ c.dmSize ≤ 2 ^ 32) ∧ (1 ≤ c.cmSize ∧ c.cmSize ≤ 2 ^ 32) ∧
    (2 ^ 128 ≤ c.gfPoly ∧ c.gfPoly < 2 ^ 129)

/-- The reference values of 00_scope.md R9: `W = 4`, `GF_POLY = x^128 + x^7 + x^2 + x + 1`. R9 gives no reference for
`DM_SIZE` and `CM_SIZE`: 4096 and 256 are the sizes 95_test_vectors.md uses (DESIGN CHOICE, LOG 2). -/
def Config.reference : Params where
  limbs := 4
  dmSize := 4096
  cmSize := 256
  gfPoly := 2 ^ 128 + 0x87

/-- `SUB_BITS`, the width of the subfield; read by no command (00_scope.md R9, 45_binary_field.md R413). -/
def Config.subBits : Nat := 32

/-- `SUB_GEN`, the generator of the subfield: OPEN in the spec, so without a body here; read by no command (00_scope.md R9,
45_binary_field.md R413). -/
opaque Config.subGen : BitVec 128

end Sys2Proof
end

