-- ==== Sys2Proof/Machine/State.lean ====
section
/-! DEFINITION. The state of the block as plain data, the reasons a step can stop, and the state after reset. -/

namespace Sys2Proof.Machine

/-- The cause of a fault (60_exceptions.md R600). `internal` is raised by no rule (R609). -/
inductive Cause where
  | none | illegal | fetch | addr | config | domain | even | divzero | singular | internal
  deriving DecidableEq, Repr

/-- The run state STATUS (10_state.md R60). -/
structure Status where
  /-- Bit 0, RUNNING. -/
  running : Bool
  /-- Bit 1, DONE; the output line `done` (60_exceptions.md R620). -/
  done : Bool
  /-- Bit 2, FAULT. -/
  fault : Bool
  /-- Bits 11..8, CAUSE. -/
  cause : Cause
  deriving DecidableEq, Repr

/-- Everything the spec gives the machine (10_state.md), and two fields of the model's own: `params` and `written`. Register
and CSR values are Naturals below `2^RW` (10_state.md R52, 43_natural.md R300), since `RW` is a parameter (LOG 10). -/
structure State where
  /-- The construction parameters, which nothing changes (00_scope.md R9, R10; LOG 1). -/
  params : Params
  /-- The general registers `x0` .. `x15` (10_state.md R51). -/
  regs : Vector Nat 16
  /-- Per register: a command or the host has written it since reset (10_state.md R53; the model's own field, LOG 4). -/
  written : Vector Bool 16
  /-- The command counter (10_state.md R54). -/
  pc : Word
  /-- STATUS (10_state.md R60). -/
  status : Status
  /-- FAULT_PC (10_state.md R61). -/
  faultPc : Word
  /-- FLAGS.V (10_state.md R57, R62). -/
  v : Bool
  /-- FCTL.FMODE: false the prime field, true GF(2^128) (10_state.md R63). -/
  fmode : Bool
  /-- FCTL.BE: false little-endian, true big-endian (10_state.md R63). -/
  be : Bool
  /-- FCTL.FVALID (10_state.md R63). -/
  fvalid : Bool
  /-- P, the modulus (10_state.md R64). -/
  p : Nat
  /-- MINV (10_state.md R65). -/
  minv : Nat
  /-- BBASE (10_state.md R66). -/
  bbase : Nat
  /-- BLEN (10_state.md R67). -/
  blen : Nat
  /-- NNODE (10_state.md R68). -/
  nnode : Nat
  /-- XBASE (10_state.md R69). -/
  xbase : Nat
  /-- The written bytes of the data memory, by address (10_state.md R70, 20_memory.md R100). -/
  dm : List (Nat × Byte)
  /-- The written words of the command memory, by index (10_state.md R70, 20_memory.md R101). -/
  cm : List (Nat × Word)
  deriving DecidableEq, Repr

/-- A fault of the MODEL, which ends the run (93_implementation_defined.md U2). The unit's own faults E_* are next states
(60_exceptions.md R610). -/
inductive Fault where
  /-- Raised by a read of a DM byte that neither a command nor the host has written since reset (10_state.md R70, U2). Safe:
  the hardware goes on with some value, the model stops. -/
  | unwrittenData (address : Nat)
  /-- Raised by a fetch (or host read) of a CM word that the host has not written since reset (10_state.md R70, U2). Safe:
  the hardware goes on with some word, the model stops. -/
  | unwrittenCommand (index : Nat)
  deriving DecidableEq, Repr

/-- What the model has no meaning for. -/
inductive Refusal where
  /-- An instruction with no meaning yet, by name; no arm of `exec` answers it. Safe. -/
  | notModelled (mnemonic : String)
  /-- Raised by a host action other than RESET and observing `done` while RUNNING = 1 (60_exceptions.md R640, U3). Safe: the
  block's response is not specified. -/
  | hostWhileRunning
  /-- Raised by a host access outside DM or CM, to a CSR number that does not exist, or of a value wider than a register
  (60_exceptions.md R640, U3). Safe: the block's response is not specified. -/
  | hostOutOfRange
  /-- Raised by a host write of a read-only CSR (60_exceptions.md R640, U3). Safe: the block's response is not specified. -/
  | hostReadOnly
  deriving DecidableEq, Repr

/-- Why a command's computation ends early. -/
inductive Stop where
  /-- `raise E_<NAME>(info)` (00_scope.md R16): the fault entry of 60_exceptions.md R610 follows. `info` is descriptive and
  is stored nowhere (R613). -/
  | trap (cause : Cause) (info : Nat)
  /-- A fault of the model. -/
  | stuck (fault : Fault)
  deriving DecidableEq, Repr

/-- A command's computation: a value, or the reason it ended early. -/
abbrev Comp (α : Type) := Except Stop α

/-- The state RESET leaves on a unit built with the parameters `c` (70_reset_and_hazards.md R700). The general registers
hold 0, a value the model names: the spec gives none (DESIGN CHOICE, LOG 3). -/
def State.resetWith (c : Params) : State where
  params := c
  regs := Vector.replicate 16 0
  written := Vector.replicate 16 false
  pc := 0
  status := { running := false, done := false, fault := false, cause := .none }
  faultPc := 0
  v := false
  fmode := false
  be := false
  fvalid := false
  p := 0
  minv := 0
  bbase := 0
  blen := 0
  nnode := 0
  xbase := 0
  dm := []
  cm := []

/-- The machine right after reset, with the reference parameters (70_reset_and_hazards.md R700; LOG 2). -/
def State.reset : State := State.resetWith Config.reference

end Sys2Proof.Machine
end

