-- ==== Sys2Proof/Machine/Ops.lean ====
section
/-! DEFINITION. The named operations over memory, registers and faults that the commands' meanings are built from. -/

namespace Sys2Proof.Machine

/-! ## Byte order (20_memory.md R103, R104) -/

/-- The number a list of bytes is in little-endian order: byte `k` has weight `2^(8k)` (00_scope.md R15). -/
def leValue : List Byte → Nat
  | [] => 0
  | b :: bs => b.toNat + 2 ^ 8 * leValue bs

/-- The `n` low bytes of `v`, least significant first: byte `k` is `v[8k+7:8k]` (00_scope.md R15, 20_memory.md R103). -/
def leBytes : Nat → Nat → List Byte
  | 0, _ => []
  | n + 1, v => BitVec.ofNat 8 v :: leBytes n (v / 2 ^ 8)

/-- The number a list of bytes is in the byte order `be` (20_memory.md R104): big-endian when true. -/
def bytesValue (be : Bool) (bs : List Byte) : Nat := leValue (cond be bs.reverse bs)

/-- The `n` low bytes of `v` in the byte order `be` (20_memory.md R104): big-endian when true. -/
def valueBytes (be : Bool) (n v : Nat) : List Byte := cond be (leBytes n v).reverse (leBytes n v)

/-! ## A sparse memory: the written locations in rising order -/

/-- The canonical form of a memory: addresses strictly rising. An unlisted location has no value (LOG 5), so no entry can
equal what an unlisted location reads as. -/
abbrev Memory.wf {β : Type} (m : List (Nat × β)) : Prop := m.Pairwise fun c d => c.1 < d.1

/-- Every listed location lies below `size`. -/
abbrev Memory.within {β : Type} (size : Nat) (m : List (Nat × β)) : Prop := ∀ c ∈ m, c.1 < size

/-- The value at a location, or none where nothing has written it. -/
def Memory.read {β : Type} : List (Nat × β) → Nat → Option β
  | [], _ => none
  | (b, v) :: m, a => if b = a then some v else Memory.read m a

/-- The entries of the values `vs` at `a`, `a+1`, ... -/
def Memory.run {β : Type} : Nat → List β → List (Nat × β)
  | _, [] => []
  | a, v :: vs => (a, v) :: Memory.run (a + 1) vs

/-- The memory after the values `vs` are written at `a`, `a+1`, ... -/
def Memory.writeRun {β : Type} (m : List (Nat × β)) (a : Nat) (vs : List β) : List (Nat × β) :=
  m.filter (fun c => c.1 < a) ++ Memory.run a vs ++ m.filter (fun c => a + vs.length ≤ c.1)

/-! ## Registers and the command counter -/

/-- `x[i]` as a source (00_scope.md R14). -/
def State.x (s : State) (r : Reg) : Nat := s.regs[r.val]

/-- `x[i] <- v`: writes `v mod 2^RW` (00_scope.md R14); the register is now written (10_state.md R53). -/
def State.setReg (s : State) (r : Reg) (v : Nat) : State :=
  { s with regs := s.regs.set r.val (v % 2 ^ s.params.regBits), written := s.written.set r.val true }

/-- `pc <- (pc + 1) mod 2^32`, after a command that completes and does not branch or halt (10_state.md R55). -/
def State.advance (s : State) : State := { s with pc := s.pc + 1 }

/-- `pc <- (pc + off) mod 2^32` with `off` a signed integer (48_sequencer.md R552). -/
def State.branch (s : State) (off : Int) : State := { s with pc := s.pc + BitVec.ofInt 32 off }

/-! ## Faults of the unit -/

/-- Fault entry, the taking of an exception (60_exceptions.md R610): STATUS and FAULT_PC are written, `pc` is left unchanged
and nothing else changes. There is no return from it: the sequencer has stopped (R612). -/
def State.faultEntry (s : State) (c : Cause) : State :=
  { s with status := { running := false, done := true, fault := true, cause := c }, faultPc := s.pc }

/-- `raise E_<NAME>(info)` (00_scope.md R16). -/
def raise {α : Type} (c : Cause) (info : Nat) : Comp α := .error (.trap c info)

/-- `raise` unless the condition holds. -/
def require (ok : Bool) (c : Cause) (info : Nat) : Comp Unit := if ok then .ok () else raise c info

/-- The outcome of a command whose computation over the state `s` ended as `r`: its new state; or, when it raised, the fault
entry over `s`, with no effect of its own (60_exceptions.md R610, R611); or a fault of the model. -/
def perform (s : State) (r : Comp State) : Host.Outcome State Fault Refusal :=
  match r with
  | .ok t => .next t
  | .error (.trap c _) => .next (s.faultEntry c)
  | .error (.stuck f) => .fault f

/-- Apply a computation to every element, in list order, until one raises. -/
def forAll (f : Nat → Comp Unit) : List Nat → Comp Unit
  | [] => .ok ()
  | a :: as => do
    f a
    forAll f as

/-! ## Data memory (00_scope.md R15) -/

/-- `CheckRange(addr, n)`: raises `E_ADDR(addr)` unless `addr + n <= DM_SIZE`, on unbounded integers. -/
def State.checkRange (s : State) (addr n : Nat) : Comp Unit := require (addr + n ≤ s.params.dmSize) .addr addr

/-- One byte of data memory, or none where nothing has written it. -/
def State.byteAt (s : State) (addr : Nat) : Option Byte := Memory.read s.dm addr

/-- The read of one byte; a fault of the model where nothing has written it (10_state.md R70, U2). -/
def State.readByte (s : State) (addr : Nat) : Comp Byte :=
  match s.byteAt addr with
  | some b => .ok b
  | none => .error (.stuck (.unwrittenData addr))

/-- The bytes at `addr`, `addr+1`, ..., `n` of them. -/
def State.readBytes (s : State) (addr : Nat) : Nat → Comp (List Byte)
  | 0 => .ok []
  | n + 1 => do
    let b ← s.readByte addr
    let bs ← s.readBytes (addr + 1) n
    .ok (b :: bs)

/-- `MemRead(addr, n)`: the little-endian number in `n` bytes. -/
def State.memRead (s : State) (addr n : Nat) : Comp Nat := do
  let bs ← s.readBytes addr n
  .ok (leValue bs)

/-- The state after bytes are written at `addr`, `addr+1`, ... -/
def State.writeBytes (s : State) (addr : Nat) (bs : List Byte) : State :=
  { s with dm := Memory.writeRun s.dm addr bs }

/-- `MemWrite(addr, n, v)`: byte `v[8k+7:8k]` to `DM[addr+k]` for `k < n`. -/
def State.memWrite (s : State) (addr n v : Nat) : State := s.writeBytes addr (leBytes n v)

/-- `ElemRead(addr)`. -/
def State.elemRead (s : State) (addr : Nat) : Comp Nat := s.memRead addr s.params.elemBytes

/-- `ReadArray(a, N)`: the elements at `a`, `a + ES`, ... (46_interpolation.md R452). -/
def State.readArray (s : State) (a : Nat) : Nat → Comp (List Nat)
  | 0 => .ok []
  | n + 1 => do
    let e ← s.elemRead a
    let es ← s.readArray (a + s.params.elemBytes) n
    .ok (e :: es)

/-- `WriteArray(a, N, Y)`: element `i` to `a + i*ES`, little-endian (46_interpolation.md R452, 20_memory.md R103). The
elements lie one behind the other, so their bytes are written as one run. -/
def State.writeArray (s : State) (a : Nat) (ys : List Nat) : State :=
  s.writeBytes a (ys.flatMap (leBytes s.params.elemBytes))

/-! ## Command memory -/

/-- One word of command memory, or none where the host has not written it. -/
def State.commandAt (s : State) (index : Nat) : Option Word := Memory.read s.cm index

/-- The state after the host wrote one word of command memory. -/
def State.writeCommand (s : State) (index : Nat) (w : Word) : State :=
  { s with cm := Memory.writeRun s.cm index [w] }

/-- The fetch of the word at `pc`: `E_FETCH` where `pc >= CM_SIZE` (60_exceptions.md R603), a fault of the model where the
word is not written (10_state.md R70, U2). R603 gives the raise no information; the index stands there. -/
def State.fetch (s : State) : Comp Word := do
  require (s.pc.toNat < s.params.cmSize) .fetch s.pc.toNat
  match s.commandAt s.pc.toNat with
  | some w => .ok w
  | none => .error (.stuck (.unwrittenCommand s.pc.toNat))

end Sys2Proof.Machine
end

