-- ==== Sys2Proof/Machine/Operands.lean ====
section
/-! DEFINITION. How commands form their operands: limbs and low words of a register, effective addresses, double-width
values. -/

namespace Sys2Proof.Machine

/-- `v[n-1:0]` (00_scope.md R11). -/
def lowBits (n v : Nat) : Nat := v % 2 ^ n

/-- Limb `k` of a register value: `v[64k+63:64k]` (00_scope.md R11). -/
def limb (k v : Nat) : Nat := v / 2 ^ (64 * k) % 2 ^ 64

/-- `{high, low}` with `low` of width `n`: `high * 2^n + low` (00_scope.md R13). -/
def concat (high low n : Nat) : Nat := high * 2 ^ n + low

/-- Bit `i` of a value as the number 0 or 1 (00_scope.md R11). -/
def bitOf (v i : Nat) : Nat := v / 2 ^ i % 2

/-- The effective address of `LD`, `ST`, `FLD`, `FST`: `x[ra] + zext(imm16)` on unbounded integers (42_limb.md R254). -/
def State.effectiveAddress (s : State) (ra : Reg) (offset : Nat) : Nat := s.x ra + offset

end Sys2Proof.Machine
end

