-- ==== Sys2Proof/Machine/Flags.lean ====
section
/-! DEFINITION. The one flag V, the 0/1 results of comparisons, and the words STATUS, FLAGS and FCTL read as. -/

namespace Sys2Proof.Machine

/-- A comparison's result: 1 or 0 in a general register (10_state.md R56). -/
def ofBool (b : Bool) : Nat := cond b 1 0

/-- `csr[FLAGS].V <- b` (10_state.md R57). -/
def State.setV (s : State) (b : Bool) : State := { s with v := b }

/-- The 4-bit code of a cause (60_exceptions.md R600). -/
def Cause.code : Cause → Nat
  | .none => 0
  | .illegal => 1
  | .fetch => 2
  | .addr => 3
  | .config => 4
  | .domain => 5
  | .even => 6
  | .divzero => 7
  | .singular => 8
  | .internal => 9

/-- What STATUS reads as: RUNNING bit 0, DONE bit 1, FAULT bit 2, CAUSE bits 11..8, other bits 0 (10_state.md R60). -/
def Status.value (t : Status) : Nat :=
  ofBool t.running + 2 * ofBool t.done + 4 * ofBool t.fault + 2 ^ 8 * t.cause.code

/-- What FLAGS reads as: V in bit 0, other bits 0 (10_state.md R62). -/
def State.flagsValue (s : State) : Nat := ofBool s.v

/-- What FCTL reads as: FMODE bit 0, BE bit 1, FVALID bit 2, other bits 0 (10_state.md R63). -/
def State.fctlValue (s : State) : Nat := ofBool s.fmode + 2 * ofBool s.be + 4 * ofBool s.fvalid

/-- The output line `done` (60_exceptions.md R620). -/
def State.doneLine (s : State) : Bool := s.status.done

end Sys2Proof.Machine
end

