-- ==== Sys2Proof/Machine/BinaryArith.lean ====
section
/-! DEFINITION. Carry-less multiplication and the binary field GF(2^128) (45_binary_field.md R400 to R407). `poly` is
GF_POLY, a polynomial of degree 128. -/

namespace Sys2Proof.Machine

/-- The exclusive or of `a << i` over the `i < n` with `b[i] = 1`. -/
def clmulUpTo (a b : Nat) : Nat → Nat
  | 0 => 0
  | i + 1 => clmulUpTo a b i ^^^ (cond (b.testBit i) (a <<< i) 0)

/-- `clmul(a, b)`: the exclusive or of `a << i` over every `i` with `b[i] = 1` (R401). -/
def clmul (a b : Nat) : Nat := clmulUpTo a b (b.log2 + 1)

/-- The reduction steps of R402 for `k = 128+n-1` down to 128. -/
def GF.redFrom (poly : Nat) : Nat → Nat → Nat
  | 0, t => t
  | n + 1, t => GF.redFrom poly n (cond (t.testBit (128 + n)) (t ^^^ (poly <<< n)) t)

/-- `GF.red(t)`: the remainder of `t(x)` divided by `GF_POLY(x)`, from the top set bit of `t` down to 128 (R402). -/
def GF.red (poly t : Nat) : Nat := GF.redFrom poly (t.log2 + 1 - 128) t

/-- `GF.add(a, b) = a xor b`, which is also `GF.sub` (R403). -/
def GF.add (a b : Nat) : Nat := a ^^^ b

/-- `GF.mul(a, b) = GF.red(clmul(a, b))` (R404). -/
def GF.mul (poly a b : Nat) : Nat := GF.red poly (clmul a b)

/-- Extended Euclid in GF(2)[x] over `r0, r1`, keeping `r0 = t0*a` and `r1 = t1*a` modulo the polynomial: with enough fuel,
the `t` of the remainder 1. -/
def GF.invLoop : Nat → Nat → Nat → Nat → Nat → Nat
  | 0, _, _, _, t1 => t1
  | fuel + 1, r0, r1, t0, t1 =>
    if r1 ≤ 1 then t1
    else if r0.log2 < r1.log2 then GF.invLoop fuel r1 r0 t1 t0
    else GF.invLoop fuel (r0 ^^^ (r1 <<< (r0.log2 - r1.log2))) r1 (t0 ^^^ (t1 <<< (r0.log2 - r1.log2))) t1

/-- `GF.inv(a)`: raises `E_DIVZERO(0)` for `a = 0`; else the `c` with `GF.mul(a, c) = 1` (R405; LOG 11). -/
def GF.inv (poly a : Nat) : Comp Nat := do
  require (a ≠ 0) .divzero 0
  .ok (GF.red poly (GF.invLoop 520 poly a 0 1))

/-- `CheckG(a)`: raises `E_DOMAIN(a)` when `a >= 2^128` (R406). -/
def checkG (a : Nat) : Comp Unit := require (a < 2 ^ 128) .domain a

end Sys2Proof.Machine
end

