-- ==== Sys2Proof/Machine/PrimeArith.lean ====
section
/-! DEFINITION. The prime field's functions on internal (Montgomery) representations, and the inverse modulo the word size
(43_natural.md R303, 44_prime_field.md R350 to R358). `p` is the modulus and `n` the register width, so `R = 2^n`. -/

namespace Sys2Proof.Machine

/-! ## inv_mod_b (43_natural.md R303) -/

/-- One Newton-Hensel step `j <- j*(2 - i*j)` in wraparound arithmetic, which doubles the number of correct bits (R303). -/
def henselStep (i j : BitVec 64) : BitVec 64 := j * (2 - i * j)

/-- `inv_mod_b(i)` for an odd 64-bit word: from `j = 1`, correct to 1 bit, six steps reach all 64 bits (R303). -/
def invModB (i : BitVec 64) : BitVec 64 :=
  henselStep i (henselStep i (henselStep i (henselStep i (henselStep i (henselStep i 1)))))

/-! ## The inverse modulo a number -/

/-- Extended Euclid over `r0, r1`, keeping `r0 = t0*a` and `r1 = t1*a` modulo `m`: with enough fuel, the `t` of the last
nonzero remainder. -/
def invModLoop (m : Nat) : Nat → Nat → Nat → Nat → Nat → Nat
  | 0, _, _, t0, _ => t0
  | fuel + 1, r0, r1, t0, t1 =>
    if r1 = 0 then t0
    else invModLoop m fuel r1 (r0 % r1) t1 ((t0 + (m - r0 / r1 * t1 % m)) % m)

/-- The inverse of `a` modulo `m`, for `gcd(a, m) = 1` and `m >= 2`. -/
def invMod (a m : Nat) : Nat := invModLoop m (2 * m.log2 + 4) m (a % m) 0 1

/-! ## The field's functions -/

/-- `R^{-1} mod p` for odd `p`: the `n`-th power of `(p+1)/2`, the inverse of 2 (R350; LOG 12). -/
def PF.rInv (p n : Nat) : Nat := ((p + 1) / 2) ^ n % p

/-- `PF.red(T) = T * R^{-1} mod p` (R351). -/
def PF.red (p n t : Nat) : Nat := t * PF.rInv p n % p

/-- `PF.add(a, b) = (a + b) mod p` (R352). -/
def PF.add (p a b : Nat) : Nat := (a + b) % p

/-- `PF.sub(a, b) = (a - b) mod p`, the least non-negative residue (R352). -/
def PF.sub (p a b : Nat) : Nat := (a + (p - b % p)) % p

/-- `PF.mul(a, b) = PF.red(a*b)`, the source's `mulf` (R353). -/
def PF.mul (p n a b : Nat) : Nat := PF.red p n (a * b)

/-- `PF.enc(v) = v * R mod p`, the source's `of_scalar` (R354). -/
def PF.enc (p n v : Nat) : Nat := v * 2 ^ n % p

/-- `PF.dec(a) = a * R^{-1} mod p`, the canonical element (R354). -/
def PF.dec (p n a : Nat) : Nat := PF.red p n a

/-- `PF.inv(a)`: raises `E_DIVZERO(a)` where `PF.dec(a)` is no unit modulo `p`; else `PF.enc(PF.dec(a)^{-1} mod p)` (R355). -/
def PF.inv (p n a : Nat) : Comp Nat := do
  require (Nat.gcd (PF.dec p n a) p = 1) .divzero a
  .ok (PF.enc p n (invMod (PF.dec p n a) p))

/-! ## The checks -/

/-- `CheckP(a)`: raises `E_DOMAIN(a)` when `a >= csr[P]` (R357). -/
def State.checkP (s : State) (a : Nat) : Comp Unit := require (a < s.p) .domain a

/-- The configuration check of every prime-field command but `MULW` and `FCFG`: raises `E_CONFIG(0)` when `FVALID = 0`
(R358). -/
def State.checkConfigured (s : State) : Comp Unit := require s.fvalid .config 0

end Sys2Proof.Machine
end

