-- ==== Sys2Proof/Machine/Fields.lean ====
section
/-! DEFINITION. The field an interpolation command selects, and polynomials over it: evaluation, divided differences, basis
conversion (46_interpolation.md R450 to R455), and the points of a transform (47_additive_fft.md R502). -/

namespace Sys2Proof.Machine

/-- The field `F` of 46_interpolation.md R451. `F.zero` is 0 in both fields. -/
structure FieldOps where
  /-- `F.add`. -/
  add : Nat → Nat → Nat
  /-- `F.sub`. -/
  sub : Nat → Nat → Nat
  /-- `F.mul`. -/
  mul : Nat → Nat → Nat
  /-- The field's inverse, which raises `E_DIVZERO` (44_prime_field.md R355, 45_binary_field.md R405). -/
  inv : Nat → Comp Nat
  /-- `F.check`. -/
  check : Nat → Comp Unit
  /-- `F.one`. -/
  one : Nat

/-- The configured prime field (46_interpolation.md R451). -/
def State.primeField (s : State) : FieldOps where
  add := PF.add s.p
  sub := PF.sub s.p
  mul := PF.mul s.p s.params.regBits
  inv := PF.inv s.p s.params.regBits
  check := s.checkP
  one := 2 ^ s.params.regBits % s.p

/-- GF(2^128) with the polynomial `poly` (46_interpolation.md R451). -/
def binaryField (poly : Nat) : FieldOps where
  add := GF.add
  sub := GF.add
  mul := GF.mul poly
  inv := GF.inv poly
  check := checkG
  one := 1

/-- `SelectField()` (46_interpolation.md R451). -/
def State.selectField (s : State) : Comp FieldOps :=
  if s.fmode then .ok (binaryField s.params.gfPoly)
  else do
    s.checkConfigured
    .ok s.primeField

/-- `F.div(a, b) = F.mul(a, F.inv(b))` (44_prime_field.md R355, 45_binary_field.md R405). -/
def FieldOps.div (f : FieldOps) (a b : Nat) : Comp Nat := do
  let c ← f.inv b
  .ok (f.mul a c)

/-! ## Evaluation -/

/-- Horner's rule over monomial coefficients: `r <- r*x + M[i]` from the last coefficient down (46_interpolation.md R460). -/
def FieldOps.evalMonomial (f : FieldOps) (x : Nat) : List Nat → Nat
  | [] => 0
  | m :: ms => f.add (f.mul (f.evalMonomial x ms) x) m

/-- The evaluation of a Newton form, given as pairs of a node and its coefficient: from `c[N-1]`, `r <- r*(x - X[i]) + c[i]`
for `i = N-2` down to 0; 0 for no coefficient (46_interpolation.md R462). -/
def FieldOps.evalNewton (f : FieldOps) (x : Nat) : List (Nat × Nat) → Nat
  | [] => 0
  | [(_, c)] => c
  | (node, c) :: pair :: rest => f.add (f.mul (f.evalNewton x (pair :: rest)) (f.sub x node)) c

/-! ## Divided differences -/

/-- `CheckDistinct(X)`: raises `E_DIVZERO` where the difference of two nodes has no inverse (46_interpolation.md R453). -/
def FieldOps.checkDistinct (f : FieldOps) : List Nat → Comp Unit
  | [] => .ok ()
  | x :: xs => do
    forAll (fun y => do let _ ← f.inv (f.sub y x); .ok ()) xs
    f.checkDistinct xs

/-- The next column of the divided-difference table: from the column `d` of `f[X_i..X_{i+k-1}]`, with `lows` the nodes
`X[i]` and `highs` the nodes `X[i+k]`, the column of `f[X_i..X_{i+k}]` (46_interpolation.md R454). -/
def FieldOps.nextColumn (f : FieldOps) : List Nat → List Nat → List Nat → Comp (List Nat)
  | low :: lows, high :: highs, a :: b :: d => do
    let q ← f.div (f.sub b a) (f.sub high low)
    let qs ← f.nextColumn lows highs (b :: d)
    .ok (q :: qs)
  | _, _, _ => .ok []

/-- The Newton coefficients `c[k] = f[X_0..X_k]` from the column `d` of the table on: its head, then those of the next
columns; `highs` are the nodes `X[k], X[k+1], ...` for the next column's `k` (46_interpolation.md R454). -/
def FieldOps.tableFrom (f : FieldOps) (nodes : List Nat) : List Nat → List Nat → Comp (List Nat)
  | _, [] => .ok []
  | [], a :: _ => .ok [a]
  | high :: highs, a :: d => do
    let next ← f.nextColumn nodes (high :: highs) (a :: d)
    let cs ← f.tableFrom nodes highs next
    .ok (a :: cs)

/-- The Newton coefficients of the values `vs` at the nodes (46_interpolation.md R454, R461). -/
def FieldOps.newtonOfValues (f : FieldOps) (nodes vs : List Nat) : Comp (List Nat) := f.tableFrom nodes (nodes.drop 1) vs

/-! ## From Newton form to monomial form -/

/-- `A * (t - x)`: coefficient `j` is `F.sub(A[j-1], F.mul(A[j], x))`, with `A[-1] = A[len] = 0` (46_interpolation.md
R463). -/
def FieldOps.timesLinear (f : FieldOps) (x : Nat) (as : List Nat) : List Nat :=
  List.zipWith (fun prev a => f.sub prev (f.mul a x)) (0 :: as) (as ++ [0])

/-- `A + c`: `c` added to coefficient 0 (46_interpolation.md R463). -/
def FieldOps.plusConstant (f : FieldOps) (c : Nat) : List Nat → List Nat
  | [] => []
  | a :: as => f.add a c :: as

/-- The monomial coefficients of a Newton form, given as pairs of a node and its coefficient (46_interpolation.md R463). -/
def FieldOps.monomialOfNewton (f : FieldOps) : List (Nat × Nat) → List Nat
  | [] => []
  | [(_, c)] => [c]
  | (node, c) :: pair :: rest => f.plusConstant c (f.timesLinear node (f.monomialOfNewton (pair :: rest)))

/-- The monomial coefficients of the values `vs` at the nodes: the Newton form, then its expansion (46_interpolation.md
R464). -/
def FieldOps.monomialOfValues (f : FieldOps) (nodes vs : List Nat) : Comp (List Nat) := do
  let cs ← f.newtonOfValues nodes vs
  .ok (f.monomialOfNewton (nodes.zip cs))

/-! ## Transforms (47_additive_fft.md) -/

/-- `point(l, c, i)`: `c` xor the basis vectors that the bits of `i` select, bit `k` selecting `beta_k` (R502). -/
def gfPoint : List Nat → Nat → Nat → Nat
  | [], c, _ => c
  | beta :: basis, c, i => gfPoint basis (cond (i.testBit 0) (c ^^^ beta) c) (i / 2)

/-- The points of a transform with the basis `basis` and the coset `c`, in index order (R502). -/
def gfPoints (basis : List Nat) (c : Nat) : List Nat := (List.range (2 ^ basis.length)).map (gfPoint basis c)

/-- The sum over `j` of `GF.mul(A[j], x^(j+e))`, where `power` is `x^e` (R510). -/
def gfSumFrom (poly x : Nat) : Nat → List Nat → Nat
  | _, [] => 0
  | power, a :: as => GF.add (GF.mul poly a power) (gfSumFrom poly x (GF.mul poly power x) as)

/-- The value at `x` of the polynomial with the monomial coefficients `A`: the sum of `GF.mul(A[j], x^j)`, with `x^0 = 1`
(R510). -/
def gfSum (poly x : Nat) (as : List Nat) : Nat := gfSumFrom poly x 1 as

end Sys2Proof.Machine
end

