-- ==== Sys2Proof/Machine/AdditiveFft.lean ====
section
/-! DEFINITION. FFT, IFFT, BFFT (47_additive_fft.md). -/

namespace Sys2Proof.Machine

/-- `FftCheck(l, a)`: the checks and reads every transform makes, in their order; the basis and the data (R501). -/
def State.fftCheck (s : State) (l a : Nat) : Comp (List Nat × List Nat) := do
  require s.fmode .config 0
  require (l ≤ s.blen) .domain l
  s.checkRange s.bbase (l * s.params.elemBytes)
  s.checkRange a (2 ^ l * s.params.elemBytes)
  let basis ← s.readArray s.bbase l
  let d ← s.readArray a (2 ^ l)
  forAll checkG basis
  forAll checkG d
  .ok (basis, d)

/-- The check that points are pairwise distinct: `E_SINGULAR(0)` (R511, R512). -/
def checkPoints (points : List Nat) : Comp Unit := require (points.Nodup) .singular 0

/-- `FFT ra, rb, l`: the coset is checked last (R510). -/
def execFft (ra rb : Reg) (l : Nat) (s : State) : Host.Outcome State Fault Refusal :=
  perform s do
    let (basis, as) ← s.fftCheck l (s.x ra)
    checkG (s.x rb)
    let ys := (gfPoints basis (s.x rb)).map fun x => gfSum s.params.gfPoly x as
    .ok (s.writeArray (s.x ra) ys).advance

/-- `IFFT ra, rb, l` (R511). -/
def execIfft (ra rb : Reg) (l : Nat) (s : State) : Host.Outcome State Fault Refusal :=
  perform s do
    let (basis, vs) ← s.fftCheck l (s.x ra)
    checkG (s.x rb)
    let points := gfPoints basis (s.x rb)
    checkPoints points
    let as ← (binaryField s.params.gfPoly).monomialOfValues points vs
    .ok (s.writeArray (s.x ra) as).advance

/-- What `BFFT` writes: from the points, the split index `k` and the array `d` of `k` values and then coefficients, the `k`
coefficients `Q` and then the values of `P` at the other points (R512). -/
def bidirectional (poly : Nat) (points : List Nat) (k : Nat) (d : List Nat) : Comp (List Nat) := do
  let high := List.replicate k 0 ++ d.drop k
  let residual := List.zipWith (fun v x => GF.add v (gfSum poly x high)) (d.take k) (points.take k)
  let q ← (binaryField poly).monomialOfValues (points.take k) residual
  .ok (q ++ (points.drop k).map fun x => gfSum poly x (q ++ d.drop k))

/-- `BFFT ra, rb, l`: `k = x[rb]`, `E_DOMAIN(k)` for `k > 2^l`, then the first `k` points must be distinct (R512). -/
def execBfft (ra rb : Reg) (l : Nat) (s : State) : Host.Outcome State Fault Refusal :=
  perform s do
    let (basis, d) ← s.fftCheck l (s.x ra)
    let k := s.x rb
    require (k ≤ 2 ^ l) .domain k
    let points := gfPoints basis 0
    checkPoints (points.take k)
    let ys ← bidirectional s.params.gfPoly points k d
    .ok (s.writeArray (s.x ra) ys).advance

end Sys2Proof.Machine
end

