-- ==== Sys2Proof/Machine/PrimeField.lean ====
section
/-! DEFINITION. FCFG, MULW, FRED, FADD, FSUB, FMUL, FTOM, FFROMM, FEQ, FLD, FST (44_prime_field.md). -/

namespace Sys2Proof.Machine

/-- The two destinations of `MULW` and `CLMUL`: the low half to `rd`, then the high half to `rc`, so that the high half
remains where they are one register (44_prime_field.md R361, 45_binary_field.md R410). -/
def State.setHalves (s : State) (rd rc : Reg) (low high : Nat) : State := (s.setReg rd low).setReg rc high

/-- A prime-field command of two element operands with one result: configuration, `CheckP` of `ra` then `rb`, the result
(R363 to R365, R368). -/
def State.primeBinary (s : State) (rd ra rb : Reg) (op : Nat → Nat → Nat) : Comp State := do
  s.checkConfigured
  s.checkP (s.x ra)
  s.checkP (s.x rb)
  .ok (s.setReg rd (op (s.x ra) (s.x rb))).advance

/-- `FCFG ra, be`: `E_CONFIG(p)` for a modulus that is even or below 3 (R360). -/
def execFcfg (ra : Reg) (be : Bool) (s : State) : Host.Outcome State Fault Refusal :=
  perform s do
    let p := s.x ra
    require (bitOf p 0 = 1 ∧ 3 ≤ p) .config p
    .ok ({ s with p := p, minv := (invModB (BitVec.ofNat 64 (limb 0 p))).toNat, be := be, fvalid := true } : State).advance

/-- `MULW rd, ra, rb, rc` (R361). -/
def execMulw (rd ra rb rc : Reg) (s : State) : Host.Outcome State Fault Refusal :=
  let t := s.x ra * s.x rb
  perform s (.ok (s.setHalves rd rc (t % 2 ^ s.params.regBits) (t / 2 ^ s.params.regBits)).advance)

/-- `FRED rd, ra, rb`: `T = {x[rb], x[ra]}` (R362). -/
def execFred (rd ra rb : Reg) (s : State) : Host.Outcome State Fault Refusal :=
  perform s do
    s.checkConfigured
    let t := concat (s.x rb) (s.x ra) s.params.regBits
    .ok (s.setReg rd (PF.red s.p s.params.regBits t)).advance

/-- `FADD rd, ra, rb` (R363). -/
def execFadd (rd ra rb : Reg) (s : State) : Host.Outcome State Fault Refusal :=
  perform s (s.primeBinary rd ra rb (PF.add s.p))

/-- `FSUB rd, ra, rb` (R364). -/
def execFsub (rd ra rb : Reg) (s : State) : Host.Outcome State Fault Refusal :=
  perform s (s.primeBinary rd ra rb (PF.sub s.p))

/-- `FMUL rd, ra, rb` (R365). -/
def execFmul (rd ra rb : Reg) (s : State) : Host.Outcome State Fault Refusal :=
  perform s (s.primeBinary rd ra rb (PF.mul s.p s.params.regBits))

/-- `FTOM rd, ra`: any integer, reduced, with no domain check (R366). -/
def execFtom (rd ra : Reg) (s : State) : Host.Outcome State Fault Refusal :=
  perform s do
    s.checkConfigured
    .ok (s.setReg rd (PF.enc s.p s.params.regBits (s.x ra))).advance

/-- `FFROMM rd, ra` (R367). -/
def execFfromm (rd ra : Reg) (s : State) : Host.Outcome State Fault Refusal :=
  perform s do
    s.checkConfigured
    s.checkP (s.x ra)
    .ok (s.setReg rd (PF.dec s.p s.params.regBits (s.x ra))).advance

/-- `FEQ rd, ra, rb` (R368). -/
def execFeq (rd ra rb : Reg) (s : State) : Host.Outcome State Fault Refusal :=
  perform s (s.primeBinary rd ra rb (fun a b => ofBool (a == b)))

/-- `FLD rd, imm16(ra)`: the canonical buffer in the byte order `FCTL.BE`; a value of `p` or more is the absent result, which
sets V and leaves `rd` (R369). -/
def execFld (rd ra : Reg) (offset : Nat) (s : State) : Host.Outcome State Fault Refusal :=
  perform s do
    s.checkConfigured
    let ea := s.effectiveAddress ra offset
    s.checkRange ea s.params.elemBytes
    let bs ← s.readBytes ea s.params.elemBytes
    let v := bytesValue s.be bs
    if v < s.p then .ok ((s.setReg rd (PF.enc s.p s.params.regBits v)).setV false).advance
    else .ok (s.setV true).advance

/-- `FST rs, imm16(ra)`: the canonical buffer in the byte order `FCTL.BE` (R370). -/
def execFst (rs ra : Reg) (offset : Nat) (s : State) : Host.Outcome State Fault Refusal :=
  perform s do
    s.checkConfigured
    let ea := s.effectiveAddress ra offset
    s.checkRange ea s.params.elemBytes
    s.checkP (s.x rs)
    let c := PF.dec s.p s.params.regBits (s.x rs)
    .ok (s.writeBytes ea (valueBytes s.be s.params.elemBytes c)).advance

end Sys2Proof.Machine
end

