-- ==== Sys2Proof/Machine/BinaryField.lean ====
section
/-! DEFINITION. CLMUL, GADD, GMUL (45_binary_field.md). -/

namespace Sys2Proof.Machine

/-- `CLMUL rd, ra, rb, rc`: the low 128 bits to `rd`, then bits 254..128 to `rc` (R410). -/
def execClmul (rd ra rb rc : Reg) (s : State) : Host.Outcome State Fault Refusal :=
  perform s do
    checkG (s.x ra)
    checkG (s.x rb)
    let t := clmul (s.x ra) (s.x rb)
    .ok (s.setHalves rd rc (t % 2 ^ 128) (t / 2 ^ 128 % 2 ^ 127)).advance

/-- `GADD rd, ra, rb` (R411). -/
def execGadd (rd ra rb : Reg) (s : State) : Host.Outcome State Fault Refusal :=
  perform s do
    checkG (s.x ra)
    checkG (s.x rb)
    .ok (s.setReg rd (GF.add (s.x ra) (s.x rb))).advance

/-- `GMUL rd, ra, rb` (R412). -/
def execGmul (rd ra rb : Reg) (s : State) : Host.Outcome State Fault Refusal :=
  perform s do
    checkG (s.x ra)
    checkG (s.x rb)
    .ok (s.setReg rd (GF.mul s.params.gfPoly (s.x ra) (s.x rb))).advance

end Sys2Proof.Machine
end

