-- ==== Sys2Proof/Machine/Interpolation.lean ====
section
/-! DEFINITION. EVALM, NOFL, EVALN, MONOFN, MONOFL (46_interpolation.md). `N` is `csr[NNODE]`, the nodes are at `csr[XBASE]`,
and the checks stand in the order of R452. -/

namespace Sys2Proof.Machine

/-- `N*ES`, the bytes of an array (R452). -/
def State.arrayBytes (s : State) : Nat := s.nnode * s.params.elemBytes

/-- The range checks, reads and domain checks of a conversion from the array at `x[ra]` to the array at `x[rd]`: the nodes
and the source array (R461, R463, R464). -/
def State.conversionInputs (s : State) (f : FieldOps) (rd ra : Reg) : Comp (List Nat × List Nat) := do
  s.checkRange (s.x ra) s.arrayBytes
  s.checkRange s.xbase s.arrayBytes
  s.checkRange (s.x rd) s.arrayBytes
  let nodes ← s.readArray s.xbase s.nnode
  let source ← s.readArray (s.x ra) s.nnode
  forAll f.check nodes
  forAll f.check source
  .ok (nodes, source)

/-- `EVALM rd, ra, rb` (R460). -/
def execEvalm (rd ra rb : Reg) (s : State) : Host.Outcome State Fault Refusal :=
  perform s do
    let f ← s.selectField
    s.checkRange (s.x ra) s.arrayBytes
    f.check (s.x rb)
    let ms ← s.readArray (s.x ra) s.nnode
    forAll f.check ms
    .ok (s.setReg rd (f.evalMonomial (s.x rb) ms)).advance

/-- `NOFL rd, ra` (R461). -/
def execNofl (rd ra : Reg) (s : State) : Host.Outcome State Fault Refusal :=
  perform s do
    let f ← s.selectField
    let (nodes, vs) ← s.conversionInputs f rd ra
    f.checkDistinct nodes
    let cs ← f.newtonOfValues nodes vs
    .ok (s.writeArray (s.x rd) cs).advance

/-- `EVALN rd, ra, rb` (R462). -/
def execEvaln (rd ra rb : Reg) (s : State) : Host.Outcome State Fault Refusal :=
  perform s do
    let f ← s.selectField
    s.checkRange (s.x ra) s.arrayBytes
    s.checkRange s.xbase s.arrayBytes
    f.check (s.x rb)
    let nodes ← s.readArray s.xbase s.nnode
    let cs ← s.readArray (s.x ra) s.nnode
    forAll f.check nodes
    forAll f.check cs
    .ok (s.setReg rd (f.evalNewton (s.x rb) (nodes.zip cs))).advance

/-- `MONOFN rd, ra` (R463). -/
def execMonofn (rd ra : Reg) (s : State) : Host.Outcome State Fault Refusal :=
  perform s do
    let f ← s.selectField
    let (nodes, cs) ← s.conversionInputs f rd ra
    .ok (s.writeArray (s.x rd) (f.monomialOfNewton (nodes.zip cs))).advance

/-- `MONOFL rd, ra` (R464). -/
def execMonofl (rd ra : Reg) (s : State) : Host.Outcome State Fault Refusal :=
  perform s do
    let f ← s.selectField
    let (nodes, vs) ← s.conversionInputs f rd ra
    f.checkDistinct nodes
    let ms ← f.monomialOfValues nodes vs
    .ok (s.writeArray (s.x rd) ms).advance

end Sys2Proof.Machine
end

