-- ==== Sys2Proof/Machine/Limb.lean ====
section
/-! DEFINITION. LEQ, LSHR, LSHRI, LD, ST, LDI (42_limb.md). -/

namespace Sys2Proof.Machine

/-- The logical right shift of an `RW`-bit value: 0 for an amount of `RW` or more (R252, R253). -/
def State.shiftRight (s : State) (v amount : Nat) : Nat :=
  if amount ≥ s.params.regBits then 0 else v >>> amount

/-- `LEQ rd, ra, rb` (R251). -/
def execLeq (rd ra rb : Reg) (s : State) : Host.Outcome State Fault Refusal :=
  perform s (.ok (s.setReg rd (ofBool (s.x ra == s.x rb))).advance)

/-- `LSHR rd, ra, rb`: the amount is the whole register (R252). -/
def execLshr (rd ra rb : Reg) (s : State) : Host.Outcome State Fault Refusal :=
  perform s (.ok (s.setReg rd (s.shiftRight (s.x ra) (s.x rb))).advance)

/-- `LSHRI rd, ra, imm8` (R253). -/
def execLshri (rd ra : Reg) (amount : Nat) (s : State) : Host.Outcome State Fault Refusal :=
  perform s (.ok (s.setReg rd (s.shiftRight (s.x ra) amount)).advance)

/-- `LD rd, imm16(ra)` (R255). -/
def execLd (rd ra : Reg) (offset : Nat) (s : State) : Host.Outcome State Fault Refusal :=
  perform s do
    let ea := s.effectiveAddress ra offset
    s.checkRange ea s.params.elemBytes
    let v ← s.memRead ea s.params.elemBytes
    .ok (s.setReg rd v).advance

/-- `ST rs, imm16(ra)` (R256). -/
def execSt (rs ra : Reg) (offset : Nat) (s : State) : Host.Outcome State Fault Refusal :=
  perform s do
    let ea := s.effectiveAddress ra offset
    s.checkRange ea s.params.elemBytes
    .ok (s.memWrite ea s.params.elemBytes (s.x rs)).advance

/-- `LDI rd, imm16` (R257). -/
def execLdi (rd : Reg) (value : Nat) (s : State) : Host.Outcome State Fault Refusal :=
  perform s (.ok (s.setReg rd value).advance)

end Sys2Proof.Machine
end

