-- ==== Sys2Proof/Machine/Natural.lean ====
section
/-! DEFINITION. NLT, NBIT, INVW (43_natural.md). -/

namespace Sys2Proof.Machine

/-- The most-significant-limb-first comparison from limb `k` down: the first limb in which the values differ decides, limb 0
at the latest (R301). -/
def limbLess (a b : Nat) : Nat → Bool
  | 0 => limb 0 a < limb 0 b
  | k + 1 => if limb (k + 1) a = limb (k + 1) b then limbLess a b k else limb (k + 1) a < limb (k + 1) b

/-- `NLT rd, ra, rb`: from limb `W-1` down (R301). -/
def execNlt (rd ra rb : Reg) (s : State) : Host.Outcome State Fault Refusal :=
  perform s (.ok (s.setReg rd (ofBool (limbLess (s.x ra) (s.x rb) (s.params.limbs - 1)))).advance)

/-- `NBIT rd, ra, rb`: `E_DOMAIN` for an index of `RW` or more (R302). -/
def execNbit (rd ra rb : Reg) (s : State) : Host.Outcome State Fault Refusal :=
  perform s do
    require (s.x rb < s.params.regBits) .domain (s.x rb)
    .ok (s.setReg rd (bitOf (s.x ra) (s.x rb))).advance

/-- `INVW rd, ra`: `E_EVEN` for an even limb 0 (R304). -/
def execInvw (rd ra : Reg) (s : State) : Host.Outcome State Fault Refusal :=
  perform s do
    let i := limb 0 (s.x ra)
    require (bitOf i 0 = 1) .even i
    .ok (s.setReg rd (invModB (BitVec.ofNat 64 i)).toNat).advance

end Sys2Proof.Machine
end

