-- ==== Sys2Proof/Machine/Csr.lean ====
section
/-! DEFINITION. The ten control and status registers by number: reading and writing one (10_state.md R58, R59). -/

namespace Sys2Proof.Machine

/-- The CSRs (10_state.md R59). -/
inductive Csr where
  | status | faultPc | flags | fctl | p | minv | bbase | blen | nnode | xbase
  deriving DecidableEq, Repr

/-- The CSR of a number; none for a reserved number (10_state.md R58, R59). -/
def csrOfNumber : Nat → Option Csr
  | 0x00 => some .status
  | 0x01 => some .faultPc
  | 0x02 => some .flags
  | 0x03 => some .fctl
  | 0x04 => some .p
  | 0x05 => some .minv
  | 0x06 => some .bbase
  | 0x07 => some .blen
  | 0x08 => some .nnode
  | 0x09 => some .xbase
  | _ => none

/-- What a CSR reads as; bits outside its fields read 0 (10_state.md R58 to R69). -/
def State.readCsr (s : State) : Csr → Nat
  | .status => s.status.value
  | .faultPc => s.faultPc.toNat
  | .flags => s.flagsValue
  | .fctl => s.fctlValue
  | .p => s.p
  | .minv => s.minv
  | .bbase => s.bbase
  | .blen => s.blen
  | .nnode => s.nnode
  | .xbase => s.xbase

/-- The state after `CSRW` of a value to a CSR, or none for a read-only CSR: STATUS, FAULT_PC, P, MINV (10_state.md R58,
48_sequencer.md R554). Of FLAGS only V is written, of FCTL only FMODE. -/
def State.writeCsr (s : State) (v : Nat) : Csr → Option State
  | .status => none
  | .faultPc => none
  | .flags => some (s.setV (bitOf v 0 == 1))
  | .fctl => some { s with fmode := bitOf v 0 == 1 }
  | .p => none
  | .minv => none
  | .bbase => some { s with bbase := v }
  | .blen => some { s with blen := v }
  | .nnode => some { s with nnode := v }
  | .xbase => some { s with xbase := v }

end Sys2Proof.Machine
end

