-- ==== Sys2Proof/Machine/Sequencer.lean ====
section
/-! DEFINITION. HALT, BNZ, CSRR, CSRW (48_sequencer.md). -/

namespace Sys2Proof.Machine

/-- `HALT`: `pc` is left unchanged (R551). -/
def execHalt (s : State) : Host.Outcome State Fault Refusal :=
  perform s (.ok { s with status := { running := false, done := true, fault := false, cause := .none } })

/-- `BNZ ra, off16`: relative to its own index (R552). -/
def execBnz (ra : Reg) (offset : Int) (s : State) : Host.Outcome State Fault Refusal :=
  perform s (.ok (if s.x ra ≠ 0 then s.branch offset else s.advance))

/-- `CSRR rd, csr`: `E_ILLEGAL(word)` for a reserved number (R553). -/
def execCsrr (rd : Reg) (csr : Nat) (s : State) : Host.Outcome State Fault Refusal :=
  perform s
    (match csrOfNumber csr with
    | none => raise .illegal (encode (.csrr rd csr)).toNat
    | some c => .ok (s.setReg rd (s.readCsr c)).advance)

/-- `CSRW ra, csr`: `E_ILLEGAL(word)` for a reserved number or a read-only CSR (R554). -/
def execCsrw (ra : Reg) (csr : Nat) (s : State) : Host.Outcome State Fault Refusal :=
  perform s
    (match csrOfNumber csr with
    | none => raise .illegal (encode (.csrw ra csr)).toNat
    | some c =>
      match s.writeCsr (s.x ra) c with
      | none => raise .illegal (encode (.csrw ra csr)).toNat
      | some t => .ok t.advance)

end Sys2Proof.Machine
end

