-- ==== Sys2Proof/Machine/WideMultiply.lean ====
section
/-! DEFINITION. WMUL64 and WMUL32 (41_wide_multiply.md). -/

namespace Sys2Proof.Machine

/-- `mulhl_w(c, a, b)`: the low and the high word of `a*b + c` (R200). -/
def mulhl (w c a b : Nat) : Nat × Nat := ((a * b + c) % 2 ^ w, (a * b + c) / 2 ^ w)

/-- The wide multiply-accumulate on the low `w` bits of three registers: `{high, low}`, with zeros above (R201, R202). -/
def State.wideMultiply (s : State) (w : Nat) (rd ra rb rc : Reg) : State :=
  let hl := mulhl w (lowBits w (s.x rc)) (lowBits w (s.x ra)) (lowBits w (s.x rb))
  (s.setReg rd (concat hl.2 hl.1 w)).advance

/-- `WMUL64 rd, ra, rb, rc` (R201). -/
def execWmul64 (rd ra rb rc : Reg) (s : State) : Host.Outcome State Fault Refusal :=
  perform s (.ok (s.wideMultiply 64 rd ra rb rc))

/-- `WMUL32 rd, ra, rb, rc` (R202). -/
def execWmul32 (rd ra rb rc : Reg) (s : State) : Host.Outcome State Fault Refusal :=
  perform s (.ok (s.wideMultiply 32 rd ra rb rc))

end Sys2Proof.Machine
end

