-- ==== Sys2Proof/Machine/Dispatch.lean ====
section
/-! DEFINITION. The meaning of every command, one arm each. -/

namespace Sys2Proof.Machine

/-- What performing a command does (48_sequencer.md R550): one arm per row of the opcode map. -/
def exec (i : Instr) (s : State) : Host.Outcome State Fault Refusal :=
  match i with
  | .wmul64 rd ra rb rc => Sys2Proof.Machine.execWmul64 rd ra rb rc s
  | .wmul32 rd ra rb rc => Sys2Proof.Machine.execWmul32 rd ra rb rc s
  | .leq rd ra rb => Sys2Proof.Machine.execLeq rd ra rb s
  | .lshr rd ra rb => Sys2Proof.Machine.execLshr rd ra rb s
  | .lshri rd ra amount => Sys2Proof.Machine.execLshri rd ra amount s
  | .ld rd ra offset => Sys2Proof.Machine.execLd rd ra offset s
  | .st rs ra offset => Sys2Proof.Machine.execSt rs ra offset s
  | .ldi rd value => Sys2Proof.Machine.execLdi rd value s
  | .nlt rd ra rb => Sys2Proof.Machine.execNlt rd ra rb s
  | .nbit rd ra rb => Sys2Proof.Machine.execNbit rd ra rb s
  | .invw rd ra => Sys2Proof.Machine.execInvw rd ra s
  | .fcfg ra be => Sys2Proof.Machine.execFcfg ra be s
  | .fadd rd ra rb => Sys2Proof.Machine.execFadd rd ra rb s
  | .fsub rd ra rb => Sys2Proof.Machine.execFsub rd ra rb s
  | .fmul rd ra rb => Sys2Proof.Machine.execFmul rd ra rb s
  | .mulw rd ra rb rc => Sys2Proof.Machine.execMulw rd ra rb rc s
  | .fred rd ra rb => Sys2Proof.Machine.execFred rd ra rb s
  | .ftom rd ra => Sys2Proof.Machine.execFtom rd ra s
  | .ffromm rd ra => Sys2Proof.Machine.execFfromm rd ra s
  | .feq rd ra rb => Sys2Proof.Machine.execFeq rd ra rb s
  | .fld rd ra offset => Sys2Proof.Machine.execFld rd ra offset s
  | .fst rs ra offset => Sys2Proof.Machine.execFst rs ra offset s
  | .clmul rd ra rb rc => Sys2Proof.Machine.execClmul rd ra rb rc s
  | .gadd rd ra rb => Sys2Proof.Machine.execGadd rd ra rb s
  | .gmul rd ra rb => Sys2Proof.Machine.execGmul rd ra rb s
  | .evalm rd ra rb => Sys2Proof.Machine.execEvalm rd ra rb s
  | .nofl rd ra => Sys2Proof.Machine.execNofl rd ra s
  | .evaln rd ra rb => Sys2Proof.Machine.execEvaln rd ra rb s
  | .monofn rd ra => Sys2Proof.Machine.execMonofn rd ra s
  | .monofl rd ra => Sys2Proof.Machine.execMonofl rd ra s
  | .fft ra rb size => Sys2Proof.Machine.execFft ra rb size s
  | .ifft ra rb size => Sys2Proof.Machine.execIfft ra rb size s
  | .bfft ra rb size => Sys2Proof.Machine.execBfft ra rb size s
  | .halt => Sys2Proof.Machine.execHalt s
  | .bnz ra offset => Sys2Proof.Machine.execBnz ra offset s
  | .csrr rd csr => Sys2Proof.Machine.execCsrr rd csr s
  | .csrw ra csr => Sys2Proof.Machine.execCsrw ra csr s

end Sys2Proof.Machine
end

