-- ==== Sys2Proof/Machine/Step.lean ====
section
/-! DEFINITION. One step of the sequencer: fetch, decode, perform. -/

namespace Sys2Proof.Machine

/-- Decode and perform a fetched word; a word that is no command raises `E_ILLEGAL(w)` (30_encoding.md R157). -/
def State.performWord (s : State) (w : Word) : Host.Outcome State Fault Refusal :=
  match decode w with
  | some i => exec i s
  | none => perform s (raise .illegal w.toNat)

/-- One step. A running sequencer fetches the word at `pc`, decodes it and performs it to completion (10_state.md R50,
60_exceptions.md R615); a stopped one fetches nothing and keeps all state (60_exceptions.md R635, 70_reset_and_hazards.md R701;
LOG 6). -/
def step (s : State) : Host.Outcome State Fault Refusal :=
  if s.status.running then
    match s.fetch with
    | .ok w => s.performWord w
    | .error e => perform s (.error e)
  else .next s

/-- `s` with an instruction's bits stored where the next step fetches, and the sequencer running at the same `pc`: what a
host's `WRITE_CM(pc, w)` and `START(pc)` leave (60_exceptions.md R640, R641; LOG 7). -/
def State.withFetchWord (s : State) (nbits w : Nat) : State :=
  { s.writeCommand s.pc.toNat (BitVec.ofNat 32 (w % 2 ^ nbits)) with
    status := { running := true, done := false, fault := false, cause := .none } }

end Sys2Proof.Machine
end

