-- ==== Sys2Proof/Machine/HostPort.lean ====
section
/-! DEFINITION. The host port (60_exceptions.md R640 to R643): what the agent outside the block can do to it. -/

namespace Sys2Proof.Machine

/-- The host's actions (R640). -/
inductive PortAction where
  | writeCm (index : Nat) (word : Word)
  | readCm (index : Nat)
  | writeDm (address : Nat) (bytes : List Byte)
  | readDm (address count : Nat)
  | writeReg (r : Reg) (value : Nat)
  | readReg (r : Reg)
  | writeCsr (number value : Nat)
  | readCsr (number : Nat)
  | readPc
  | start (index : Word)
  | reset
  | observeDone
  deriving DecidableEq, Repr

/-- What an action returns to the host (R640). -/
inductive PortReply where
  | nothing
  | word (w : Word)
  | bytes (bs : List Byte)
  | value (v : Nat)
  | pc (w : Word)
  | done (b : Bool)
  deriving DecidableEq, Repr

/-- What the host's action left and returned; a fault of the model; or a refusal, for a breach of the host's duties. -/
abbrev PortOutcome := Host.Outcome (State × PortReply) Fault Refusal

/-- `START(pc0)` (R641). -/
def State.start (s : State) (index : Word) : State :=
  { s with pc := index, status := { running := true, done := false, fault := false, cause := .none } }

/-- A host read whose computation ended as `r`: the state is unchanged, and host accesses raise no fault of the unit (R640). -/
def portRead (s : State) (r : Comp PortReply) : PortOutcome :=
  match r with
  | .ok reply => .next (s, reply)
  | .error (.stuck f) => .fault f
  | .error (.trap _ _) => .refused .hostOutOfRange

/-- An action of a stopped unit (R640). -/
def State.portStopped (s : State) : PortAction → PortOutcome
  | .writeCm index word =>
    if index < s.params.cmSize then .next (s.writeCommand index word, .nothing) else .refused .hostOutOfRange
  | .readCm index =>
    if index < s.params.cmSize then
      match s.commandAt index with
      | some w => .next (s, .word w)
      | none => .fault (.unwrittenCommand index)
    else .refused .hostOutOfRange
  | .writeDm address bytes =>
    if address + bytes.length ≤ s.params.dmSize then .next (s.writeBytes address bytes, .nothing)
    else .refused .hostOutOfRange
  | .readDm address count =>
    if address + count ≤ s.params.dmSize then
      portRead s do
        let bs ← s.readBytes address count
        .ok (.bytes bs)
    else .refused .hostOutOfRange
  | .writeReg r value =>
    if value < 2 ^ s.params.regBits then .next (s.setReg r value, .nothing) else .refused .hostOutOfRange
  | .readReg r => .next (s, .value (s.x r))
  | .writeCsr number value =>
    if value < 2 ^ s.params.regBits then
      match csrOfNumber number with
      | none => .refused .hostOutOfRange
      | some c =>
        match s.writeCsr value c with
        | some t => .next (t, .nothing)
        | none => .refused .hostReadOnly
    else .refused .hostOutOfRange
  | .readCsr number =>
    match csrOfNumber number with
    | none => .refused .hostOutOfRange
    | some c => .next (s, .value (s.readCsr c))
  | .readPc => .next (s, .pc s.pc)
  | .start index => .next (s.start index, .nothing)
  | .reset => .next (State.resetWith s.params, .nothing)
  | .observeDone => .next (s, .done s.doneLine)

/-- A host action. RESET and observing `done` are allowed at any time, every other action only while RUNNING = 0 (R640).
RESET leaves the state of 70_reset_and_hazards.md R700 with the parameters unchanged (R642, 00_scope.md R10; LOG 8). -/
def State.port (s : State) (a : PortAction) : PortOutcome :=
  match a with
  | .reset => .next (State.resetWith s.params, .nothing)
  | .observeDone => .next (s, .done s.doneLine)
  | a => if s.status.running then .refused .hostWhileRunning else s.portStopped a

end Sys2Proof.Machine
end

