-- ==== Sys2Proof/Safety.lean ====
section
/-! DEFINITION. The terms claims are made in: operand roles, legal states, frames, events, launch premises, the end of a run, and the
states the block can reach. -/

namespace Sys2Proof.Safety

open Sys2Proof.Machine

/-! ## Operand roles (30_encoding.md R160) -/

/-- The registers a command reads (R160). -/
def sources : Instr → List Reg
  | .wmul64 _ ra rb rc => [ra, rb, rc]
  | .wmul32 _ ra rb rc => [ra, rb, rc]
  | .leq _ ra rb => [ra, rb]
  | .lshr _ ra rb => [ra, rb]
  | .lshri _ ra _ => [ra]
  | .ld _ ra _ => [ra]
  | .st rs ra _ => [rs, ra]
  | .ldi _ _ => []
  | .nlt _ ra rb => [ra, rb]
  | .nbit _ ra rb => [ra, rb]
  | .invw _ ra => [ra]
  | .fcfg ra _ => [ra]
  | .fadd _ ra rb => [ra, rb]
  | .fsub _ ra rb => [ra, rb]
  | .fmul _ ra rb => [ra, rb]
  | .mulw _ ra rb _ => [ra, rb]
  | .fred _ ra rb => [ra, rb]
  | .ftom _ ra => [ra]
  | .ffromm _ ra => [ra]
  | .feq _ ra rb => [ra, rb]
  | .fld _ ra _ => [ra]
  | .fst rs ra _ => [rs, ra]
  | .clmul _ ra rb _ => [ra, rb]
  | .gadd _ ra rb => [ra, rb]
  | .gmul _ ra rb => [ra, rb]
  | .evalm _ ra rb => [ra, rb]
  | .nofl rd ra => [rd, ra]
  | .evaln _ ra rb => [ra, rb]
  | .monofn rd ra => [rd, ra]
  | .monofl rd ra => [rd, ra]
  | .fft ra rb _ => [ra, rb]
  | .ifft ra rb _ => [ra, rb]
  | .bfft ra rb _ => [ra, rb]
  | .halt => []
  | .bnz ra _ => [ra]
  | .csrr _ _ => []
  | .csrw ra _ => [ra]

/-- The registers a command may write (R160); `FLD` writes its `rd` only if the value is valid. -/
def dests : Instr → List Reg
  | .wmul64 rd _ _ _ => [rd]
  | .wmul32 rd _ _ _ => [rd]
  | .leq rd _ _ => [rd]
  | .lshr rd _ _ => [rd]
  | .lshri rd _ _ => [rd]
  | .ld rd _ _ => [rd]
  | .st _ _ _ => []
  | .ldi rd _ => [rd]
  | .nlt rd _ _ => [rd]
  | .nbit rd _ _ => [rd]
  | .invw rd _ => [rd]
  | .fcfg _ _ => []
  | .fadd rd _ _ => [rd]
  | .fsub rd _ _ => [rd]
  | .fmul rd _ _ => [rd]
  | .mulw rd _ _ rc => [rd, rc]
  | .fred rd _ _ => [rd]
  | .ftom rd _ => [rd]
  | .ffromm rd _ => [rd]
  | .feq rd _ _ => [rd]
  | .fld rd _ _ => [rd]
  | .fst _ _ _ => []
  | .clmul rd _ _ rc => [rd, rc]
  | .gadd rd _ _ => [rd]
  | .gmul rd _ _ => [rd]
  | .evalm rd _ _ => [rd]
  | .nofl _ _ => []
  | .evaln rd _ _ => [rd]
  | .monofn _ _ => []
  | .monofl _ _ => []
  | .fft _ _ _ => []
  | .ifft _ _ _ => []
  | .bfft _ _ _ => []
  | .halt => []
  | .bnz _ _ => []
  | .csrr rd _ => [rd]
  | .csrw _ _ => []

/-- The command writes data memory (R160). -/
def writesMemory : Instr → Bool
  | .wmul64 _ _ _ _ => false
  | .wmul32 _ _ _ _ => false
  | .leq _ _ _ => false
  | .lshr _ _ _ => false
  | .lshri _ _ _ => false
  | .ld _ _ _ => false
  | .st _ _ _ => true
  | .ldi _ _ => false
  | .nlt _ _ _ => false
  | .nbit _ _ _ => false
  | .invw _ _ => false
  | .fcfg _ _ => false
  | .fadd _ _ _ => false
  | .fsub _ _ _ => false
  | .fmul _ _ _ => false
  | .mulw _ _ _ _ => false
  | .fred _ _ _ => false
  | .ftom _ _ => false
  | .ffromm _ _ => false
  | .feq _ _ _ => false
  | .fld _ _ _ => false
  | .fst _ _ _ => true
  | .clmul _ _ _ _ => false
  | .gadd _ _ _ => false
  | .gmul _ _ _ => false
  | .evalm _ _ _ => false
  | .nofl _ _ => true
  | .evaln _ _ _ => false
  | .monofn _ _ => true
  | .monofl _ _ => true
  | .fft _ _ _ => true
  | .ifft _ _ _ => true
  | .bfft _ _ _ => true
  | .halt => false
  | .bnz _ _ => false
  | .csrr _ _ => false
  | .csrw _ _ => false

/-- The run of data memory a command may write: its address and its length in bytes (R160; 42_limb.md R254, 46_interpolation.md
R452, 47_additive_fft.md R501); no byte for a command that writes no memory. -/
def storedRun : Instr → State → Nat × Nat
  | .wmul64 _ _ _ _, _ => (0, 0)
  | .wmul32 _ _ _ _, _ => (0, 0)
  | .leq _ _ _, _ => (0, 0)
  | .lshr _ _ _, _ => (0, 0)
  | .lshri _ _ _, _ => (0, 0)
  | .ld _ _ _, _ => (0, 0)
  | .st _ ra offset, s => (s.effectiveAddress ra offset, s.params.elemBytes)
  | .ldi _ _, _ => (0, 0)
  | .nlt _ _ _, _ => (0, 0)
  | .nbit _ _ _, _ => (0, 0)
  | .invw _ _, _ => (0, 0)
  | .fcfg _ _, _ => (0, 0)
  | .fadd _ _ _, _ => (0, 0)
  | .fsub _ _ _, _ => (0, 0)
  | .fmul _ _ _, _ => (0, 0)
  | .mulw _ _ _ _, _ => (0, 0)
  | .fred _ _ _, _ => (0, 0)
  | .ftom _ _, _ => (0, 0)
  | .ffromm _ _, _ => (0, 0)
  | .feq _ _ _, _ => (0, 0)
  | .fld _ _ _, _ => (0, 0)
  | .fst _ ra offset, s => (s.effectiveAddress ra offset, s.params.elemBytes)
  | .clmul _ _ _ _, _ => (0, 0)
  | .gadd _ _ _, _ => (0, 0)
  | .gmul _ _ _, _ => (0, 0)
  | .evalm _ _ _, _ => (0, 0)
  | .nofl rd _, s => (s.x rd, s.arrayBytes)
  | .evaln _ _ _, _ => (0, 0)
  | .monofn rd _, s => (s.x rd, s.arrayBytes)
  | .monofl rd _, s => (s.x rd, s.arrayBytes)
  | .fft ra _ l, s => (s.x ra, 2 ^ l * s.params.elemBytes)
  | .ifft ra _ l, s => (s.x ra, 2 ^ l * s.params.elemBytes)
  | .bfft ra _ l, s => (s.x ra, 2 ^ l * s.params.elemBytes)
  | .halt, _ => (0, 0)
  | .bnz _ _, _ => (0, 0)
  | .csrr _ _, _ => (0, 0)
  | .csrw _ _, _ => (0, 0)

/-- The CSRs a command may write (R160, column "other writes"); a fault entry writes STATUS and FAULT_PC besides. -/
def csrWrites : Instr → List Csr
  | .wmul64 _ _ _ _ => []
  | .wmul32 _ _ _ _ => []
  | .leq _ _ _ => []
  | .lshr _ _ _ => []
  | .lshri _ _ _ => []
  | .ld _ _ _ => []
  | .st _ _ _ => []
  | .ldi _ _ => []
  | .nlt _ _ _ => []
  | .nbit _ _ _ => []
  | .invw _ _ => []
  | .fcfg _ _ => [.p, .minv, .fctl]
  | .fadd _ _ _ => []
  | .fsub _ _ _ => []
  | .fmul _ _ _ => []
  | .mulw _ _ _ _ => []
  | .fred _ _ _ => []
  | .ftom _ _ => []
  | .ffromm _ _ => []
  | .feq _ _ _ => []
  | .fld _ _ _ => [.flags]
  | .fst _ _ _ => []
  | .clmul _ _ _ _ => []
  | .gadd _ _ _ => []
  | .gmul _ _ _ => []
  | .evalm _ _ _ => []
  | .nofl _ _ => []
  | .evaln _ _ _ => []
  | .monofn _ _ => []
  | .monofl _ _ => []
  | .fft _ _ _ => []
  | .ifft _ _ _ => []
  | .bfft _ _ _ => []
  | .halt => [.status]
  | .bnz _ _ => []
  | .csrr _ _ => []
  | .csrw _ csr => (csrOfNumber csr).toList

/-- The causes a command itself can raise (60_exceptions.md R600, column "raised by"; fetch and decode raise theirs before the
command). -/
def causes : Instr → List Cause
  | .wmul64 _ _ _ _ => []
  | .wmul32 _ _ _ _ => []
  | .leq _ _ _ => []
  | .lshr _ _ _ => []
  | .lshri _ _ _ => []
  | .ld _ _ _ => [.addr]
  | .st _ _ _ => [.addr]
  | .ldi _ _ => []
  | .nlt _ _ _ => []
  | .nbit _ _ _ => [.domain]
  | .invw _ _ => [.even]
  | .fcfg _ _ => [.config]
  | .fadd _ _ _ => [.config, .domain]
  | .fsub _ _ _ => [.config, .domain]
  | .fmul _ _ _ => [.config, .domain]
  | .mulw _ _ _ _ => []
  | .fred _ _ _ => [.config]
  | .ftom _ _ => [.config]
  | .ffromm _ _ => [.config, .domain]
  | .feq _ _ _ => [.config, .domain]
  | .fld _ _ _ => [.config, .addr]
  | .fst _ _ _ => [.config, .addr, .domain]
  | .clmul _ _ _ _ => [.domain]
  | .gadd _ _ _ => [.domain]
  | .gmul _ _ _ => [.domain]
  | .evalm _ _ _ => [.config, .addr, .domain]
  | .nofl _ _ => [.config, .addr, .domain, .divzero]
  | .evaln _ _ _ => [.config, .addr, .domain]
  | .monofn _ _ => [.config, .addr, .domain]
  | .monofl _ _ => [.config, .addr, .domain, .divzero]
  | .fft _ _ _ => [.config, .domain, .addr]
  | .ifft _ _ _ => [.config, .domain, .addr, .singular]
  | .bfft _ _ _ => [.config, .domain, .addr, .singular]
  | .halt => []
  | .bnz _ _ => []
  | .csrr _ _ => [.illegal]
  | .csrw _ _ => [.illegal]

/-- Every register the command reads has been written since reset, by a command or the host: the premise under which no value of
a register depends on LOG 3 (10_state.md R53, U1). -/
def readsWritten (i : Instr) (s : State) : Bool := (sources i).all fun r => s.written[r.val]

/-! ## Legal states -/

/-- What holds of every state the block can be in. -/
structure Legal (s : State) : Prop where
  /-- The parameters are within their bounds (00_scope.md R9). -/
  params : s.params.legal
  /-- Every register value is below `2^RW` (10_state.md R52, 43_natural.md R300). -/
  regs : ∀ r, s.x r < 2 ^ s.params.regBits
  /-- P is below `2^RW` (10_state.md R64). -/
  p : s.p < 2 ^ s.params.regBits
  /-- MINV is one limb (10_state.md R65). -/
  minv : s.minv < 2 ^ 64
  /-- BBASE, BLEN, NNODE, XBASE are `RW` bits wide (10_state.md R58). -/
  bases : s.bbase < 2 ^ s.params.regBits ∧ s.blen < 2 ^ s.params.regBits ∧ s.nnode < 2 ^ s.params.regBits ∧
    s.xbase < 2 ^ s.params.regBits
  /-- RUNNING = 1 implies DONE = 0 (10_state.md R60). -/
  running : s.status.running = true → s.status.done = false
  /-- FAULT = 1 implies DONE = 1 (10_state.md R60). -/
  fault : s.status.fault = true → s.status.done = true
  /-- CAUSE is 0 when FAULT = 0 (10_state.md R60). -/
  noCause : s.status.fault = false → s.status.cause = .none
  /-- CAUSE is a cause some rule raises when FAULT = 1 (60_exceptions.md R600, R609). -/
  cause : s.status.fault = true → s.status.cause ≠ .none ∧ s.status.cause ≠ .internal
  /-- After a fault, `pc` equals FAULT_PC (60_exceptions.md R610). -/
  faultPc : s.status.fault = true → s.faultPc = s.pc
  /-- A configured modulus is odd and at least 3, and MINV is its inverse modulo `2^64` (10_state.md R64, R65). -/
  field : s.fvalid = true → s.p % 2 = 1 ∧ 3 ≤ s.p ∧ s.p * s.minv % 2 ^ 64 = 1
  /-- Before a configuration, P, MINV and BE hold their reset values (10_state.md R73). -/
  noField : s.fvalid = false → s.p = 0 ∧ s.minv = 0 ∧ s.be = false
  /-- The data memory has its canonical form and lies in the address space (20_memory.md R100). -/
  dm : Memory.wf s.dm ∧ Memory.within s.params.dmSize s.dm
  /-- The command memory has its canonical form and lies in the address space (20_memory.md R101). -/
  cm : Memory.wf s.cm ∧ Memory.within s.params.cmSize s.cm

/-! ## Frames -/

/-- From `s` to `t`, nothing changed but `pc` and, among the registers, those of `ds`: no CSR, no flag, no STATUS field, no
parameter, no command word, and no byte of data memory. -/
def OnlyRegisters (s t : State) (ds : List Reg) : Prop :=
  t = { s with regs := t.regs, written := t.written, pc := t.pc } ∧
    (∀ r, r ∉ ds → t.x r = s.x r ∧ t.written[r.val] = s.written[r.val]) ∧ ∀ a, t.byteAt a = s.byteAt a

/-- From `s` to `t`, nothing changed but `pc` and, of data memory, the `n` bytes at `a`: no register, no CSR, no flag, no
STATUS field, no parameter, no command word. -/
def OnlyMemory (s t : State) (a n : Nat) : Prop :=
  t = { s with dm := t.dm, pc := t.pc } ∧ ∀ b, b < a ∨ a + n ≤ b → t.byteAt b = s.byteAt b

/-- `t` is `s` after a fault with cause `c`: STATUS is RUNNING 0, DONE 1, FAULT 1, CAUSE `c`, FAULT_PC is the `pc` of `s`, and
nothing else changed (60_exceptions.md R610, R611). -/
def FaultedWith (s t : State) (c : Cause) : Prop :=
  t = { s with status := ⟨false, true, true, c⟩, faultPc := s.pc }

/-- From `s` to `t`: the register `rd` holds `v`, `pc` is one further (10_state.md R55), nothing else changed. -/
def RegisterResult (s t : State) (rd : Reg) (v : Nat) : Prop :=
  t.x rd = v ∧ t.pc = s.pc + 1 ∧ OnlyRegisters s t [rd]

/-- The outcome is the fault entry over `s` with cause `c`, and nothing else (60_exceptions.md R610, R611). -/
def Raises (s : State) (o : Host.Outcome State Fault Refusal) (c : Cause) : Prop :=
  ∃ t, o = .next t ∧ FaultedWith s t c

/-! ## What memory holds, and when the prime field is ready -/

/-- The `n` bytes at `a` hold the number `v`, in the byte order `be` (20_memory.md R103, R104): big-endian when true. -/
abbrev HoldsAt (s : State) (be : Bool) (a n v : Nat) : Prop :=
  ∀ k, k < n → s.byteAt (a + k) = some (BitVec.ofNat 8 (v / 2 ^ (8 * (if be then n - 1 - k else k))))

/-- A prime field is configured, as every legal state with FVALID = 1 has it (10_state.md R64). -/
abbrev FieldReady (s : State) : Prop :=
  s.fvalid = true ∧ s.p % 2 = 1 ∧ 3 ≤ s.p ∧ s.p < 2 ^ s.params.regBits

/-! ## Interpolation, as the rules define it -/

/-- `f[X_i, ..., X_{i+k}]` by its recursive definition (46_interpolation.md R454), for nodes and values given as lists; 0 stands
for a node or value past the end. -/
def dividedDifference (f : FieldOps) (nodes vs : List Nat) : Nat → Nat → Comp Nat
  | i, 0 => .ok (vs.getD i 0)
  | i, k + 1 => do
    let hi ← dividedDifference f nodes vs (i + 1) k
    let lo ← dividedDifference f nodes vs i k
    f.div (f.sub hi lo) (f.sub (nodes.getD (i + k + 1) 0) (nodes.getD i 0))

/-- `point(l, c, i)` as the rule writes it: `c` xor every `beta_k` with bit `k` of `i` set (47_additive_fft.md R502). -/
def pointOf (basis : List Nat) (c i : Nat) : Nat :=
  (List.range basis.length).foldl (fun acc k => if i.testBit k then acc ^^^ basis.getD k 0 else acc) c

/-- `x^j` in GF(2^128), with `x^0 = 1` (47_additive_fft.md R510). -/
def gfPower (poly x : Nat) : Nat → Nat
  | 0 => 1
  | j + 1 => GF.mul poly (gfPower poly x j) x

/-- The sum over `j` of `GF.mul(A[j], x^j)` (47_additive_fft.md R510, 46_interpolation.md R455). -/
def gfEvaluate (poly x : Nat) (as : List Nat) : Nat :=
  (List.range as.length).foldl (fun acc j => GF.add acc (GF.mul poly (as.getD j 0) (gfPower poly x j))) 0

/-- The product over `j < k` of `x - X[j]` in GF(2^128) (46_interpolation.md R455). -/
def gfNodeProduct (poly x : Nat) (nodes : List Nat) : Nat → Nat
  | 0 => 1
  | k + 1 => GF.mul poly (gfNodeProduct poly x nodes k) (GF.add x (nodes.getD k 0))

/-- The value at `x` of the Newton form with coefficients `cs` in GF(2^128) (46_interpolation.md R455). -/
def gfNewtonEvaluate (poly x : Nat) (nodes cs : List Nat) : Nat :=
  (List.range cs.length).foldl (fun acc k => GF.add acc (GF.mul poly (cs.getD k 0) (gfNodeProduct poly x nodes k))) 0

/-- The bound every element of the selected field is below: `2^128` or `csr[P]` (44_prime_field.md R357, 45_binary_field.md
R406). -/
def elementBound (s : State) : Nat := if s.fmode then 2 ^ 128 else s.p

/-- The selected field is there: GF(2^128), or a configured prime field (46_interpolation.md R451). -/
abbrev FieldSelected (s : State) : Prop := s.fmode = true ∨ FieldReady s

/-- The array of `n` elements at `a` lies in DM, is written, and holds the elements `es`, all below `bound`. -/
abbrev ArrayAt (s : State) (a n bound : Nat) (es : List Nat) : Prop :=
  a + n * s.params.elemBytes ≤ s.params.dmSize ∧ s.readArray a n = .ok es ∧ ∀ e ∈ es, e < bound

/-- Every check of `FftCheck(l, x[ra])` passes, with this basis and this data (47_additive_fft.md R501). -/
abbrev TransformReady (s : State) (l a : Nat) (basis data : List Nat) : Prop :=
  s.fmode = true ∧ l ≤ s.blen ∧ ArrayAt s s.bbase l (2 ^ 128) basis ∧ ArrayAt s a (2 ^ l) (2 ^ 128) data

/-- From `s` to `t`: the array of `n` elements at `a` holds `ys`, `pc` is one further (10_state.md R55), nothing else
changed. -/
def ArrayResult (s t : State) (a n : Nat) (ys : List Nat) : Prop :=
  t.readArray a n = .ok ys ∧ t.pc = s.pc + 1 ∧ OnlyMemory s t a (n * s.params.elemBytes)

/-! ## What has happened to a unit -/

/-- A step of the sequencer, or an action of the host that is not refused. -/
inductive Event where
  | step
  | host (action : PortAction)
  deriving DecidableEq, Repr

/-- A unit built with the parameters `c` is in this state after these events, the newest first (10_state.md R50,
60_exceptions.md R640). -/
inductive Reaches (c : Params) : List Event → State → Prop where
  | reset : Reaches c [] (State.resetWith c)
  | step {h : List Event} {s t : State} : Reaches c h s → step s = .next t → Reaches c (.step :: h) t
  | host {h : List Event} {s t : State} {a : PortAction} {r : PortReply} :
    Reaches c h s → s.port a = .next (t, r) → Reaches c (.host a :: h) t

/-- Since the newest RESET among these events the host has written this register. -/
def hostWroteReg : List Event → Reg → Bool
  | [], _ => false
  | .host .reset :: _, _ => false
  | .host (.writeReg q _) :: h, r => q = r || hostWroteReg h r
  | _ :: h, r => hostWroteReg h r

/-- Since the newest RESET among these events the host has written this byte of data memory. -/
def hostWroteByte : List Event → Nat → Bool
  | [], _ => false
  | .host .reset :: _, _ => false
  | .host (.writeDm a bs) :: h, b => (a ≤ b && b < a + bs.length) || hostWroteByte h b
  | _ :: h, b => hostWroteByte h b

/-! ## Launch premises and the end of a run -/

/-- `clean_start`: STATUS = 0x1 (70_reset_and_hazards.md R711). -/
def cleanStart (s : State) : Prop := s.status.value = 1

/-- `program_loaded(pc0, prog)` (70_reset_and_hazards.md R711). -/
def programLoaded (s : State) (pc0 : Nat) (prog : List Word) : Prop :=
  ∀ k (h : k < prog.length), s.commandAt (pc0 + k) = some prog[k]

/-- `inputs_written(S)`, for a set of registers and of byte addresses, of the events `h` before START: the host itself has written
each of them, whatever commands of earlier runs have written (70_reset_and_hazards.md R711). -/
def inputsWritten (h : List Event) (rs : List Reg) (addresses : List Nat) : Prop :=
  (∀ r ∈ rs, hostWroteReg h r = true) ∧ ∀ a ∈ addresses, hostWroteByte h a = true

/-- `field_configured(p, be)` (70_reset_and_hazards.md R711). -/
def fieldConfigured (s : State) (p : Nat) (be : Bool) : Prop := s.fvalid = true ∧ s.p = p ∧ s.be = be

/-- A run that ended normally (60_exceptions.md R643). -/
def endedNormally (s : State) : Prop := s.status.done = true ∧ s.status.fault = false

/-- A run that ended faulted (60_exceptions.md R643). -/
def endedFaulted (s : State) : Prop := s.status.done = true ∧ s.status.fault = true

/-! ## Reachable states -/

/-- The states a unit built with the parameters `c` can be in: after reset, after a step of the sequencer, after a host action
that is not refused (10_state.md R50, 60_exceptions.md R640). -/
inductive Reachable (c : Params) : State → Prop where
  | reset : Reachable c (State.resetWith c)
  | step {s t : State} : Reachable c s → step s = .next t → Reachable c t
  | port {s t : State} {a : PortAction} {r : PortReply} : Reachable c s → s.port a = .next (t, r) → Reachable c t

/-! ## Premises about GF(2^128) -/

/-- `a` has an inverse in the binary field of the polynomial `poly`: what the irreducibility of GF_POLY gives of every nonzero
element (45_binary_field.md R405; LOG 11). -/
def GfInvertible (poly a : Nat) : Prop := ∃ d, d < 2 ^ 128 ∧ GF.mul poly a d = 1

end Sys2Proof.Safety
end

