-- ==== Sys2Proof/Certificates/Slice0/Obligations.lean ====
section
/-! DEFINITION. The statements for the provers, one `Prop` each, from the numbered rules of spec/. -/

open Sys2Proof Sys2Proof.Machine Sys2Proof.Safety

namespace Sys2Proof.Claims

/-- The canonical element of an internal value, in the integers modulo `p` (44_prime_field.md R354). -/
noncomputable def canonical (s : State) (a : Nat) : ZMod s.p := (PF.dec s.p s.params.regBits a : ZMod s.p)

/-- The polynomial with the monomial coefficients `ms`, over the canonical elements (46_interpolation.md R455). -/
noncomputable def monomialForm (s : State) (ms : List Nat) : Polynomial (ZMod s.p) :=
  ∑ k ∈ Finset.range ms.length, Polynomial.C (canonical s (ms.getD k 0)) * Polynomial.X ^ k

/-- The polynomial with the Newton coefficients `cs` at the nodes, over the canonical elements (46_interpolation.md R455). -/
noncomputable def newtonForm (s : State) (nodes cs : List Nat) : Polynomial (ZMod s.p) :=
  ∑ k ∈ Finset.range cs.length, Polynomial.C (canonical s (cs.getD k 0)) *
    ∏ j ∈ Finset.range k, (Polynomial.X - Polynomial.C (canonical s (nodes.getD j 0)))

/-- Bit `n` of the carry-less product: the exclusive or of `a[n-i] AND b[i]` over `i <= n` (45_binary_field.md R401). -/
def carrylessBit (a b n : Nat) : Bool :=
  ((List.range (n + 1)).countP fun i => b.testBit i && a.testBit (n - i)) % 2 == 1

/-- The distinct-node check's condition (46_interpolation.md R453): every difference of two nodes has an inverse in the selected
field. In the prime field: its canonical element is a unit modulo `p`, prime or not. In GF(2^128): the nodes differ, since every
nonzero element of the field has an inverse (45_binary_field.md R405; LOG 11). -/
def NodesDiffer (s : State) (nodes : List Nat) : Prop :=
  ∀ i j, j < i → i < nodes.length →
    (s.fmode = false → IsUnit (canonical s (nodes.getD i 0) - canonical s (nodes.getD j 0))) ∧
    (s.fmode = true → nodes.getD i 0 ≠ nodes.getD j 0)

/-- What a stopped unit's host writes (60_exceptions.md R640): the location then holds it, and nothing else changes. -/
def HostWrites (s : State) : Prop :=
  (∀ i w, i < s.params.cmSize → ∃ t, s.port (.writeCm i w) = .next (t, .nothing) ∧ t.commandAt i = some w ∧
    (∀ j, j ≠ i → t.commandAt j = s.commandAt j) ∧ t = { s with cm := t.cm }) ∧
  (∀ a bs, a + bs.length ≤ s.params.dmSize → ∃ t, s.port (.writeDm a bs) = .next (t, .nothing) ∧
    (∀ k, (h : k < bs.length) → t.byteAt (a + k) = some bs[k]) ∧
    (∀ b, b < a ∨ a + bs.length ≤ b → t.byteAt b = s.byteAt b) ∧ t = { s with dm := t.dm }) ∧
  (∀ r v, v < 2 ^ s.params.regBits → ∃ t, s.port (.writeReg r v) = .next (t, .nothing) ∧ t.x r = v ∧
    (∀ q, q ≠ r → t.x q = s.x q) ∧ t = { s with regs := t.regs, written := t.written }) ∧
  ∀ v, v < 2 ^ s.params.regBits →
    s.port (.writeCsr 2 v) = .next ({ s with v := v.testBit 0 }, .nothing) ∧
    s.port (.writeCsr 3 v) = .next ({ s with fmode := v.testBit 0 }, .nothing) ∧
    s.port (.writeCsr 6 v) = .next ({ s with bbase := v }, .nothing) ∧
    s.port (.writeCsr 7 v) = .next ({ s with blen := v }, .nothing) ∧
    s.port (.writeCsr 8 v) = .next ({ s with nnode := v }, .nothing) ∧
    s.port (.writeCsr 9 v) = .next ({ s with xbase := v }, .nothing)

/-- What a stopped unit's host reads (60_exceptions.md R640), with the state unchanged; a location nothing has written stops the
model (LOG 5). -/
def HostReads (s : State) : Prop :=
  (∀ r, s.port (.readReg r) = .next (s, .value (s.x r))) ∧ s.port .readPc = .next (s, .pc s.pc) ∧
  (∀ i, i < s.params.cmSize → (∀ w, s.commandAt i = some w → s.port (.readCm i) = .next (s, .word w)) ∧
    (s.commandAt i = none → s.port (.readCm i) = .fault (.unwrittenCommand i))) ∧
  (∀ a n, a + n ≤ s.params.dmSize →
    (∀ bs : List Byte, bs.length = n → (∀ k, (h : k < bs.length) → s.byteAt (a + k) = some bs[k]) →
      s.port (.readDm a n) = .next (s, .bytes bs)) ∧
    ((∃ k, k < n ∧ s.byteAt (a + k) = none) → ∃ b, s.port (.readDm a n) = .fault (.unwrittenData b))) ∧
  s.port (.readCsr 0) = .next (s, .value (ofBool s.status.running + 2 * ofBool s.status.done + 4 * ofBool s.status.fault +
    256 * s.status.cause.code)) ∧
  s.port (.readCsr 1) = .next (s, .value s.faultPc.toNat) ∧ s.port (.readCsr 2) = .next (s, .value (ofBool s.v)) ∧
  s.port (.readCsr 3) = .next (s, .value (ofBool s.fmode + 2 * ofBool s.be + 4 * ofBool s.fvalid)) ∧
  s.port (.readCsr 4) = .next (s, .value s.p) ∧ s.port (.readCsr 5) = .next (s, .value s.minv) ∧
  s.port (.readCsr 6) = .next (s, .value s.bbase) ∧ s.port (.readCsr 7) = .next (s, .value s.blen) ∧
  s.port (.readCsr 8) = .next (s, .value s.nnode) ∧ s.port (.readCsr 9) = .next (s, .value s.xbase)

/-- What a stopped unit's host may not do (60_exceptions.md R640): an access outside CM or DM, a CSR number that does not exist,
a value wider than a register, a write of a read-only CSR. The model refuses it (93_implementation_defined.md U3). -/
def HostRefusals (s : State) : Prop :=
  (∀ i w, s.params.cmSize ≤ i → s.port (.writeCm i w) = .refused .hostOutOfRange ∧
    s.port (.readCm i) = .refused .hostOutOfRange) ∧
  (∀ a bs, s.params.dmSize < a + bs.length → s.port (.writeDm a bs) = .refused .hostOutOfRange) ∧
  (∀ a n, s.params.dmSize < a + n → s.port (.readDm a n) = .refused .hostOutOfRange) ∧
  (∀ r v, 2 ^ s.params.regBits ≤ v → s.port (.writeReg r v) = .refused .hostOutOfRange) ∧
  (∀ n v, 2 ^ s.params.regBits ≤ v ∨ 9 < n → s.port (.writeCsr n v) = .refused .hostOutOfRange) ∧
  (∀ n, 9 < n → s.port (.readCsr n) = .refused .hostOutOfRange) ∧
  ∀ n v, v < 2 ^ s.params.regBits → n ∈ [0, 1, 4, 5] → s.port (.writeCsr n v) = .refused .hostReadOnly

end Sys2Proof.Claims

open Sys2Proof.Claims

/-! ## Encoding -/

/-- Decoding an encoded command gives it back, for every command and every operand the encoding holds (30_encoding.md R151 to
R157). -/
def Obligations.DecodeInvertsEncode : Prop :=
  ∀ i : Instr, i.wf = true → decode (encode i) = some i

/-- A word that decodes is the encoding of its command, every bit of it, and its immediates are in range (30_encoding.md R156,
R157). -/
def Obligations.EncodeInvertsDecode : Prop :=
  ∀ (w : Word) (i : Instr), decode w = some i → i.wf = true ∧ encode i = w

/-- The decoder reads the command of the row whose mask and match a word meets, and none where no row matches (30_encoding.md
R156, R157). -/
def Obligations.DecodeAgreesWithOpcodeMap : Prop :=
  ∀ w : Word,
    (∀ r ∈ opcodeMap, r.matchesWord w = true → (decode w).map Instr.mnemonic = some r.mnemonic) ∧
    ((∀ r ∈ opcodeMap, r.matchesWord w = false) → decode w = none)

/-- No word matches two rows of the opcode map (30_encoding.md R156). -/
def Obligations.NoWordMatchesTwoRows : Prop :=
  ∀ (w : Word), ∀ r ∈ opcodeMap, ∀ q ∈ opcodeMap, r.matchesWord w = true → q.matchesWord w = true → r = q

/-- Words written out bit by bit from the patterns of 30_encoding.md R156, one of each family, decode to their commands; the
all-zero and the all-ones word decode to none (R158). -/
def Obligations.WrittenOutWordsDecode : Prop :=
  decode 0b00010000001100010010000000000000 = some (.wmul64 3 1 2 0) ∧
  decode 0b00101000001000010000000010000000 = some (.ld 2 1 128) ∧
  decode 0b00110010001000010000000000000000 = some (.invw 2 1) ∧
  decode 0b01000000000000010000000000000001 = some (.fcfg 1 true) ∧
  decode 0b01010000001100010010010000000000 = some (.clmul 3 1 2 4) ∧
  decode 0b01100001010000110000000000000000 = some (.nofl 4 3) ∧
  decode 0b01110000000000100011000000000010 = some (.fft 2 3 2) ∧
  decode 0b11110001000000011111111111111110 = some (.bnz 1 (-2)) ∧
  decode 0x00000000 = none ∧ decode 0xFFFFFFFF = none

/-! ## A step -/

/-- A running sequencer whose word at `pc` decodes performs exactly that command (10_state.md R50, 30_encoding.md R157). -/
def Obligations.StepRunsDecodedCommand : Prop :=
  ∀ (s : State) (w : Word) (i : Instr), s.status.running = true → s.pc.toNat < s.params.cmSize →
    s.commandAt s.pc.toNat = some w → decode w = some i → step s = exec i s

/-- The faults of fetch and decode (30_encoding.md R157, 60_exceptions.md R601, R603): `pc` past CM raises E_FETCH, a word that
is no command raises E_ILLEGAL, each with the fault record and no other effect. That the fetch of a word nothing has written
stops the model is the model's choice (10_state.md R70, 93_implementation_defined.md U2; LOG 5). -/
def Obligations.FetchAndDecodeFaults : Prop :=
  ∀ s : State, s.status.running = true →
    (s.params.cmSize ≤ s.pc.toNat → Raises s (step s) .fetch) ∧
    (s.pc.toNat < s.params.cmSize → ∀ w, s.commandAt s.pc.toNat = some w → decode w = none →
      Raises s (step s) .illegal) ∧
    (s.pc.toNat < s.params.cmSize → s.commandAt s.pc.toNat = none →
      step s = .fault (.unwrittenCommand s.pc.toNat))

/-- A stopped unit fetches nothing and keeps all state: the model's reading of 70_reset_and_hazards.md R701 and 60_exceptions.md
R635 as a step that changes nothing (LOG 6). -/
def Obligations.StoppedUnitKeepsState : Prop :=
  ∀ s : State, s.status.running = false → step s = .next s

/-! ## Reset and the host port -/

/-- What RESET leaves of everything whose reset value the spec gives (70_reset_and_hazards.md R700); no byte of DM and no word
of CM is written. What the general registers hold is the model's choice (LOG 3) and is not stated. -/
def Obligations.ResetLeavesTheSpecsValues : Prop :=
  ∀ c : Params, ∀ s : State, s = State.resetWith c →
    s.pc = 0 ∧ s.status.value = 0 ∧ s.doneLine = false ∧ s.faultPc = 0 ∧ s.flagsValue = 0 ∧ s.fctlValue = 0 ∧
    s.p = 0 ∧ s.minv = 0 ∧ s.bbase = 0 ∧ s.blen = 0 ∧ s.nnode = 0 ∧ s.xbase = 0 ∧
    (∀ a, s.byteAt a = none) ∧ (∀ a, s.commandAt a = none) ∧ s.params = c

/-- The state after reset is legal, for the reference parameters (with the sizes of LOG 2) and for all parameters within their
bounds. The general registers hold the model's 0 (LOG 3). -/
def Obligations.ResetIsLegal : Prop :=
  Legal State.reset ∧ ∀ c : Params, c.legal → Legal (State.resetWith c)

/-- Every step from a legal state leaves a legal state: registers and CSRs keep their widths, STATUS its legal values, the field
configuration its relation, both memories their canonical form (10_state.md R52, R58, R60, R64, R65). -/
def Obligations.StepKeepsLegal : Prop :=
  ∀ s t : State, Legal s → step s = .next t → Legal t

/-- Every host action from a legal state leaves a legal state (60_exceptions.md R640). -/
def Obligations.HostActionsKeepLegal : Prop :=
  ∀ (s t : State) (a : PortAction) (r : PortReply), Legal s → s.port a = .next (t, r) → Legal t

/-- Every state the block can be in, by steps and host actions in any order, is legal. -/
def Obligations.EveryReachableStateIsLegal : Prop :=
  ∀ (c : Params) (s : State), c.legal → Reachable c s → Legal s

/-- The host port (60_exceptions.md R640, R642). While RUNNING = 1 only RESET and observing `done` act, and every other action is
refused (93_implementation_defined.md U3). A stopped unit's host writes and reads what the table of R640 lists, and breaches of
its duties are refused (U3). RESET leaves the state after reset: that its registers hold 0 is the model's choice (LOG 3), and so
is that a RESET in the middle of a command leaves the same (LOG 8). The read of a location nothing has written stops the model
(LOG 5). -/
def Obligations.HostPortActions : Prop :=
  ∀ s : State,
    (∀ a, s.status.running = true → a ≠ .reset → a ≠ .observeDone → s.port a = .refused .hostWhileRunning) ∧
    s.port .reset = .next (State.resetWith s.params, .nothing) ∧
    s.port .observeDone = .next (s, .done s.status.done) ∧
    (s.status.running = false → HostWrites s ∧ HostReads s ∧ HostRefusals s)

/-- `START(pc0)` (60_exceptions.md R641): `pc` and STATUS are set, everything else keeps its value, and the next step fetches at
`pc0`. -/
def Obligations.StartBeginsARun : Prop :=
  ∀ (s : State) (pc0 : Word), s.status.running = false → ∃ t, s.port (.start pc0) = .next (t, .nothing) ∧
    t.pc = pc0 ∧ t.status = ⟨true, false, false, .none⟩ ∧ cleanStart t ∧
    t = { s with pc := t.pc, status := t.status } ∧
    ∀ w i, pc0.toNat < s.params.cmSize → s.commandAt pc0.toNat = some w → decode w = some i → step t = exec i t

/-! ## Rules of the whole machine -/

/-- The parameters are fixed at construction (00_scope.md R10): no step and no host action changes one; and no step writes
command memory (20_memory.md R101, R114). -/
def Obligations.ParametersAndCommandsNeverChange : Prop :=
  (∀ s t : State, step s = .next t → t.params = s.params ∧ t.cm = s.cm) ∧
  ∀ (s t : State) (a : PortAction) (r : PortReply), s.port a = .next (t, r) → t.params = s.params

/-- The field configuration changes only at FCFG, V only at FLD and CSRW, and FMODE and the four bases only at CSRW (10_state.md
R57, R63, R66 to R69, R73). -/
def Obligations.ConfigurationChangesOnlyWhereNamed : Prop :=
  ∀ (i : Instr) (s t : State), exec i s = .next t →
    ((∀ ra be, i ≠ .fcfg ra be) → t.p = s.p ∧ t.minv = s.minv ∧ t.be = s.be ∧ t.fvalid = s.fvalid) ∧
    ((∀ rd ra off, i ≠ .fld rd ra off) → (∀ ra csr, i ≠ .csrw ra csr) → t.v = s.v) ∧
    ((∀ ra csr, i ≠ .csrw ra csr) → t.fmode = s.fmode ∧ t.bbase = s.bbase ∧ t.blen = s.blen ∧ t.nnode = s.nnode ∧
      t.xbase = s.xbase)

/-- Fault entry (60_exceptions.md R610): a fetch, a decode or a command that faults writes STATUS and FAULT_PC, stops the
sequencer, and changes nothing else; in particular it has none of its own effects (R611). -/
def Obligations.FaultsArePrecise : Prop :=
  (∀ s t : State, s.status.running = true → s.status.fault = false → step s = .next t → t.status.fault = true →
    FaultedWith s t t.status.cause) ∧
  ∀ (i : Instr) (s t : State), s.status.fault = false → exec i s = .next t → t.status.fault = true →
    FaultedWith s t t.status.cause

/-- A command stops the model, and not the unit, only at a byte of data memory that nothing has written since reset (10_state.md
R70, 93_implementation_defined.md U2; LOG 5); a load that meets such a byte does. -/
def Obligations.OnlyUnwrittenDataStopsTheModel : Prop :=
  (∀ (i : Instr) (s : State) (f : Fault), exec i s = .fault f →
    ∃ a, f = .unwrittenData a ∧ a < s.params.dmSize ∧ s.byteAt a = none) ∧
  ∀ (rd ra : Reg) (off a : Nat) (s : State), s.x ra + off + s.params.elemBytes ≤ s.params.dmSize →
    s.x ra + off ≤ a → a < s.x ra + off + s.params.elemBytes → s.byteAt a = none →
    ∃ b, exec (.ld rd ra off) s = .fault (.unwrittenData b)

/-- Where `pc` goes (10_state.md R55): one further, modulo `2^32`, but for BNZ, which goes to its target when taken, and HALT,
which leaves it; a command that faults leaves it too; and an index past CM faults at fetch. -/
def Obligations.WherePcGoes : Prop :=
  (∀ (i : Instr) (s t : State), s.status.fault = false → exec i s = .next t →
    (t.status.fault = true → t.pc = s.pc) ∧
    (t.status.fault = false → i ≠ .halt → (∀ ra off, i ≠ .bnz ra off) → t.pc = s.pc + 1) ∧
    (i = .halt → t.pc = s.pc) ∧
    (∀ ra off, i = .bnz ra off →
      (s.x ra ≠ 0 → (t.pc.toNat : Int) = ((s.pc.toNat : Int) + off) % 2 ^ 32) ∧ (s.x ra = 0 → t.pc = s.pc + 1))) ∧
  ∀ s : State, s.status.running = true → s.params.cmSize ≤ s.pc.toNat → Raises s (step s) .fetch

/-- A command writes only the registers, the bytes of memory and the CSRs its operand roles name (30_encoding.md R160): of a
storing command the bytes outside the element or the array it addresses are unchanged, and a CSR it does not name is unchanged
unless the command faults, when the fault record is all that changes (60_exceptions.md R610). -/
def Obligations.EffectsStayWithinOperandRoles : Prop :=
  ∀ (i : Instr) (s t : State), exec i s = .next t →
    (∀ r, r ∉ dests i → t.x r = s.x r ∧ t.written[r.val] = s.written[r.val]) ∧
    (writesMemory i = false → ∀ a, t.byteAt a = s.byteAt a) ∧
    (∀ a n, storedRun i s = (a, n) → ∀ b, b < a ∨ a + n ≤ b → t.byteAt b = s.byteAt b) ∧
    ∀ c, c ∉ csrWrites i → t.readCsr c = s.readCsr c ∨ ∃ k, FaultedWith s t k

/-- A command never answers a refusal, and it raises only causes the table of 60_exceptions.md R600 gives it. -/
def Obligations.CommandsRaiseOnlyTheirCauses : Prop :=
  ∀ (i : Instr) (s : State), (∀ e, exec i s ≠ .refused e) ∧
    ∀ t, s.status.fault = false → exec i s = .next t → t.status.fault = true → t.status.cause ∈ causes i

/-- A command reads only the registers its operand roles name (30_encoding.md R160): another value in any other register changes
nothing of what it does but that register. -/
def Obligations.OtherRegistersDoNotMatter : Prop :=
  ∀ (i : Instr) (s t : State) (r : Reg) (v : Nat), r ∉ sources i → exec i s = .next t →
    ∃ u, exec i { s with regs := s.regs.set r.val v } = .next u ∧ u = { t with regs := u.regs } ∧
      (∀ q, q ≠ r → u.x q = t.x q) ∧ (u.x r = v ∨ u.x r = t.x r)

/-! ## Wide multiply, limb, natural -/

/-- WMUL64 and WMUL32 (41_wide_multiply.md R201, R202): the exact `a*b + c` of the low words, zero-extended; nothing else
changes; no fault, but that a word with a nonzero `imm8` is no command. -/
def Obligations.WideMultiplyIsExact : Prop :=
  ∀ rd ra rb rc : Reg,
    decode (encR 0x10 rd ra rb rc 0) = some (.wmul64 rd ra rb rc) ∧
    decode (encR 0x11 rd ra rb rc 0) = some (.wmul32 rd ra rb rc) ∧
    (∀ n, 0 < n → n < 256 → decode (encR 0x10 rd ra rb rc n) = none ∧ decode (encR 0x11 rd ra rb rc n) = none) ∧
    ∀ s : State, 2 ≤ s.params.limbs →
      (∃ t, exec (.wmul64 rd ra rb rc) s = .next t ∧
        RegisterResult s t rd ((s.x ra % 2 ^ 64) * (s.x rb % 2 ^ 64) + s.x rc % 2 ^ 64)) ∧
      (∃ t, exec (.wmul32 rd ra rb rc) s = .next t ∧
        RegisterResult s t rd ((s.x ra % 2 ^ 32) * (s.x rb % 2 ^ 32) + s.x rc % 2 ^ 32))

/-- LEQ and NLT (42_limb.md R251, 43_natural.md R301): 1 exactly when every limb is equal; 1 exactly when the first Natural is
less, whatever limb decides. -/
def Obligations.ComparisonsDecide : Prop :=
  ∀ rd ra rb : Reg,
    decode (encR 0x20 rd ra rb 0 0) = some (.leq rd ra rb) ∧ decode (encR 0x30 rd ra rb 0 0) = some (.nlt rd ra rb) ∧
    ∀ s : State, 2 ≤ s.params.limbs → s.x ra < 2 ^ s.params.regBits → s.x rb < 2 ^ s.params.regBits →
      (∃ t, exec (.leq rd ra rb) s = .next t ∧
        ((∀ k, k < s.params.limbs → limb k (s.x ra) = limb k (s.x rb)) → RegisterResult s t rd 1) ∧
        ((∃ k, k < s.params.limbs ∧ limb k (s.x ra) ≠ limb k (s.x rb)) → RegisterResult s t rd 0)) ∧
      (∃ t, exec (.nlt rd ra rb) s = .next t ∧ RegisterResult s t rd (if s.x ra < s.x rb then 1 else 0))

/-- LSHR and LSHRI (42_limb.md R252, R253): the logical right shift of the whole register, 0 for an amount of `RW` or more. -/
def Obligations.ShiftsAreLogical : Prop :=
  ∀ rd ra rb : Reg,
    decode (encR 0x21 rd ra rb 0 0) = some (.lshr rd ra rb) ∧
    (∀ n, n < 256 → decode (encR 0x22 rd ra 0 0 n) = some (.lshri rd ra n)) ∧
    ∀ s : State, s.x ra < 2 ^ s.params.regBits →
      (∃ t, exec (.lshr rd ra rb) s = .next t ∧
        RegisterResult s t rd (if s.params.regBits ≤ s.x rb then 0 else s.x ra / 2 ^ s.x rb)) ∧
      (∀ n, ∃ t, exec (.lshri rd ra n) s = .next t ∧
        RegisterResult s t rd (if s.params.regBits ≤ n then 0 else s.x ra / 2 ^ n))

/-- LD (42_limb.md R254, R255): E_ADDR when the `ES` bytes at `x[ra] + imm16` do not lie in DM; else the little-endian number
they hold. -/
def Obligations.LoadReadsALimb : Prop :=
  ∀ (rd ra : Reg) (off : Nat),
    (off < 2 ^ 16 → decode (encM 0x28 rd ra off) = some (.ld rd ra off)) ∧
    ∀ s : State,
      (s.params.dmSize < s.x ra + off + s.params.elemBytes → Raises s (exec (.ld rd ra off) s) .addr) ∧
      ∀ v, s.x ra + off + s.params.elemBytes ≤ s.params.dmSize → v < 2 ^ s.params.regBits →
        HoldsAt s false (s.x ra + off) s.params.elemBytes v →
        ∃ t, exec (.ld rd ra off) s = .next t ∧ RegisterResult s t rd v

/-- ST (42_limb.md R254, R256): E_ADDR as for LD, with no byte written; else the `ES` bytes at `x[ra] + imm16` hold the register,
little-endian, and no other byte changes. -/
def Obligations.StoreWritesALimb : Prop :=
  ∀ (rs ra : Reg) (off : Nat),
    (off < 2 ^ 16 → decode (encM 0x29 rs ra off) = some (.st rs ra off)) ∧
    ∀ s : State,
      (s.params.dmSize < s.x ra + off + s.params.elemBytes → Raises s (exec (.st rs ra off) s) .addr) ∧
      (s.x ra + off + s.params.elemBytes ≤ s.params.dmSize →
        ∃ t, exec (.st rs ra off) s = .next t ∧ HoldsAt t false (s.x ra + off) s.params.elemBytes (s.x rs) ∧
          t.pc = s.pc + 1 ∧ OnlyMemory s t (s.x ra + off) s.params.elemBytes)

/-- LDI (42_limb.md R257): the 16-bit constant, zero-extended; a word with a nonzero `ra` field is no command. -/
def Obligations.LoadImmediateZeroExtends : Prop :=
  ∀ (rd : Reg) (n : Nat), n < 2 ^ 16 →
    decode (encM 0x2A rd 0 n) = some (.ldi rd n) ∧ (∀ ra : Reg, ra ≠ 0 → decode (encM 0x2A rd ra n) = none) ∧
    ∀ s : State, 2 ≤ s.params.limbs → ∃ t, exec (.ldi rd n) s = .next t ∧ RegisterResult s t rd n

/-- NBIT (43_natural.md R302): E_DOMAIN for an index of `RW` or more; else the bit, as 0 or 1. -/
def Obligations.BitExtraction : Prop :=
  ∀ rd ra rb : Reg,
    decode (encR 0x31 rd ra rb 0 0) = some (.nbit rd ra rb) ∧
    ∀ s : State,
      (s.params.regBits ≤ s.x rb → Raises s (exec (.nbit rd ra rb) s) .domain) ∧
      (s.x rb < s.params.regBits → ∃ t, exec (.nbit rd ra rb) s = .next t ∧
        RegisterResult s t rd (if (s.x ra).testBit (s.x rb) then 1 else 0))

/-- INVW (43_natural.md R304): E_EVEN for an even limb 0; else the one `j` below `2^64` with `i*j mod 2^64 = 1`. -/
def Obligations.InverseModuloTheWord : Prop :=
  ∀ rd ra : Reg,
    decode (encR 0x32 rd ra 0 0 0) = some (.invw rd ra) ∧
    ∀ s : State,
      (limb 0 (s.x ra) % 2 = 0 → Raises s (exec (.invw rd ra) s) .even) ∧
      (2 ≤ s.params.limbs → limb 0 (s.x ra) % 2 = 1 → ∃ t j, exec (.invw rd ra) s = .next t ∧ j < 2 ^ 64 ∧
        limb 0 (s.x ra) * j % 2 ^ 64 = 1 ∧ RegisterResult s t rd j)

/-! ## Prime field -/

/-- FCFG (44_prime_field.md R360): E_CONFIG for a modulus that is even or below 3, the configuration kept; else P, MINV, BE and
FVALID are set and nothing else changes. -/
def Obligations.ConfigureTheField : Prop :=
  ∀ (ra : Reg) (be : Bool),
    decode (encR 0x40 0 ra 0 0 (if be then 1 else 0)) = some (.fcfg ra be) ∧
    ∀ s : State,
      (s.x ra % 2 = 0 ∨ s.x ra < 3 → Raises s (exec (.fcfg ra be) s) .config) ∧
      (s.x ra % 2 = 1 → 3 ≤ s.x ra → ∃ t, exec (.fcfg ra be) s = .next t ∧ t.p = s.x ra ∧ t.minv < 2 ^ 64 ∧
        limb 0 (s.x ra) * t.minv % 2 ^ 64 = 1 ∧ t.be = be ∧ t.fvalid = true ∧ t.pc = s.pc + 1 ∧
        t = { s with p := t.p, minv := t.minv, be := t.be, fvalid := t.fvalid, pc := t.pc })

/-- FADD and FSUB (44_prime_field.md R363, R364): E_CONFIG, then E_DOMAIN for `ra` and for `rb`; else `(a + b) mod p`, and the
`d` below `p` with `(d + b) mod p = a`. -/
def Obligations.FieldAdditionAndSubtraction : Prop :=
  ∀ rd ra rb : Reg,
    decode (encR 0x41 rd ra rb 0 0) = some (.fadd rd ra rb) ∧ decode (encR 0x42 rd ra rb 0 0) = some (.fsub rd ra rb) ∧
    ∀ s : State,
      (s.fvalid = false →
        Raises s (exec (.fadd rd ra rb) s) .config ∧ Raises s (exec (.fsub rd ra rb) s) .config) ∧
      (s.fvalid = true → s.p ≤ s.x ra ∨ s.p ≤ s.x rb →
        Raises s (exec (.fadd rd ra rb) s) .domain ∧ Raises s (exec (.fsub rd ra rb) s) .domain) ∧
      (FieldReady s → s.x ra < s.p → s.x rb < s.p →
        (∃ t, exec (.fadd rd ra rb) s = .next t ∧ RegisterResult s t rd ((s.x ra + s.x rb) % s.p)) ∧
        (∃ t d, exec (.fsub rd ra rb) s = .next t ∧ d < s.p ∧ (d + s.x rb) % s.p = s.x ra ∧ RegisterResult s t rd d))

/-- FMUL (44_prime_field.md R365): E_CONFIG, E_DOMAIN; else `a*b*R^{-1} mod p`: the `c` below `p` with
`c*R mod p = a*b mod p`. -/
def Obligations.MontgomeryMultiplication : Prop :=
  ∀ rd ra rb : Reg,
    decode (encR 0x43 rd ra rb 0 0) = some (.fmul rd ra rb) ∧
    ∀ s : State,
      (s.fvalid = false → Raises s (exec (.fmul rd ra rb) s) .config) ∧
      (s.fvalid = true → s.p ≤ s.x ra ∨ s.p ≤ s.x rb → Raises s (exec (.fmul rd ra rb) s) .domain) ∧
      (FieldReady s → s.x ra < s.p → s.x rb < s.p → ∃ t c, exec (.fmul rd ra rb) s = .next t ∧ c < s.p ∧
        c * 2 ^ s.params.regBits % s.p = s.x ra * s.x rb % s.p ∧ RegisterResult s t rd c)

/-- MULW (44_prime_field.md R361): the halves of the exact product, low to `rd`, then high to `rc`; the high half remains where
they are one register; no configuration is needed. -/
def Obligations.MultiLimbProduct : Prop :=
  ∀ rd ra rb rc : Reg,
    decode (encR 0x44 rd ra rb rc 0) = some (.mulw rd ra rb rc) ∧
    ∀ s : State, s.x ra < 2 ^ s.params.regBits → s.x rb < 2 ^ s.params.regBits →
      ∃ t, exec (.mulw rd ra rb rc) s = .next t ∧ t.x rc = s.x ra * s.x rb / 2 ^ s.params.regBits ∧
        (rd ≠ rc → t.x rd = s.x ra * s.x rb % 2 ^ s.params.regBits) ∧ t.pc = s.pc + 1 ∧ OnlyRegisters s t [rd, rc]

/-- FRED (44_prime_field.md R362): E_CONFIG without a field; else, for every `T = x[rb]*R + x[ra]`, the `c` below `p` with
`c*R mod p = T mod p`. -/
def Obligations.MontgomeryReduction : Prop :=
  ∀ rd ra rb : Reg,
    decode (encR 0x45 rd ra rb 0 0) = some (.fred rd ra rb) ∧
    ∀ s : State,
      (s.fvalid = false → Raises s (exec (.fred rd ra rb) s) .config) ∧
      (FieldReady s → ∃ t c, exec (.fred rd ra rb) s = .next t ∧ c < s.p ∧
        c * 2 ^ s.params.regBits % s.p = (s.x rb * 2 ^ s.params.regBits + s.x ra) % s.p ∧ RegisterResult s t rd c)

/-- FTOM and FFROMM (44_prime_field.md R366, R367): into the Montgomery domain any integer, reduced; out of it an element, with
E_DOMAIN for a value of `p` or more; E_CONFIG without a field. -/
def Obligations.MontgomeryConversions : Prop :=
  ∀ rd ra : Reg,
    decode (encR 0x46 rd ra 0 0 0) = some (.ftom rd ra) ∧ decode (encR 0x47 rd ra 0 0 0) = some (.ffromm rd ra) ∧
    ∀ s : State,
      (s.fvalid = false → Raises s (exec (.ftom rd ra) s) .config ∧ Raises s (exec (.ffromm rd ra) s) .config) ∧
      (s.fvalid = true → s.p ≤ s.x ra → Raises s (exec (.ffromm rd ra) s) .domain) ∧
      (FieldReady s → ∃ t, exec (.ftom rd ra) s = .next t ∧
        RegisterResult s t rd (s.x ra * 2 ^ s.params.regBits % s.p)) ∧
      (FieldReady s → s.x ra < s.p → ∃ t c, exec (.ffromm rd ra) s = .next t ∧ c < s.p ∧
        c * 2 ^ s.params.regBits % s.p = s.x ra ∧ RegisterResult s t rd c)

/-- FEQ (44_prime_field.md R368): E_CONFIG, E_DOMAIN; else 1 exactly when the two elements are the same, that is when their
canonical elements are. -/
def Obligations.FieldEquality : Prop :=
  ∀ rd ra rb : Reg,
    decode (encR 0x48 rd ra rb 0 0) = some (.feq rd ra rb) ∧
    ∀ s : State,
      (s.fvalid = false → Raises s (exec (.feq rd ra rb) s) .config) ∧
      (s.fvalid = true → s.p ≤ s.x ra ∨ s.p ≤ s.x rb → Raises s (exec (.feq rd ra rb) s) .domain) ∧
      (FieldReady s → s.x ra < s.p → s.x rb < s.p → ∃ t, exec (.feq rd ra rb) s = .next t ∧
        RegisterResult s t rd (if s.x ra = s.x rb then 1 else 0) ∧
        (s.x ra = s.x rb ↔ canonical s (s.x ra) = canonical s (s.x rb)))

/-- FLD (44_prime_field.md R369): E_CONFIG, E_ADDR; else the number `v` the buffer holds in the configured byte order: below `p`,
its Montgomery form goes to `rd` and V is 0; else V is 1 and `rd` is unchanged. -/
def Obligations.FieldLoadValidates : Prop :=
  ∀ (rd ra : Reg) (off : Nat),
    (off < 2 ^ 16 → decode (encM 0x49 rd ra off) = some (.fld rd ra off)) ∧
    ∀ s : State,
      (s.fvalid = false → Raises s (exec (.fld rd ra off) s) .config) ∧
      (s.fvalid = true → s.params.dmSize < s.x ra + off + s.params.elemBytes →
        Raises s (exec (.fld rd ra off) s) .addr) ∧
      ∀ v, FieldReady s → s.x ra + off + s.params.elemBytes ≤ s.params.dmSize → v < 2 ^ s.params.regBits →
        HoldsAt s s.be (s.x ra + off) s.params.elemBytes v →
        (v < s.p → ∃ t, exec (.fld rd ra off) s = .next t ∧ t.v = false ∧
          RegisterResult { s with v := t.v } t rd (v * 2 ^ s.params.regBits % s.p)) ∧
        (s.p ≤ v → exec (.fld rd ra off) s = .next { s with v := true, pc := s.pc + 1 })

/-- FST (44_prime_field.md R370): E_CONFIG, then E_ADDR, then E_DOMAIN, with no byte written; else the buffer holds the canonical
value in the configured byte order. -/
def Obligations.FieldStoreIsCanonical : Prop :=
  ∀ (rs ra : Reg) (off : Nat),
    (off < 2 ^ 16 → decode (encM 0x4A rs ra off) = some (.fst rs ra off)) ∧
    ∀ s : State,
      (s.fvalid = false → Raises s (exec (.fst rs ra off) s) .config) ∧
      (s.fvalid = true → s.params.dmSize < s.x ra + off + s.params.elemBytes →
        Raises s (exec (.fst rs ra off) s) .addr) ∧
      (s.fvalid = true → s.x ra + off + s.params.elemBytes ≤ s.params.dmSize → s.p ≤ s.x rs →
        Raises s (exec (.fst rs ra off) s) .domain) ∧
      (FieldReady s → s.x ra + off + s.params.elemBytes ≤ s.params.dmSize → s.x rs < s.p →
        ∃ t c, exec (.fst rs ra off) s = .next t ∧ c < s.p ∧ c * 2 ^ s.params.regBits % s.p = s.x rs ∧
          HoldsAt t s.be (s.x ra + off) s.params.elemBytes c ∧ t.pc = s.pc + 1 ∧
          OnlyMemory s t (s.x ra + off) s.params.elemBytes)

/-- FST then FLD at the same address under the same configuration gives the element back, with V = 0 (44_prime_field.md R370). -/
def Obligations.FieldStoreThenLoadRoundTrip : Prop :=
  ∀ (s t : State) (rs rd ra : Reg) (off : Nat), FieldReady s → s.x rs < s.p →
    s.x ra + off + s.params.elemBytes ≤ s.params.dmSize → exec (.fst rs ra off) s = .next t →
    ∃ u, exec (.fld rd ra off) t = .next u ∧ u.x rd = s.x rs ∧ u.v = false

/-! ## Binary field -/

/-- CLMUL (45_binary_field.md R410): E_DOMAIN for a source of `2^128` or more; else bits 127..0 of the carry-less product to
`rd`, then bits 254..128 to `rc`. -/
def Obligations.CarrylessProduct : Prop :=
  ∀ rd ra rb rc : Reg,
    decode (encR 0x50 rd ra rb rc 0) = some (.clmul rd ra rb rc) ∧
    ∀ s : State,
      (2 ^ 128 ≤ s.x ra ∨ 2 ^ 128 ≤ s.x rb → Raises s (exec (.clmul rd ra rb rc) s) .domain) ∧
      (2 ≤ s.params.limbs → s.x ra < 2 ^ 128 → s.x rb < 2 ^ 128 →
        ∃ t, exec (.clmul rd ra rb rc) s = .next t ∧
          (∀ n, (t.x rc).testBit n = (decide (n < 127) && carrylessBit (s.x ra) (s.x rb) (128 + n))) ∧
          (rd ≠ rc → ∀ n, (t.x rd).testBit n = (decide (n < 128) && carrylessBit (s.x ra) (s.x rb) n)) ∧
          t.pc = s.pc + 1 ∧ OnlyRegisters s t [rd, rc])

/-- GADD (45_binary_field.md R411): E_DOMAIN; else the exclusive or. -/
def Obligations.BinaryFieldAddition : Prop :=
  ∀ rd ra rb : Reg,
    decode (encR 0x51 rd ra rb 0 0) = some (.gadd rd ra rb) ∧
    ∀ s : State,
      (2 ^ 128 ≤ s.x ra ∨ 2 ^ 128 ≤ s.x rb → Raises s (exec (.gadd rd ra rb) s) .domain) ∧
      (2 ≤ s.params.limbs → s.x ra < 2 ^ 128 → s.x rb < 2 ^ 128 →
        ∃ t v, exec (.gadd rd ra rb) s = .next t ∧ RegisterResult s t rd v ∧
          ∀ n, v.testBit n = ((s.x ra).testBit n != (s.x rb).testBit n))

/-- GMUL (45_binary_field.md R412, R402): E_DOMAIN; else the remainder of the carry-less product by GF_POLY: below `2^128`, and
a multiple of GF_POLY away from the product. -/
def Obligations.BinaryFieldMultiplication : Prop :=
  ∀ rd ra rb : Reg,
    decode (encR 0x52 rd ra rb 0 0) = some (.gmul rd ra rb) ∧
    ∀ s : State,
      (2 ^ 128 ≤ s.x ra ∨ 2 ^ 128 ≤ s.x rb → Raises s (exec (.gmul rd ra rb) s) .domain) ∧
      (s.params.legal → s.x ra < 2 ^ 128 → s.x rb < 2 ^ 128 →
        ∃ t v q, exec (.gmul rd ra rb) s = .next t ∧ RegisterResult s t rd v ∧ v < 2 ^ 128 ∧
          clmul (s.x ra) (s.x rb) = clmul s.params.gfPoly q ^^^ v)

/-! ## Interpolation -/

/-- The checks of the interpolation commands and their order (46_interpolation.md R451, R452, R453): the configuration, the
ranges in operand order, the element register, the nodes, the array's elements, the distinct-node check. That check passes
exactly when every difference of two nodes has an inverse, also for a composite modulus. -/
def Obligations.InterpolationChecksInOrder : Prop :=
  ∀ (rd ra rb : Reg) (s : State),
    (s.fmode = false → s.fvalid = false →
      ∀ i ∈ [Instr.evalm rd ra rb, .evaln rd ra rb, .nofl rd ra, .monofn rd ra, .monofl rd ra],
        Raises s (exec i s) .config) ∧
    (FieldSelected s →
      (s.params.dmSize < s.x ra + s.arrayBytes →
        ∀ i ∈ [Instr.evalm rd ra rb, .evaln rd ra rb, .nofl rd ra, .monofn rd ra, .monofl rd ra],
          Raises s (exec i s) .addr) ∧
      (s.params.dmSize < s.xbase + s.arrayBytes →
        ∀ i ∈ [Instr.evaln rd ra rb, .nofl rd ra, .monofn rd ra, .monofl rd ra], Raises s (exec i s) .addr) ∧
      (s.params.dmSize < s.x rd + s.arrayBytes →
        ∀ i ∈ [Instr.nofl rd ra, .monofn rd ra, .monofl rd ra], Raises s (exec i s) .addr) ∧
      (s.x ra + s.arrayBytes ≤ s.params.dmSize → elementBound s ≤ s.x rb →
        Raises s (exec (.evalm rd ra rb) s) .domain ∧
        (s.xbase + s.arrayBytes ≤ s.params.dmSize → Raises s (exec (.evaln rd ra rb) s) .domain)) ∧
      ∀ nodes es, s.x ra + s.arrayBytes ≤ s.params.dmSize → s.readArray (s.x ra) s.nnode = .ok es →
        (s.x rb < elementBound s → (∃ e ∈ es, elementBound s ≤ e) → Raises s (exec (.evalm rd ra rb) s) .domain) ∧
        (s.xbase + s.arrayBytes ≤ s.params.dmSize → s.readArray s.xbase s.nnode = .ok nodes →
          ((∃ e ∈ nodes ++ es, elementBound s ≤ e) →
            (s.x rb < elementBound s → Raises s (exec (.evaln rd ra rb) s) .domain) ∧
            (s.x rd + s.arrayBytes ≤ s.params.dmSize →
              ∀ i ∈ [Instr.nofl rd ra, .monofn rd ra, .monofl rd ra], Raises s (exec i s) .domain)) ∧
          ((∀ e ∈ nodes ++ es, e < elementBound s) → ¬ NodesDiffer s nodes → s.x rd + s.arrayBytes ≤ s.params.dmSize →
            ∀ i ∈ [Instr.nofl rd ra, .monofl rd ra], Raises s (exec i s) .divzero))) ∧
    ∀ f nodes, FieldSelected s → s.selectField = .ok f → (∀ e ∈ nodes, e < elementBound s) →
      (f.checkDistinct nodes = .ok () ↔ NodesDiffer s nodes)

/-- EVALM (46_interpolation.md R460, R455): the value at `x[rb]` of the polynomial with these monomial coefficients, in the
selected field. -/
def Obligations.MonomialEvaluation : Prop :=
  ∀ rd ra rb : Reg,
    decode (encR 0x60 rd ra rb 0 0) = some (.evalm rd ra rb) ∧
    ∀ (s : State) (ms : List Nat), s.params.legal → ArrayAt s (s.x ra) s.nnode (elementBound s) ms →
      s.x rb < elementBound s →
      (s.fmode = false → FieldReady s → ∃ t r, exec (.evalm rd ra rb) s = .next t ∧ RegisterResult s t rd r ∧ r < s.p ∧
        canonical s r = (monomialForm s ms).eval (canonical s (s.x rb))) ∧
      (s.fmode = true → ∃ t, exec (.evalm rd ra rb) s = .next t ∧
        RegisterResult s t rd (gfEvaluate s.params.gfPoly (s.x rb) ms))

/-- EVALN (46_interpolation.md R462, R455): the value at `x[rb]` of the Newton form with these coefficients and nodes, in the
selected field. -/
def Obligations.NewtonEvaluation : Prop :=
  ∀ rd ra rb : Reg,
    decode (encR 0x62 rd ra rb 0 0) = some (.evaln rd ra rb) ∧
    ∀ (s : State) (nodes cs : List Nat), s.params.legal → ArrayAt s (s.x ra) s.nnode (elementBound s) cs →
      ArrayAt s s.xbase s.nnode (elementBound s) nodes → s.x rb < elementBound s →
      (s.fmode = false → FieldReady s → ∃ t r, exec (.evaln rd ra rb) s = .next t ∧ RegisterResult s t rd r ∧ r < s.p ∧
        canonical s r = (newtonForm s nodes cs).eval (canonical s (s.x rb))) ∧
      (s.fmode = true → ∃ t, exec (.evaln rd ra rb) s = .next t ∧
        RegisterResult s t rd (gfNewtonEvaluate s.params.gfPoly (s.x rb) nodes cs))

/-- NOFL (46_interpolation.md R461, R454): with nodes that pass the distinct-node check, the array at `x[rd]` receives the
divided differences `f[X_0..X_k]`, and nothing else changes. -/
def Obligations.NewtonCoefficientsAreDividedDifferences : Prop :=
  ∀ rd ra : Reg,
    decode (encR 0x61 rd ra 0 0 0) = some (.nofl rd ra) ∧
    ∀ (s : State) (f : FieldOps) (nodes vs : List Nat), s.params.legal → FieldSelected s → s.selectField = .ok f →
      ArrayAt s (s.x ra) s.nnode (elementBound s) vs → ArrayAt s s.xbase s.nnode (elementBound s) nodes →
      s.x rd + s.arrayBytes ≤ s.params.dmSize → f.checkDistinct nodes = .ok () →
      ∃ t cs, exec (.nofl rd ra) s = .next t ∧ ArrayResult s t (s.x rd) s.nnode cs ∧ cs.length = s.nnode ∧
        ∀ k, k < s.nnode → dividedDifference f nodes vs 0 k = .ok (cs.getD k 0)

/-- MONOFN (46_interpolation.md R463, R455): the array at `x[rd]` receives the monomial coefficients of the polynomial whose
Newton form is read; in the prime field they are equal as polynomials, in GF(2^128) at every element. -/
def Obligations.NewtonToMonomial : Prop :=
  ∀ rd ra : Reg,
    decode (encR 0x63 rd ra 0 0 0) = some (.monofn rd ra) ∧
    ∀ (s : State) (nodes cs : List Nat), s.params.legal → FieldSelected s →
      ArrayAt s (s.x ra) s.nnode (elementBound s) cs → ArrayAt s s.xbase s.nnode (elementBound s) nodes →
      s.x rd + s.arrayBytes ≤ s.params.dmSize →
      ∃ t ms, exec (.monofn rd ra) s = .next t ∧ ArrayResult s t (s.x rd) s.nnode ms ∧ ms.length = s.nnode ∧
        (∀ m ∈ ms, m < elementBound s) ∧
        (s.fmode = false → monomialForm s ms = newtonForm s nodes cs) ∧
        (s.fmode = true → ∀ y, y < 2 ^ 128 →
          gfEvaluate s.params.gfPoly y ms = gfNewtonEvaluate s.params.gfPoly y nodes cs)

/-- MONOFL (46_interpolation.md R464, R455): with nodes that pass the distinct-node check, the array at `x[rd]` receives the
monomial coefficients of the polynomial whose Newton coefficients are the divided differences; in the prime field they are equal
as polynomials, in GF(2^128) at every element. Nothing else changes: the divided differences are not written to memory. -/
def Obligations.ValuesToMonomial : Prop :=
  ∀ rd ra : Reg,
    decode (encR 0x64 rd ra 0 0 0) = some (.monofl rd ra) ∧
    ∀ (s : State) (f : FieldOps) (nodes vs : List Nat), s.params.legal → FieldSelected s → s.selectField = .ok f →
      ArrayAt s (s.x ra) s.nnode (elementBound s) vs → ArrayAt s s.xbase s.nnode (elementBound s) nodes →
      s.x rd + s.arrayBytes ≤ s.params.dmSize → f.checkDistinct nodes = .ok () →
      ∃ t cs ms, exec (.monofl rd ra) s = .next t ∧ cs.length = s.nnode ∧
        (∀ k, k < s.nnode → dividedDifference f nodes vs 0 k = .ok (cs.getD k 0)) ∧
        ArrayResult s t (s.x rd) s.nnode ms ∧ ms.length = s.nnode ∧ (∀ m ∈ ms, m < elementBound s) ∧
        (s.fmode = false → monomialForm s ms = newtonForm s nodes cs) ∧
        (s.fmode = true → ∀ y, y < 2 ^ 128 →
          gfEvaluate s.params.gfPoly y ms = gfNewtonEvaluate s.params.gfPoly y nodes cs)

/-- The three representations agree (46_interpolation.md R465): over nodes whose differences have inverses, the Newton form made
from values takes those values at the nodes, and its monomial form takes the same value at every element. In GF(2^128) that the
differences have inverses is what the irreducibility of GF_POLY gives (LOG 11). -/
def Obligations.RepresentationsAgree : Prop :=
  ∀ (s : State) (f : FieldOps) (nodes vs : List Nat), s.params.legal → FieldSelected s → s.selectField = .ok f →
    nodes.length = vs.length → (∀ e ∈ nodes ++ vs, e < elementBound s) → f.checkDistinct nodes = .ok () →
    (s.fmode = true → ∀ i j, j < i → i < nodes.length →
      GfInvertible s.params.gfPoly (nodes.getD i 0 ^^^ nodes.getD j 0)) →
    ∃ cs ms, f.newtonOfValues nodes vs = .ok cs ∧ f.monomialOfValues nodes vs = .ok ms ∧ cs.length = nodes.length ∧
      ms.length = nodes.length ∧
      (∀ i, i < nodes.length → f.evalNewton (nodes.getD i 0) (nodes.zip cs) = vs.getD i 0) ∧
      ∀ y, y < elementBound s → f.evalMonomial y ms = f.evalNewton y (nodes.zip cs)

/-! ## Transforms -/

/-- The common checks of the transforms and their order (47_additive_fft.md R501). -/
def Obligations.TransformChecksInOrder : Prop :=
  ∀ (ra rb : Reg) (l : Nat) (s : State), ∀ i ∈ [Instr.fft ra rb l, .ifft ra rb l, .bfft ra rb l],
    (s.fmode = false → Raises s (exec i s) .config) ∧
    (s.fmode = true → s.blen < l → Raises s (exec i s) .domain) ∧
    (s.fmode = true → l ≤ s.blen →
      (s.params.dmSize < s.bbase + l * s.params.elemBytes ∨ s.params.dmSize < s.x ra + 2 ^ l * s.params.elemBytes →
        Raises s (exec i s) .addr) ∧
      ∀ basis d, s.bbase + l * s.params.elemBytes ≤ s.params.dmSize →
        s.x ra + 2 ^ l * s.params.elemBytes ≤ s.params.dmSize → s.readArray s.bbase l = .ok basis →
        s.readArray (s.x ra) (2 ^ l) = .ok d → (∃ e ∈ basis ++ d, 2 ^ 128 ≤ e) → Raises s (exec i s) .domain)

/-- FFT (47_additive_fft.md R510, R502): the coset's E_DOMAIN; else element `i` of the array becomes the sum over `j` of
`A[j] * point(l, c, i)^j`, whether the basis is independent or not, and nothing else changes. -/
def Obligations.ForwardTransform : Prop :=
  ∀ (ra rb : Reg) (l : Nat),
    (l < 256 → decode (encR 0x70 0 ra rb 0 l) = some (.fft ra rb l)) ∧
    ∀ (s : State) (basis as : List Nat), s.params.legal → TransformReady s l (s.x ra) basis as →
      (2 ^ 128 ≤ s.x rb → Raises s (exec (.fft ra rb l) s) .domain) ∧
      (s.x rb < 2 ^ 128 → ∃ t ys, exec (.fft ra rb l) s = .next t ∧ ArrayResult s t (s.x ra) (2 ^ l) ys ∧
        ∀ i, i < 2 ^ l → ys.getD i 0 = gfEvaluate s.params.gfPoly (pointOf basis (s.x rb) i) as)

/-- IFFT (47_additive_fft.md R511): the coset's E_DOMAIN, E_SINGULAR for points that are not distinct; else, over points whose
differences have inverses, the array becomes coefficients that take its values at the points. -/
def Obligations.InverseTransform : Prop :=
  ∀ (ra rb : Reg) (l : Nat),
    (l < 256 → decode (encR 0x71 0 ra rb 0 l) = some (.ifft ra rb l)) ∧
    ∀ (s : State) (basis vs : List Nat), s.params.legal → TransformReady s l (s.x ra) basis vs →
      (2 ^ 128 ≤ s.x rb → Raises s (exec (.ifft ra rb l) s) .domain) ∧
      (s.x rb < 2 ^ 128 →
        (∀ i j, i < j → j < 2 ^ l → pointOf basis (s.x rb) i = pointOf basis (s.x rb) j →
          Raises s (exec (.ifft ra rb l) s) .singular) ∧
        ((∀ i j, i < j → j < 2 ^ l →
            GfInvertible s.params.gfPoly (pointOf basis (s.x rb) i ^^^ pointOf basis (s.x rb) j)) →
          ∃ t as, exec (.ifft ra rb l) s = .next t ∧ ArrayResult s t (s.x ra) (2 ^ l) as ∧ as.length = 2 ^ l ∧
            (∀ a ∈ as, a < 2 ^ 128) ∧
            ∀ i, i < 2 ^ l → gfEvaluate s.params.gfPoly (pointOf basis (s.x rb) i) as = vs.getD i 0))

/-- BFFT (47_additive_fft.md R512): E_DOMAIN for `k > 2^l`, E_SINGULAR when two of the first `k` points coincide; else there is
the polynomial `P` whose high coefficients the array holds from `k` on and whose values it holds below `k`, and the array becomes
`P`'s low coefficients and its values from `k` on. -/
def Obligations.BidirectionalTransform : Prop :=
  ∀ (ra rb : Reg) (l : Nat),
    (l < 256 → decode (encR 0x72 0 ra rb 0 l) = some (.bfft ra rb l)) ∧
    ∀ (s : State) (basis d : List Nat), s.params.legal → TransformReady s l (s.x ra) basis d →
      (2 ^ l < s.x rb → Raises s (exec (.bfft ra rb l) s) .domain) ∧
      (s.x rb ≤ 2 ^ l →
        (∀ i j, i < j → j < s.x rb → pointOf basis 0 i = pointOf basis 0 j →
          Raises s (exec (.bfft ra rb l) s) .singular) ∧
        ((∀ i j, i < j → j < s.x rb → GfInvertible s.params.gfPoly (pointOf basis 0 i ^^^ pointOf basis 0 j)) →
          ∃ t ps ys, exec (.bfft ra rb l) s = .next t ∧ ArrayResult s t (s.x ra) (2 ^ l) ys ∧ ps.length = 2 ^ l ∧
            (∀ p ∈ ps, p < 2 ^ 128) ∧
            (∀ i, i < 2 ^ l → s.x rb ≤ i → ps.getD i 0 = d.getD i 0 ∧
              ys.getD i 0 = gfEvaluate s.params.gfPoly (pointOf basis 0 i) ps) ∧
            (∀ i, i < s.x rb → gfEvaluate s.params.gfPoly (pointOf basis 0 i) ps = d.getD i 0 ∧
              ys.getD i 0 = ps.getD i 0)))

/-- IFFT undoes FFT (47_additive_fft.md R511, R513): over points whose differences have inverses, with a data array that does not
overlap the basis, FFT and then IFFT with the same size and coset give the coefficients back. -/
def Obligations.InverseTransformUndoesForward : Prop :=
  ∀ (ra rb : Reg) (l : Nat) (s t : State) (basis as : List Nat), s.params.legal →
    TransformReady s l (s.x ra) basis as → s.x rb < 2 ^ 128 →
    (∀ i j, i < j → j < 2 ^ l →
      GfInvertible s.params.gfPoly (pointOf basis (s.x rb) i ^^^ pointOf basis (s.x rb) j)) →
    (s.bbase + l * s.params.elemBytes ≤ s.x ra ∨ s.x ra + 2 ^ l * s.params.elemBytes ≤ s.bbase) →
    exec (.fft ra rb l) s = .next t →
    ∃ u, exec (.ifft ra rb l) t = .next u ∧ u.readArray (s.x ra) (2 ^ l) = .ok as

/-! ## Sequencer -/

/-- HALT and BNZ (48_sequencer.md R551, R552): HALT stops with DONE and leaves `pc`; BNZ goes to its own index plus the signed
offset, modulo `2^32`, when any bit of the register is set, else one further; neither changes anything else. -/
def Obligations.HaltAndBranch : Prop :=
  decode 0xF0000000 = some .halt ∧
  (∀ s : State, exec .halt s = .next { s with status := ⟨false, true, false, .none⟩ }) ∧
  ∀ (ra : Reg) (off : Int),
    (-(2 ^ 15) ≤ off → off < 2 ^ 15 → decode (encM 0xF1 0 ra (off % 2 ^ 16).toNat) = some (.bnz ra off)) ∧
    ∀ s : State, ∃ t, exec (.bnz ra off) s = .next t ∧ t = { s with pc := t.pc } ∧
      (s.x ra ≠ 0 → (t.pc.toNat : Int) = ((s.pc.toNat : Int) + off) % 2 ^ 32) ∧
      (s.x ra = 0 → t.pc.toNat = (s.pc.toNat + 1) % 2 ^ 32)

/-- CSRR (48_sequencer.md R553, 10_state.md R58 to R69): E_ILLEGAL for a reserved number; else the value of the CSR, field by
field, with 0 outside its fields. -/
def Obligations.ReadOfControlRegisters : Prop :=
  ∀ (rd : Reg) (n : Nat),
    (n < 256 → decode (encR 0xF2 rd 0 0 0 n) = some (.csrr rd n)) ∧
    ∀ s : State,
      (9 < n → Raises s (exec (.csrr rd n) s) .illegal) ∧
      (Legal s → n ≤ 9 → ∃ t v, exec (.csrr rd n) s = .next t ∧ RegisterResult s t rd v ∧
        (n = 0 → v = ofBool s.status.running + 2 * ofBool s.status.done + 4 * ofBool s.status.fault +
          256 * s.status.cause.code) ∧
        (n = 1 → v = s.faultPc.toNat) ∧ (n = 2 → v = ofBool s.v) ∧
        (n = 3 → v = ofBool s.fmode + 2 * ofBool s.be + 4 * ofBool s.fvalid) ∧
        (n = 4 → v = s.p) ∧ (n = 5 → v = s.minv) ∧ (n = 6 → v = s.bbase) ∧ (n = 7 → v = s.blen) ∧
        (n = 8 → v = s.nnode) ∧ (n = 9 → v = s.xbase))

/-- CSRW (48_sequencer.md R554, 10_state.md R58, R62, R63): E_ILLEGAL for a reserved or read-only number, with nothing written;
else V from bit 0, FMODE from bit 0, or the whole register. -/
def Obligations.WriteOfControlRegisters : Prop :=
  ∀ (ra : Reg) (n : Nat),
    (n < 256 → decode (encR 0xF3 0 ra 0 0 n) = some (.csrw ra n)) ∧
    ∀ s : State,
      (9 < n ∨ n ∈ [0, 1, 4, 5] → Raises s (exec (.csrw ra n) s) .illegal) ∧
      (n = 2 → exec (.csrw ra n) s = .next { s with v := (s.x ra).testBit 0, pc := s.pc + 1 }) ∧
      (n = 3 → exec (.csrw ra n) s = .next { s with fmode := (s.x ra).testBit 0, pc := s.pc + 1 }) ∧
      (n = 6 → exec (.csrw ra n) s = .next { s with bbase := s.x ra, pc := s.pc + 1 }) ∧
      (n = 7 → exec (.csrw ra n) s = .next { s with blen := s.x ra, pc := s.pc + 1 }) ∧
      (n = 8 → exec (.csrw ra n) s = .next { s with nnode := s.x ra, pc := s.pc + 1 }) ∧
      (n = 9 → exec (.csrw ra n) s = .next { s with xbase := s.x ra, pc := s.pc + 1 })

/-! ## Arrays in data memory -/

/-- Arrays of elements (46_interpolation.md R452, 20_memory.md R103): an array read is its elements exactly when element `i` lies
little-endian in the `ES` bytes at `a + i*ES`; an array written puts element `i` there and leaves every byte outside. -/
def Obligations.ArraysHoldTheirElements : Prop :=
  ∀ (s : State) (a : Nat),
    (∀ n es, s.readArray a n = .ok es ↔ es.length = n ∧ (∀ e ∈ es, e < 2 ^ s.params.regBits) ∧
      ∀ i, i < n → HoldsAt s false (a + i * s.params.elemBytes) s.params.elemBytes (es.getD i 0)) ∧
    ∀ ys, (∀ i, i < ys.length →
        HoldsAt (s.writeArray a ys) false (a + i * s.params.elemBytes) s.params.elemBytes (ys.getD i 0)) ∧
      ∀ b, b < a ∨ a + ys.length * s.params.elemBytes ≤ b → (s.writeArray a ys).byteAt b = s.byteAt b
end

