-- ==== Sys2Proof/Laws/BinaryArith.lean ====
section
/-! SUPPORT. What carry-less multiplication and the binary field's functions compute: a number as a polynomial over GF(2), and
GF(2^128) as the quotient ring by GF_POLY. -/

namespace Sys2Proof.Machine

open Polynomial

/-! ## A number as a polynomial over GF(2) -/

/-- The polynomial whose coefficient of `x^i` is bit `i` (45_binary_field.md R400). -/
noncomputable def bitsPoly (n : Nat) : (ZMod 2)[X] := ∑ i ∈ Finset.range n, if n.testBit i then X ^ i else 0

theorem bitsPoly_coeff (n i : Nat) : (bitsPoly n).coeff i = if n.testBit i then 1 else 0 := by
  have h : ∀ j, (if n.testBit j then (X ^ j : (ZMod 2)[X]) else 0).coeff i = if j = i ∧ n.testBit i then 1 else 0 := by
    intro j
    by_cases hj : j = i
    · subst hj; by_cases hb : n.testBit j <;> simp [hb]
    · by_cases hb : n.testBit j <;> simp [hb, hj, coeff_X_pow, Ne.symm hj]
  simp only [bitsPoly, finsetSum_coeff, h]
  by_cases hi : i < n
  · by_cases hb : n.testBit i <;> simp [hb, hi]
  · have : n.testBit i = false := Nat.testBit_lt_two_pow (Nat.lt_of_le_of_lt (by omega) Nat.lt_two_pow_self)
    simp [this]

theorem bitsPoly_injective : Function.Injective bitsPoly := by
  intro m n h
  apply Nat.eq_of_testBit_eq
  intro i
  have := congrArg (fun q => q.coeff i) h
  simp only [bitsPoly_coeff] at this
  cases hm : m.testBit i <;> cases hn : n.testBit i <;> simp_all

@[simp] theorem bitsPoly_zero : bitsPoly 0 = 0 := by simp [bitsPoly]

@[simp] theorem bitsPoly_one : bitsPoly 1 = 1 := by simp [bitsPoly]

theorem bitsPoly_xor (m n : Nat) : bitsPoly (m ^^^ n) = bitsPoly m + bitsPoly n := by
  ext i
  simp only [coeff_add, bitsPoly_coeff, Nat.testBit_xor]
  cases m.testBit i <;> cases n.testBit i <;> simp
  decide

theorem bitsPoly_shiftLeft (n k : Nat) : bitsPoly (n <<< k) = bitsPoly n * X ^ k := by
  ext i
  simp only [bitsPoly_coeff, coeff_mul_X_pow', Nat.testBit_shiftLeft]
  by_cases h : k ≤ i <;> simp [h]

theorem bitsPoly_degree_lt {n k : Nat} (h : n < 2 ^ k) : (bitsPoly n).degree < k := by
  rw [degree_lt_iff_coeff_zero]
  intro i hi
  rw [bitsPoly_coeff, Nat.testBit_lt_two_pow (lt_of_lt_of_le h (Nat.pow_le_pow_right (by decide) hi))]
  simp

theorem bitsPoly_degree_le {n k : Nat} (h : n < 2 ^ (k + 1)) : (bitsPoly n).degree ≤ k := by
  rw [degree_le_iff_coeff_zero]
  intro i hi
  have : k + 1 ≤ i := by exact_mod_cast hi
  rw [bitsPoly_coeff, Nat.testBit_lt_two_pow (lt_of_lt_of_le h (Nat.pow_le_pow_right (by decide) this))]
  simp

/-! ## Carry-less multiplication -/

theorem bitsPoly_clmulUpTo (a b n : Nat) :
    bitsPoly (clmulUpTo a b n) = bitsPoly a * ∑ i ∈ Finset.range n, if b.testBit i then X ^ i else 0 := by
  induction n with
  | zero => simp [clmulUpTo]
  | succ n ih =>
    rw [clmulUpTo, bitsPoly_xor, ih, Finset.sum_range_succ, mul_add]
    cases b.testBit n <;> simp [bitsPoly_shiftLeft]

/-- `clmul` multiplies the polynomials (45_binary_field.md R401). -/
theorem bitsPoly_clmul (a b : Nat) : bitsPoly (clmul a b) = bitsPoly a * bitsPoly b := by
  rw [clmul, bitsPoly_clmulUpTo]
  congr 1
  ext i
  have h : ∀ m : Nat, (∑ j ∈ Finset.range m, if b.testBit j then (X ^ j : (ZMod 2)[X]) else 0).coeff i =
      if i < m ∧ b.testBit i then 1 else 0 := by
    intro m
    induction m with
    | zero => simp
    | succ m ih =>
      rw [Finset.sum_range_succ, coeff_add, ih]
      rcases Nat.lt_trichotomy i m with hi | rfl | hi
      · by_cases hb : b.testBit m <;> simp [hi, hb, Nat.lt_succ_of_lt hi, coeff_X_pow, hi.ne]
      · by_cases hb : b.testBit i <;> simp [hb]
      · by_cases hb : b.testBit m <;>
          simp [hb, coeff_X_pow, hi.ne', show ¬ i < m by omega, show ¬ i < m + 1 by omega]
  rw [h, bitsPoly_coeff]
  by_cases hi : i < b.log2 + 1
  · simp [hi]
  · have : b.testBit i = false :=
      Nat.testBit_lt_two_pow (lt_of_lt_of_le Nat.lt_log2_self (Nat.pow_le_pow_right (by decide) (by omega)))
    simp [this]

/-- The product of an `m`-bit and an `n`-bit number, `m, n >= 1`, has at most `m+n-1` bits (45_binary_field.md R401). -/
theorem clmul_lt {a b m n : Nat} (ha : a < 2 ^ (m + 1)) (hb : b < 2 ^ (n + 1)) : clmul a b < 2 ^ (m + n + 1) := by
  apply Nat.lt_pow_two_of_testBit
  intro i hi
  have hd : (bitsPoly (clmul a b)).coeff i = 0 := by
    rw [bitsPoly_clmul]
    apply coeff_eq_zero_of_degree_lt
    refine lt_of_le_of_lt (degree_mul_le _ _) ?_
    have h1 : (bitsPoly a).degree ≤ m := bitsPoly_degree_le ha
    have h2 : (bitsPoly b).degree ≤ n := bitsPoly_degree_le hb
    refine lt_of_le_of_lt (add_le_add h1 h2) ?_
    exact_mod_cast (by omega : m + n < i)
  rw [bitsPoly_coeff] at hd
  by_contra h
  simp [h] at hd

/-! ## Reduction -/

/-- Each reduction step adds a multiple of the polynomial; after all of them the value is below `2^128`. -/
theorem GF.redFrom_spec {poly : Nat} (hp : 2 ^ 128 ≤ poly ∧ poly < 2 ^ 129) (n t : Nat) (ht : t < 2 ^ (128 + n)) :
    GF.redFrom poly n t < 2 ^ 128 ∧ ∃ q, t = clmul poly q ^^^ GF.redFrom poly n t := by
  induction n generalizing t with
  | zero => exact ⟨ht, 0, by simp [GF.redFrom, clmul, clmulUpTo]⟩
  | succ n ih =>
    rw [GF.redFrom]
    cases hb : t.testBit (128 + n) with
    | false =>
      refine ih t (Nat.lt_pow_two_of_testBit _ fun i hi => ?_)
      rcases Nat.eq_or_lt_of_le hi with rfl | hi
      · exact hb
      · exact Nat.testBit_lt_two_pow (lt_of_lt_of_le ht (Nat.pow_le_pow_right (by decide) (by omega)))
    | true =>
      have hsh : poly <<< n < 2 ^ (128 + (n + 1)) := by
        rw [Nat.shiftLeft_eq, show 128 + (n + 1) = 129 + n by omega, pow_add]
        exact Nat.mul_lt_mul_of_pos_right hp.2 (by positivity)
      have hpb : poly.testBit 128 = true := by
        rw [Nat.testBit_eq_decide_div_mod_eq]
        simp only [decide_eq_true_eq]
        omega
      obtain ⟨h1, q, hq⟩ := ih (t ^^^ (poly <<< n)) (Nat.lt_pow_two_of_testBit _ fun i hi => by
        rw [Nat.testBit_xor]
        rcases Nat.eq_or_lt_of_le hi with rfl | hi
        · simp [hb, Nat.testBit_shiftLeft, hpb]
        · rw [Nat.testBit_lt_two_pow (lt_of_lt_of_le ht (Nat.pow_le_pow_right (by decide) (by omega))),
            Nat.testBit_lt_two_pow (lt_of_lt_of_le hsh (Nat.pow_le_pow_right (by decide) (by omega)))]
          rfl)
      refine ⟨h1, q ^^^ (1 <<< n), ?_⟩
      simp only [cond_true]
      apply bitsPoly_injective
      have := congrArg bitsPoly hq
      simp only [bitsPoly_xor, bitsPoly_clmul, bitsPoly_shiftLeft, bitsPoly_one, one_mul] at this ⊢
      have h2 : ∀ x : (ZMod 2)[X], x + x = 0 := fun x => CharTwo.add_self_eq_zero x
      linear_combination this - h2 (bitsPoly poly * X ^ n)

/-- `GF.red` gives the remainder by the polynomial (45_binary_field.md R402). -/
theorem GF.red_spec {poly : Nat} (hp : 2 ^ 128 ≤ poly ∧ poly < 2 ^ 129) (t : Nat) :
    GF.red poly t < 2 ^ 128 ∧ ∃ q, t = clmul poly q ^^^ GF.red poly t :=
  GF.redFrom_spec hp _ t (lt_of_lt_of_le Nat.lt_log2_self (Nat.pow_le_pow_right (by decide) (by omega)))

/-! ## GF(2^128) as a quotient ring -/

/-- An element of the binary field of `poly` in the quotient ring of the polynomials over GF(2). -/
noncomputable def gfElement (poly n : Nat) : AdjoinRoot (bitsPoly poly) := AdjoinRoot.mk _ (bitsPoly n)

variable {poly : Nat}

@[simp] theorem gfElement_zero : gfElement poly 0 = 0 := by simp [gfElement]

@[simp] theorem gfElement_one : gfElement poly 1 = 1 := by simp [gfElement]

theorem gfElement_xor (a b : Nat) : gfElement poly (a ^^^ b) = gfElement poly a + gfElement poly b := by
  simp [gfElement, bitsPoly_xor]

theorem gfElement_clmul (a b : Nat) : gfElement poly (clmul a b) = gfElement poly a * gfElement poly b := by
  simp [gfElement, bitsPoly_clmul]

theorem gfElement_self : gfElement poly poly = 0 := by simp [gfElement]

theorem gfElement_add_self (x : AdjoinRoot (bitsPoly poly)) : x + x = 0 := by
  obtain ⟨q, rfl⟩ := AdjoinRoot.mk_surjective x
  rw [← map_add, CharTwo.add_self_eq_zero, map_zero]

theorem gfElement_add (a b : Nat) : gfElement poly (GF.add a b) = gfElement poly a + gfElement poly b := gfElement_xor a b

theorem gfElement_sub (a b : Nat) : gfElement poly (GF.add a b) = gfElement poly a - gfElement poly b := by
  rw [gfElement_add]
  linear_combination gfElement_add_self (gfElement poly b)

theorem gfElement_red (hp : 2 ^ 128 ≤ poly ∧ poly < 2 ^ 129) (t : Nat) : gfElement poly (GF.red poly t) = gfElement poly t := by
  obtain ⟨_, q, hq⟩ := GF.red_spec hp t
  conv_rhs => rw [hq, gfElement_xor, gfElement_clmul, gfElement_self]
  ring

theorem gfElement_mul (hp : 2 ^ 128 ≤ poly ∧ poly < 2 ^ 129) (a b : Nat) :
    gfElement poly (GF.mul poly a b) = gfElement poly a * gfElement poly b := by
  rw [GF.mul, gfElement_red hp, gfElement_clmul]

theorem GF.mul_lt (hp : 2 ^ 128 ≤ poly ∧ poly < 2 ^ 129) (a b : Nat) : GF.mul poly a b < 2 ^ 128 := (GF.red_spec hp _).1

theorem GF.add_lt {a b : Nat} (ha : a < 2 ^ 128) (hb : b < 2 ^ 128) : GF.add a b < 2 ^ 128 := Nat.xor_lt_two_pow ha hb

/-- Two elements below `2^128` are equal when their classes are. -/
theorem gfElement_injOn (hp : 2 ^ 128 ≤ poly ∧ poly < 2 ^ 129) {a b : Nat} (ha : a < 2 ^ 128) (hb : b < 2 ^ 128)
    (h : gfElement poly a = gfElement poly b) : a = b := by
  have h0 : gfElement poly (a ^^^ b) = 0 := by
    rw [gfElement_xor, h, gfElement_add_self]
  have hdvd : bitsPoly poly ∣ bitsPoly (a ^^^ b) := AdjoinRoot.mk_eq_zero.1 h0
  have hdeg : ((128 : Nat) : WithBot Nat) ≤ (bitsPoly poly).degree := by
    apply le_degree_of_ne_zero
    rw [bitsPoly_coeff]
    have : poly.testBit 128 = true := by
      rw [Nat.testBit_eq_decide_div_mod_eq]
      simp only [decide_eq_true_eq]
      omega
    simp [this]
  have hz : bitsPoly (a ^^^ b) = 0 :=
    eq_zero_of_dvd_of_degree_lt hdvd (lt_of_lt_of_le (bitsPoly_degree_lt (Nat.xor_lt_two_pow ha hb)) hdeg)
  rw [← bitsPoly_zero] at hz
  exact Nat.xor_eq_zero_iff.1 (bitsPoly_injective hz)

/-! ## The inverse -/

theorem gfElement_shiftLeft (n k : Nat) : gfElement poly (n <<< k) = gfElement poly n * gfElement poly (1 <<< k) := by
  simp [gfElement, bitsPoly_shiftLeft]

/-- One step of the division clears the top bit. -/
theorem log2_xor_shiftLeft_lt {r0 r1 : Nat} (h1 : 2 ≤ r1) (h : r1.log2 ≤ r0.log2) :
    (r0 ^^^ (r1 <<< (r0.log2 - r1.log2))).log2 < r0.log2 := by
  have hpos : 1 ≤ r1.log2 := (Nat.le_log2 (by omega)).2 (by omega)
  have hr0 : r0 ≠ 0 := by rintro rfl; simp at h; omega
  have hsh : r1 <<< (r0.log2 - r1.log2) < 2 ^ (r0.log2 + 1) := by
    rw [Nat.shiftLeft_eq]
    have : r1 < 2 ^ (r1.log2 + 1) := Nat.lt_log2_self
    calc r1 * 2 ^ (r0.log2 - r1.log2) < 2 ^ (r1.log2 + 1) * 2 ^ (r0.log2 - r1.log2) :=
          Nat.mul_lt_mul_of_pos_right this (by positivity)
      _ = 2 ^ (r0.log2 + 1) := by rw [← pow_add]; congr 1; omega
  have hlt : r0 ^^^ (r1 <<< (r0.log2 - r1.log2)) < 2 ^ r0.log2 := by
    apply Nat.lt_pow_two_of_testBit
    intro i hi
    rcases Nat.eq_or_lt_of_le hi with rfl | hi
    · rw [Nat.testBit_xor, Nat.testBit_shiftLeft, Nat.testBit_log2 hr0]
      simp [show r0.log2 - (r0.log2 - r1.log2) = r1.log2 by omega, Nat.testBit_log2 (show r1 ≠ 0 by omega)]
    · rw [Nat.testBit_xor,
        Nat.testBit_lt_two_pow (lt_of_lt_of_le Nat.lt_log2_self (Nat.pow_le_pow_right (by decide) hi)),
        Nat.testBit_lt_two_pow (lt_of_lt_of_le hsh (Nat.pow_le_pow_right (by decide) hi))]
      rfl
  rcases Nat.eq_zero_or_pos (r0 ^^^ (r1 <<< (r0.log2 - r1.log2))) with h0 | h0
  · rw [h0]; simp; omega
  · exact (Nat.log2_lt (by omega)).2 hlt

/-- With enough fuel, Euclid's loop over coprime remainders ends at the remainder 1. -/
theorem GF.invLoop_spec {a : Nat} (fuel : Nat) {r0 r1 t0 t1 : Nat} (hc : IsCoprime (bitsPoly r0) (bitsPoly r1))
    (h2 : 2 ≤ r0 ∨ 2 ≤ r1) (hf : 2 * (r0.log2 + r1.log2) + (if r0.log2 < r1.log2 then 1 else 0) ≤ fuel)
    (h0 : gfElement poly t0 * gfElement poly a = gfElement poly r0)
    (h1 : gfElement poly t1 * gfElement poly a = gfElement poly r1) :
    gfElement poly (GF.invLoop fuel r0 r1 t0 t1) * gfElement poly a = 1 := by
  have base : r1 ≤ 1 → gfElement poly t1 * gfElement poly a = 1 := by
    intro hle
    obtain rfl | rfl : r1 = 0 ∨ r1 = 1 := by omega
    · have hu : IsUnit (bitsPoly r0) := by simpa [isCoprime_zero_right] using hc
      have hd := degree_eq_zero_of_isUnit hu
      have hlog : 1 ≤ r0.log2 := (Nat.le_log2 (by omega)).2 (by omega)
      have : ((r0.log2 : Nat) : WithBot Nat) ≤ (bitsPoly r0).degree := by
        apply le_degree_of_ne_zero
        rw [bitsPoly_coeff, Nat.testBit_log2 (by omega)]
        simp
      rw [hd] at this
      have : r0.log2 ≤ 0 := by exact_mod_cast this
      omega
    · simpa using h1
  induction fuel generalizing r0 r1 t0 t1 with
  | zero =>
    refine base ?_
    have : r1.log2 = 0 := by omega
    have : r1 < 2 ^ (r1.log2 + 1) := Nat.lt_log2_self
    simp_all
  | succ fuel ih =>
    rw [GF.invLoop]
    split
    · exact base ‹_›
    · rename_i hr1
      split
      · rename_i hlt
        refine ih hc.symm h2.symm ?_ h1 h0 ?_
        · rw [if_pos hlt] at hf
          rw [if_neg (by omega)]
          omega
        · intro hle
          have hlog : r1.log2 ≠ 0 := by omega
          obtain rfl | rfl : r0 = 0 ∨ r0 = 1 := by omega
          · exfalso
            have hu : IsUnit (bitsPoly r1) := by simpa [isCoprime_zero_left] using hc
            have hd := degree_eq_zero_of_isUnit hu
            have : ((r1.log2 : Nat) : WithBot Nat) ≤ (bitsPoly r1).degree := by
              apply le_degree_of_ne_zero
              rw [bitsPoly_coeff, Nat.testBit_log2 (by omega)]
              simp
            rw [hd] at this
            have : r1.log2 ≤ 0 := by exact_mod_cast this
            omega
          · simpa using h0
      · rename_i hge
        have hlt := log2_xor_shiftLeft_lt (r0 := r0) (r1 := r1) (by omega) (by omega)
        refine ih ?_ (.inr (by omega)) ?_ ?_ h1 fun h => absurd h (by omega)
        · rw [bitsPoly_xor, bitsPoly_shiftLeft, mul_comm (bitsPoly r1)]
          exact (IsCoprime.add_mul_right_left_iff).2 hc
        · rw [if_neg hge] at hf
          split <;> omega
        · rw [gfElement_xor, gfElement_xor, gfElement_shiftLeft t1, gfElement_shiftLeft r1, ← h0, ← h1]
          ring

/-- `GF.inv` of an element with an inverse is an inverse (45_binary_field.md R405). -/
theorem GF.inv_spec (hp : 2 ^ 128 ≤ poly ∧ poly < 2 ^ 129) {a d : Nat} (ha : a < 2 ^ 128) (hd : GF.mul poly a d = 1) :
    ∃ c, GF.inv poly a = .ok c ∧ c < 2 ^ 128 ∧ gfElement poly a * gfElement poly c = 1 := by
  have h1 : gfElement poly a * gfElement poly d = 1 := by rw [← gfElement_mul hp, hd, gfElement_one]
  have ha0 : a ≠ 0 := by
    rintro rfl
    have : gfElement poly 0 = gfElement poly 1 := by
      simpa using h1
    exact absurd (gfElement_injOn hp (by decide) (by decide) this) (by decide)
  have hc : IsCoprime (bitsPoly poly) (bitsPoly a) := by
    have : AdjoinRoot.mk (bitsPoly poly) (bitsPoly a * bitsPoly d - 1) = 0 := by
      rw [map_sub, map_mul, map_one]
      exact sub_eq_zero.2 h1
    obtain ⟨q, hq⟩ := AdjoinRoot.mk_eq_zero.1 this
    exact ⟨-q, bitsPoly d, by linear_combination hq⟩
  have hlp : poly.log2 < 129 := (Nat.log2_lt (by omega)).2 hp.2
  have hla : a.log2 < 128 := (Nat.log2_lt ha0).2 ha
  have hlp' : 128 ≤ poly.log2 := (Nat.le_log2 (by omega)).2 hp.1
  have hloop := GF.invLoop_spec (poly := poly) (a := a) 520 (r0 := poly) (r1 := a) (t0 := 0) (t1 := 1) hc (by omega)
    (by rw [if_neg (by omega)]; omega) (by simp [gfElement_self]) (by simp)
  refine ⟨GF.red poly (GF.invLoop 520 poly a 0 1), ?_, (GF.red_spec hp _).1, ?_⟩
  · simp [GF.inv, ha0, require, bind, Except.bind]
  · rw [gfElement_red hp, mul_comm]
    exact hloop

end Sys2Proof.Machine
end

