-- ==== Sys2Proof/Laws/Bytes.lean ====
section
/-! SUPPORT. The laws of byte order: a number's bytes make the number again, and bytes make a number whose bytes they are. -/

namespace Sys2Proof.Machine

@[simp] theorem leBytes_length (n v : Nat) : (leBytes n v).length = n := by
  induction n generalizing v with
  | zero => rfl
  | succ n ih => simp [leBytes, ih]

theorem leValue_lt (bs : List Byte) : leValue bs < 2 ^ (8 * bs.length) := by
  induction bs with
  | nil => simp [leValue]
  | cons b bs ih =>
    have hb := b.isLt
    simp only [leValue, List.length_cons, Nat.mul_add, Nat.mul_one, pow_add]
    omega

theorem leValue_leBytes (n v : Nat) : leValue (leBytes n v) = v % 2 ^ (8 * n) := by
  induction n generalizing v with
  | zero => simp [leValue, leBytes, Nat.mod_one]
  | succ n ih =>
    simp only [leBytes, leValue, ih, BitVec.toNat_ofNat]
    rw [Nat.mul_add, Nat.mul_one, Nat.add_comm (8 * n) 8, pow_add, Nat.mod_mul]

theorem leBytes_leValue (bs : List Byte) : leBytes bs.length (leValue bs) = bs := by
  induction bs with
  | nil => rfl
  | cons b bs ih =>
    have hb := b.isLt
    simp only [List.length_cons, leBytes, leValue]
    congr 1
    · apply BitVec.eq_of_toNat_eq
      simp only [BitVec.toNat_ofNat]
      omega
    · rw [show (b.toNat + 2 ^ 8 * leValue bs) / 2 ^ 8 = leValue bs by omega]
      exact ih

theorem leBytes_getElem? (n v k : Nat) (h : k < n) : (leBytes n v)[k]? = some (BitVec.ofNat 8 (v / 2 ^ (8 * k))) := by
  induction n generalizing v k with
  | zero => omega
  | succ n ih =>
    cases k with
    | zero => simp [leBytes]
    | succ k =>
      simp only [leBytes, List.getElem?_cons_succ]
      rw [ih _ _ (by omega), Nat.div_div_eq_div_mul, ← pow_add]
      congr 3
      ring

@[simp] theorem valueBytes_length (be : Bool) (n v : Nat) : (valueBytes be n v).length = n := by
  cases be <;> simp [valueBytes]

theorem bytesValue_valueBytes (be : Bool) (n v : Nat) : bytesValue be (valueBytes be n v) = v % 2 ^ (8 * n) := by
  cases be <;> simp [bytesValue, valueBytes, leValue_leBytes]

theorem bytesValue_lt (be : Bool) (bs : List Byte) : bytesValue be bs < 2 ^ (8 * bs.length) := by
  cases be
  · exact leValue_lt bs
  · simpa [bytesValue] using leValue_lt bs.reverse

theorem valueBytes_bytesValue (be : Bool) (bs : List Byte) : valueBytes be bs.length (bytesValue be bs) = bs := by
  cases be
  · exact leBytes_leValue bs
  · have := leBytes_leValue bs.reverse
    simp only [List.length_reverse] at this
    simp [valueBytes, bytesValue, this]

end Sys2Proof.Machine
end

