-- ==== Sys2Proof/Laws/Encoding.lean ====
section
/-! SUPPORT. The fields of an encoded word, and a word put together from its fields. -/

namespace Sys2Proof

variable (opcode : Nat) (rd ra rb rc : Reg) (n : Nat) (w : Word)

theorem encR_toNat (h : opcode < 256) : (encR opcode rd ra rb rc n).toNat =
    opcode * 2 ^ 24 + rd.val * 2 ^ 20 + ra.val * 2 ^ 16 + rb.val * 2 ^ 12 + rc.val * 2 ^ 8 + n % 2 ^ 8 := by
  simp only [encR, BitVec.toNat_ofNat]
  omega

theorem encM_toNat (h : opcode < 256) : (encM opcode rd ra n).toNat =
    opcode * 2 ^ 24 + rd.val * 2 ^ 20 + ra.val * 2 ^ 16 + n % 2 ^ 16 := by
  simp only [encM, BitVec.toNat_ofNat]
  omega

theorem opcodeField_encR (h : opcode < 256) : opcodeField (encR opcode rd ra rb rc n) = opcode := by
  rw [opcodeField, encR_toNat _ _ _ _ _ _ h]; omega

theorem rdField_encR (h : opcode < 256) : rdField (encR opcode rd ra rb rc n) = rd := by
  apply Fin.ext
  simp only [rdField, encR_toNat _ _ _ _ _ _ h, Fin.ofNat]; omega

theorem raField_encR (h : opcode < 256) : raField (encR opcode rd ra rb rc n) = ra := by
  apply Fin.ext
  simp only [raField, encR_toNat _ _ _ _ _ _ h, Fin.ofNat]; omega

theorem rbField_encR (h : opcode < 256) : rbField (encR opcode rd ra rb rc n) = rb := by
  apply Fin.ext
  simp only [rbField, encR_toNat _ _ _ _ _ _ h, Fin.ofNat]; omega

theorem rcField_encR (h : opcode < 256) : rcField (encR opcode rd ra rb rc n) = rc := by
  apply Fin.ext
  simp only [rcField, encR_toNat _ _ _ _ _ _ h, Fin.ofNat]; omega

theorem imm8Field_encR (h : opcode < 256) : imm8Field (encR opcode rd ra rb rc n) = n % 2 ^ 8 := by
  rw [imm8Field, encR_toNat _ _ _ _ _ _ h]; omega

theorem opcodeField_encM (h : opcode < 256) : opcodeField (encM opcode rd ra n) = opcode := by
  rw [opcodeField, encM_toNat _ _ _ _ h]; omega

theorem rdField_encM (h : opcode < 256) : rdField (encM opcode rd ra n) = rd := by
  apply Fin.ext
  simp only [rdField, encM_toNat _ _ _ _ h, Fin.ofNat]; omega

theorem raField_encM (h : opcode < 256) : raField (encM opcode rd ra n) = ra := by
  apply Fin.ext
  simp only [raField, encM_toNat _ _ _ _ h, Fin.ofNat]; omega

theorem imm16Field_encM (h : opcode < 256) : imm16Field (encM opcode rd ra n) = n % 2 ^ 16 := by
  rw [imm16Field, encM_toNat _ _ _ _ h]; omega

/-- A word is the format R word of its fields (30_encoding.md R151). -/
theorem encR_fields : encR (opcodeField w) (rdField w) (raField w) (rbField w) (rcField w) (imm8Field w) = w := by
  apply BitVec.eq_of_toNat_eq
  have := w.isLt
  simp only [encR, BitVec.toNat_ofNat, opcodeField, rdField, raField, rbField, rcField, imm8Field, Fin.ofNat]
  omega

/-- A word is the format M word of its fields (30_encoding.md R152). -/
theorem encM_fields : encM (opcodeField w) (rdField w) (raField w) (imm16Field w) = w := by
  apply BitVec.eq_of_toNat_eq
  have := w.isLt
  simp only [encM, BitVec.toNat_ofNat, opcodeField, rdField, raField, imm16Field, Fin.ofNat]
  omega

@[simp] theorem whenZero_eq_some {z : Bool} {i j : Instr} : whenZero z i = some j ↔ z = true ∧ i = j := by
  cases z <;> simp [whenZero]

end Sys2Proof
end

