-- ==== Sys2Proof/Laws/Memory.lean ====
section
/-! SUPPORT. The laws of the sparse memory: read after write, and the canonical form is kept. -/

namespace Sys2Proof.Machine

variable {β : Type}

theorem Memory.read_append (m n : List (Nat × β)) (b : Nat) :
    Memory.read (m ++ n) b = (Memory.read m b).or (Memory.read n b) := by
  induction m with
  | nil => simp [Memory.read]
  | cons c m ih =>
    obtain ⟨a, v⟩ := c
    by_cases h : a = b <;> simp [Memory.read, h, ih]

theorem Memory.read_filter (m : List (Nat × β)) (keep : Nat → Bool) (b : Nat) :
    Memory.read (m.filter fun c => keep c.1) b = if keep b then Memory.read m b else none := by
  induction m with
  | nil => simp [Memory.read]
  | cons c m ih =>
    obtain ⟨a, v⟩ := c
    by_cases h : a = b
    · subst h
      by_cases k : keep a <;> simp [Memory.read, k, ih]
    · by_cases k : keep a <;> simp [Memory.read, k, ih, h]

theorem Memory.read_run (a : Nat) (vs : List β) (b : Nat) :
    Memory.read (Memory.run a vs) b = if a ≤ b then vs[b - a]? else none := by
  induction vs generalizing a with
  | nil => simp [Memory.run, Memory.read]
  | cons v vs ih =>
    simp only [Memory.run, Memory.read, ih]
    by_cases h : a = b
    · simp [h]
    · by_cases k : a ≤ b
      · have e : b - a = (b - (a + 1)) + 1 := by omega
        simp [h, k, e, show a + 1 ≤ b by omega]
      · simp [h, k, show ¬ a + 1 ≤ b by omega]

/-- Read after write: inside the written run, the written value; outside, what was there. -/
theorem Memory.read_writeRun (m : List (Nat × β)) (a : Nat) (vs : List β) (b : Nat) :
    Memory.read (Memory.writeRun m a vs) b =
      if a ≤ b ∧ b < a + vs.length then vs[b - a]? else Memory.read m b := by
  simp only [Memory.writeRun, Memory.read_append, Memory.read_run,
    Memory.read_filter m (fun k => decide (k < a)), Memory.read_filter m (fun k => decide (a + vs.length ≤ k))]
  by_cases h : a ≤ b
  · by_cases k : b < a + vs.length
    · simp [h, k, show ¬ b < a by omega, show ¬ a + vs.length ≤ b by omega]
    · simp [h, k, show ¬ b < a by omega, show a + vs.length ≤ b by omega,
        List.getElem?_eq_none (show vs.length ≤ b - a by omega)]
  · simp [h, show b < a by omega, show ¬ a + vs.length ≤ b by omega]

theorem Memory.read_writeRun_outside (m : List (Nat × β)) (a : Nat) (vs : List β) (b : Nat)
    (h : b < a ∨ a + vs.length ≤ b) : Memory.read (Memory.writeRun m a vs) b = Memory.read m b := by
  rw [Memory.read_writeRun, if_neg (by omega)]

theorem Memory.mem_run {a : Nat} {vs : List β} {c : Nat × β} (h : c ∈ Memory.run a vs) :
    a ≤ c.1 ∧ c.1 < a + vs.length := by
  induction vs generalizing a with
  | nil => simp [Memory.run] at h
  | cons v vs ih =>
    simp only [Memory.run, List.mem_cons] at h
    rcases h with rfl | h
    · simp
    · have := ih h
      simp only [List.length_cons]
      omega

theorem Memory.wf_run (a : Nat) (vs : List β) : Memory.wf (Memory.run a vs) := by
  induction vs generalizing a with
  | nil => simp [Memory.run]
  | cons v vs ih =>
    simp only [Memory.wf, Memory.run, List.pairwise_cons]
    exact ⟨fun c hc => by have := Memory.mem_run hc; omega, ih (a + 1)⟩

/-- Every write keeps the canonical form. -/
theorem Memory.wf_writeRun {m : List (Nat × β)} (h : Memory.wf m) (a : Nat) (vs : List β) :
    Memory.wf (Memory.writeRun m a vs) := by
  simp only [Memory.wf, Memory.writeRun, List.pairwise_append, List.mem_append, List.mem_filter,
    decide_eq_true_eq]
  refine ⟨⟨h.filter _, Memory.wf_run a vs, ?_⟩, h.filter _, ?_⟩
  · rintro c ⟨_, hc⟩ d hd
    have := Memory.mem_run hd
    omega
  · rintro c (⟨_, hc⟩ | hc) d ⟨_, hd⟩
    · omega
    · have := Memory.mem_run hc
      omega

/-- A write inside the address space keeps every entry inside it. -/
theorem Memory.within_writeRun {m : List (Nat × β)} {size : Nat} (h : Memory.within size m) (a : Nat) (vs : List β)
    (fits : a + vs.length ≤ size) : Memory.within size (Memory.writeRun m a vs) := by
  intro c hc
  simp only [Memory.writeRun, List.mem_append, List.mem_filter] at hc
  rcases hc with (⟨hc, _⟩ | hc) | ⟨hc, _⟩
  · exact h c hc
  · have := Memory.mem_run hc
    omega
  · exact h c hc

theorem Memory.read_eq_none_of_within {m : List (Nat × β)} {size : Nat} (h : Memory.within size m) {a : Nat}
    (ha : size ≤ a) : Memory.read m a = none := by
  induction m with
  | nil => rfl
  | cons c m ih =>
    obtain ⟨b, v⟩ := c
    have hb := h (b, v) (by simp)
    simp only at hb
    rw [Memory.read, if_neg (by omega)]
    exact ih fun d hd => h d (by simp [hd])

/-- Two memories in canonical form that read alike are the same list. -/
theorem Memory.ext_of_wf {m n : List (Nat × β)} (hm : Memory.wf m) (hn : Memory.wf n)
    (h : ∀ a, Memory.read m a = Memory.read n a) : m = n := by
  have none_of_lt : ∀ {l : List (Nat × β)} {b : Nat} (_ : ∀ c ∈ l, b < c.1), Memory.read l b = none := by
    intro l b hl
    induction l with
    | nil => rfl
    | cons c l ih =>
      obtain ⟨a, v⟩ := c
      have ha := hl (a, v) (by simp)
      simp only at ha
      rw [Memory.read, if_neg (by omega)]
      exact ih fun d hd => hl d (by simp [hd])
  induction m generalizing n with
  | nil =>
    cases n with
    | nil => rfl
    | cons c n =>
      obtain ⟨a, v⟩ := c
      have := h a
      simp [Memory.read] at this
  | cons c m ih =>
    obtain ⟨a, v⟩ := c
    cases n with
    | nil =>
      have := h a
      simp [Memory.read] at this
    | cons d n =>
      obtain ⟨b, w⟩ := d
      simp only [Memory.wf, List.pairwise_cons] at hm hn
      have ha := h a
      have hb := h b
      rcases Nat.lt_trichotomy a b with lt | rfl | lt
      · simp only [Memory.read, if_true, if_neg (show ¬ b = a by omega)] at ha
        rw [none_of_lt fun c hc => by have := hn.1 c hc; omega] at ha
        simp at ha
      · simp only [Memory.read, if_true, Option.some.injEq] at ha
        subst ha
        congr 1
        apply ih hm.2 hn.2
        intro c
        by_cases e : a = c
        · subst e
          rw [none_of_lt hm.1, none_of_lt hn.1]
        · have := h c
          simpa [Memory.read, e] using this
      · simp only [Memory.read, if_true, if_neg (show ¬ a = b by omega)] at hb
        rw [none_of_lt fun c hc => by have := hm.1 c hc; omega] at hb
        simp at hb

end Sys2Proof.Machine
end

