-- ==== Sys2Proof/Laws/State.lean ====
section
/-! SUPPORT. One lemma per field per update of the state, so that no later proof unfolds a record update. -/

namespace Sys2Proof.Machine

variable (s : State)

/-! ## `setReg` -/

@[simp] theorem State.setReg_params (r : Reg) (v : Nat) : (s.setReg r v).params = s.params := rfl
@[simp] theorem State.setReg_regs (r : Reg) (v : Nat) : (s.setReg r v).regs = s.regs.set r.val (v % 2 ^ s.params.regBits) := rfl
@[simp] theorem State.setReg_written (r : Reg) (v : Nat) : (s.setReg r v).written = s.written.set r.val true := rfl
@[simp] theorem State.setReg_pc (r : Reg) (v : Nat) : (s.setReg r v).pc = s.pc := rfl
@[simp] theorem State.setReg_status (r : Reg) (v : Nat) : (s.setReg r v).status = s.status := rfl
@[simp] theorem State.setReg_faultPc (r : Reg) (v : Nat) : (s.setReg r v).faultPc = s.faultPc := rfl
@[simp] theorem State.setReg_v (r : Reg) (v : Nat) : (s.setReg r v).v = s.v := rfl
@[simp] theorem State.setReg_fmode (r : Reg) (v : Nat) : (s.setReg r v).fmode = s.fmode := rfl
@[simp] theorem State.setReg_be (r : Reg) (v : Nat) : (s.setReg r v).be = s.be := rfl
@[simp] theorem State.setReg_fvalid (r : Reg) (v : Nat) : (s.setReg r v).fvalid = s.fvalid := rfl
@[simp] theorem State.setReg_p (r : Reg) (v : Nat) : (s.setReg r v).p = s.p := rfl
@[simp] theorem State.setReg_minv (r : Reg) (v : Nat) : (s.setReg r v).minv = s.minv := rfl
@[simp] theorem State.setReg_bbase (r : Reg) (v : Nat) : (s.setReg r v).bbase = s.bbase := rfl
@[simp] theorem State.setReg_blen (r : Reg) (v : Nat) : (s.setReg r v).blen = s.blen := rfl
@[simp] theorem State.setReg_nnode (r : Reg) (v : Nat) : (s.setReg r v).nnode = s.nnode := rfl
@[simp] theorem State.setReg_xbase (r : Reg) (v : Nat) : (s.setReg r v).xbase = s.xbase := rfl
@[simp] theorem State.setReg_dm (r : Reg) (v : Nat) : (s.setReg r v).dm = s.dm := rfl
@[simp] theorem State.setReg_cm (r : Reg) (v : Nat) : (s.setReg r v).cm = s.cm := rfl

/-! ## `setHalves` -/

@[simp] theorem State.setHalves_params (rd rc : Reg) (low high : Nat) : (s.setHalves rd rc low high).params = s.params := rfl
@[simp] theorem State.setHalves_pc (rd rc : Reg) (low high : Nat) : (s.setHalves rd rc low high).pc = s.pc := rfl
@[simp] theorem State.setHalves_status (rd rc : Reg) (low high : Nat) : (s.setHalves rd rc low high).status = s.status := rfl
@[simp] theorem State.setHalves_faultPc (rd rc : Reg) (low high : Nat) : (s.setHalves rd rc low high).faultPc = s.faultPc := rfl
@[simp] theorem State.setHalves_v (rd rc : Reg) (low high : Nat) : (s.setHalves rd rc low high).v = s.v := rfl
@[simp] theorem State.setHalves_fmode (rd rc : Reg) (low high : Nat) : (s.setHalves rd rc low high).fmode = s.fmode := rfl
@[simp] theorem State.setHalves_be (rd rc : Reg) (low high : Nat) : (s.setHalves rd rc low high).be = s.be := rfl
@[simp] theorem State.setHalves_fvalid (rd rc : Reg) (low high : Nat) : (s.setHalves rd rc low high).fvalid = s.fvalid := rfl
@[simp] theorem State.setHalves_p (rd rc : Reg) (low high : Nat) : (s.setHalves rd rc low high).p = s.p := rfl
@[simp] theorem State.setHalves_minv (rd rc : Reg) (low high : Nat) : (s.setHalves rd rc low high).minv = s.minv := rfl
@[simp] theorem State.setHalves_bbase (rd rc : Reg) (low high : Nat) : (s.setHalves rd rc low high).bbase = s.bbase := rfl
@[simp] theorem State.setHalves_blen (rd rc : Reg) (low high : Nat) : (s.setHalves rd rc low high).blen = s.blen := rfl
@[simp] theorem State.setHalves_nnode (rd rc : Reg) (low high : Nat) : (s.setHalves rd rc low high).nnode = s.nnode := rfl
@[simp] theorem State.setHalves_xbase (rd rc : Reg) (low high : Nat) : (s.setHalves rd rc low high).xbase = s.xbase := rfl
@[simp] theorem State.setHalves_dm (rd rc : Reg) (low high : Nat) : (s.setHalves rd rc low high).dm = s.dm := rfl
@[simp] theorem State.setHalves_cm (rd rc : Reg) (low high : Nat) : (s.setHalves rd rc low high).cm = s.cm := rfl

/-! ## `memWrite` -/

@[simp] theorem State.memWrite_params (a n v : Nat) : (s.memWrite a n v).params = s.params := rfl
@[simp] theorem State.memWrite_regs (a n v : Nat) : (s.memWrite a n v).regs = s.regs := rfl
@[simp] theorem State.memWrite_written (a n v : Nat) : (s.memWrite a n v).written = s.written := rfl
@[simp] theorem State.memWrite_pc (a n v : Nat) : (s.memWrite a n v).pc = s.pc := rfl
@[simp] theorem State.memWrite_status (a n v : Nat) : (s.memWrite a n v).status = s.status := rfl
@[simp] theorem State.memWrite_faultPc (a n v : Nat) : (s.memWrite a n v).faultPc = s.faultPc := rfl
@[simp] theorem State.memWrite_v (a n v : Nat) : (s.memWrite a n v).v = s.v := rfl
@[simp] theorem State.memWrite_fmode (a n v : Nat) : (s.memWrite a n v).fmode = s.fmode := rfl
@[simp] theorem State.memWrite_be (a n v : Nat) : (s.memWrite a n v).be = s.be := rfl
@[simp] theorem State.memWrite_fvalid (a n v : Nat) : (s.memWrite a n v).fvalid = s.fvalid := rfl
@[simp] theorem State.memWrite_p (a n v : Nat) : (s.memWrite a n v).p = s.p := rfl
@[simp] theorem State.memWrite_minv (a n v : Nat) : (s.memWrite a n v).minv = s.minv := rfl
@[simp] theorem State.memWrite_bbase (a n v : Nat) : (s.memWrite a n v).bbase = s.bbase := rfl
@[simp] theorem State.memWrite_blen (a n v : Nat) : (s.memWrite a n v).blen = s.blen := rfl
@[simp] theorem State.memWrite_nnode (a n v : Nat) : (s.memWrite a n v).nnode = s.nnode := rfl
@[simp] theorem State.memWrite_xbase (a n v : Nat) : (s.memWrite a n v).xbase = s.xbase := rfl
@[simp] theorem State.memWrite_cm (a n v : Nat) : (s.memWrite a n v).cm = s.cm := rfl

/-! ## `writeArray` -/

@[simp] theorem State.writeArray_params (a : Nat) (ys : List Nat) : (s.writeArray a ys).params = s.params := rfl
@[simp] theorem State.writeArray_regs (a : Nat) (ys : List Nat) : (s.writeArray a ys).regs = s.regs := rfl
@[simp] theorem State.writeArray_written (a : Nat) (ys : List Nat) : (s.writeArray a ys).written = s.written := rfl
@[simp] theorem State.writeArray_pc (a : Nat) (ys : List Nat) : (s.writeArray a ys).pc = s.pc := rfl
@[simp] theorem State.writeArray_status (a : Nat) (ys : List Nat) : (s.writeArray a ys).status = s.status := rfl
@[simp] theorem State.writeArray_faultPc (a : Nat) (ys : List Nat) : (s.writeArray a ys).faultPc = s.faultPc := rfl
@[simp] theorem State.writeArray_v (a : Nat) (ys : List Nat) : (s.writeArray a ys).v = s.v := rfl
@[simp] theorem State.writeArray_fmode (a : Nat) (ys : List Nat) : (s.writeArray a ys).fmode = s.fmode := rfl
@[simp] theorem State.writeArray_be (a : Nat) (ys : List Nat) : (s.writeArray a ys).be = s.be := rfl
@[simp] theorem State.writeArray_fvalid (a : Nat) (ys : List Nat) : (s.writeArray a ys).fvalid = s.fvalid := rfl
@[simp] theorem State.writeArray_p (a : Nat) (ys : List Nat) : (s.writeArray a ys).p = s.p := rfl
@[simp] theorem State.writeArray_minv (a : Nat) (ys : List Nat) : (s.writeArray a ys).minv = s.minv := rfl
@[simp] theorem State.writeArray_bbase (a : Nat) (ys : List Nat) : (s.writeArray a ys).bbase = s.bbase := rfl
@[simp] theorem State.writeArray_blen (a : Nat) (ys : List Nat) : (s.writeArray a ys).blen = s.blen := rfl
@[simp] theorem State.writeArray_nnode (a : Nat) (ys : List Nat) : (s.writeArray a ys).nnode = s.nnode := rfl
@[simp] theorem State.writeArray_xbase (a : Nat) (ys : List Nat) : (s.writeArray a ys).xbase = s.xbase := rfl
@[simp] theorem State.writeArray_cm (a : Nat) (ys : List Nat) : (s.writeArray a ys).cm = s.cm := rfl

/-! ## `advance` -/

@[simp] theorem State.advance_params : (s.advance).params = s.params := rfl
@[simp] theorem State.advance_regs : (s.advance).regs = s.regs := rfl
@[simp] theorem State.advance_written : (s.advance).written = s.written := rfl
@[simp] theorem State.advance_pc : (s.advance).pc = s.pc + 1 := rfl
@[simp] theorem State.advance_status : (s.advance).status = s.status := rfl
@[simp] theorem State.advance_faultPc : (s.advance).faultPc = s.faultPc := rfl
@[simp] theorem State.advance_v : (s.advance).v = s.v := rfl
@[simp] theorem State.advance_fmode : (s.advance).fmode = s.fmode := rfl
@[simp] theorem State.advance_be : (s.advance).be = s.be := rfl
@[simp] theorem State.advance_fvalid : (s.advance).fvalid = s.fvalid := rfl
@[simp] theorem State.advance_p : (s.advance).p = s.p := rfl
@[simp] theorem State.advance_minv : (s.advance).minv = s.minv := rfl
@[simp] theorem State.advance_bbase : (s.advance).bbase = s.bbase := rfl
@[simp] theorem State.advance_blen : (s.advance).blen = s.blen := rfl
@[simp] theorem State.advance_nnode : (s.advance).nnode = s.nnode := rfl
@[simp] theorem State.advance_xbase : (s.advance).xbase = s.xbase := rfl
@[simp] theorem State.advance_dm : (s.advance).dm = s.dm := rfl
@[simp] theorem State.advance_cm : (s.advance).cm = s.cm := rfl

/-! ## `branch` -/

@[simp] theorem State.branch_params (off : Int) : (s.branch off).params = s.params := rfl
@[simp] theorem State.branch_regs (off : Int) : (s.branch off).regs = s.regs := rfl
@[simp] theorem State.branch_written (off : Int) : (s.branch off).written = s.written := rfl
@[simp] theorem State.branch_pc (off : Int) : (s.branch off).pc = s.pc + BitVec.ofInt 32 off := rfl
@[simp] theorem State.branch_status (off : Int) : (s.branch off).status = s.status := rfl
@[simp] theorem State.branch_faultPc (off : Int) : (s.branch off).faultPc = s.faultPc := rfl
@[simp] theorem State.branch_v (off : Int) : (s.branch off).v = s.v := rfl
@[simp] theorem State.branch_fmode (off : Int) : (s.branch off).fmode = s.fmode := rfl
@[simp] theorem State.branch_be (off : Int) : (s.branch off).be = s.be := rfl
@[simp] theorem State.branch_fvalid (off : Int) : (s.branch off).fvalid = s.fvalid := rfl
@[simp] theorem State.branch_p (off : Int) : (s.branch off).p = s.p := rfl
@[simp] theorem State.branch_minv (off : Int) : (s.branch off).minv = s.minv := rfl
@[simp] theorem State.branch_bbase (off : Int) : (s.branch off).bbase = s.bbase := rfl
@[simp] theorem State.branch_blen (off : Int) : (s.branch off).blen = s.blen := rfl
@[simp] theorem State.branch_nnode (off : Int) : (s.branch off).nnode = s.nnode := rfl
@[simp] theorem State.branch_xbase (off : Int) : (s.branch off).xbase = s.xbase := rfl
@[simp] theorem State.branch_dm (off : Int) : (s.branch off).dm = s.dm := rfl
@[simp] theorem State.branch_cm (off : Int) : (s.branch off).cm = s.cm := rfl

/-! ## `faultEntry` -/

@[simp] theorem State.faultEntry_params (c : Cause) : (s.faultEntry c).params = s.params := rfl
@[simp] theorem State.faultEntry_regs (c : Cause) : (s.faultEntry c).regs = s.regs := rfl
@[simp] theorem State.faultEntry_written (c : Cause) : (s.faultEntry c).written = s.written := rfl
@[simp] theorem State.faultEntry_pc (c : Cause) : (s.faultEntry c).pc = s.pc := rfl
@[simp] theorem State.faultEntry_status (c : Cause) : (s.faultEntry c).status = ⟨false, true, true, c⟩ := rfl
@[simp] theorem State.faultEntry_faultPc (c : Cause) : (s.faultEntry c).faultPc = s.pc := rfl
@[simp] theorem State.faultEntry_v (c : Cause) : (s.faultEntry c).v = s.v := rfl
@[simp] theorem State.faultEntry_fmode (c : Cause) : (s.faultEntry c).fmode = s.fmode := rfl
@[simp] theorem State.faultEntry_be (c : Cause) : (s.faultEntry c).be = s.be := rfl
@[simp] theorem State.faultEntry_fvalid (c : Cause) : (s.faultEntry c).fvalid = s.fvalid := rfl
@[simp] theorem State.faultEntry_p (c : Cause) : (s.faultEntry c).p = s.p := rfl
@[simp] theorem State.faultEntry_minv (c : Cause) : (s.faultEntry c).minv = s.minv := rfl
@[simp] theorem State.faultEntry_bbase (c : Cause) : (s.faultEntry c).bbase = s.bbase := rfl
@[simp] theorem State.faultEntry_blen (c : Cause) : (s.faultEntry c).blen = s.blen := rfl
@[simp] theorem State.faultEntry_nnode (c : Cause) : (s.faultEntry c).nnode = s.nnode := rfl
@[simp] theorem State.faultEntry_xbase (c : Cause) : (s.faultEntry c).xbase = s.xbase := rfl
@[simp] theorem State.faultEntry_dm (c : Cause) : (s.faultEntry c).dm = s.dm := rfl
@[simp] theorem State.faultEntry_cm (c : Cause) : (s.faultEntry c).cm = s.cm := rfl

/-! ## `setV` -/

@[simp] theorem State.setV_params (b : Bool) : (s.setV b).params = s.params := rfl
@[simp] theorem State.setV_regs (b : Bool) : (s.setV b).regs = s.regs := rfl
@[simp] theorem State.setV_written (b : Bool) : (s.setV b).written = s.written := rfl
@[simp] theorem State.setV_pc (b : Bool) : (s.setV b).pc = s.pc := rfl
@[simp] theorem State.setV_status (b : Bool) : (s.setV b).status = s.status := rfl
@[simp] theorem State.setV_faultPc (b : Bool) : (s.setV b).faultPc = s.faultPc := rfl
@[simp] theorem State.setV_v (b : Bool) : (s.setV b).v = b := rfl
@[simp] theorem State.setV_fmode (b : Bool) : (s.setV b).fmode = s.fmode := rfl
@[simp] theorem State.setV_be (b : Bool) : (s.setV b).be = s.be := rfl
@[simp] theorem State.setV_fvalid (b : Bool) : (s.setV b).fvalid = s.fvalid := rfl
@[simp] theorem State.setV_p (b : Bool) : (s.setV b).p = s.p := rfl
@[simp] theorem State.setV_minv (b : Bool) : (s.setV b).minv = s.minv := rfl
@[simp] theorem State.setV_bbase (b : Bool) : (s.setV b).bbase = s.bbase := rfl
@[simp] theorem State.setV_blen (b : Bool) : (s.setV b).blen = s.blen := rfl
@[simp] theorem State.setV_nnode (b : Bool) : (s.setV b).nnode = s.nnode := rfl
@[simp] theorem State.setV_xbase (b : Bool) : (s.setV b).xbase = s.xbase := rfl
@[simp] theorem State.setV_dm (b : Bool) : (s.setV b).dm = s.dm := rfl
@[simp] theorem State.setV_cm (b : Bool) : (s.setV b).cm = s.cm := rfl

/-! ## `writeBytes` -/

@[simp] theorem State.writeBytes_params (a : Nat) (bs : List Byte) : (s.writeBytes a bs).params = s.params := rfl
@[simp] theorem State.writeBytes_regs (a : Nat) (bs : List Byte) : (s.writeBytes a bs).regs = s.regs := rfl
@[simp] theorem State.writeBytes_written (a : Nat) (bs : List Byte) : (s.writeBytes a bs).written = s.written := rfl
@[simp] theorem State.writeBytes_pc (a : Nat) (bs : List Byte) : (s.writeBytes a bs).pc = s.pc := rfl
@[simp] theorem State.writeBytes_status (a : Nat) (bs : List Byte) : (s.writeBytes a bs).status = s.status := rfl
@[simp] theorem State.writeBytes_faultPc (a : Nat) (bs : List Byte) : (s.writeBytes a bs).faultPc = s.faultPc := rfl
@[simp] theorem State.writeBytes_v (a : Nat) (bs : List Byte) : (s.writeBytes a bs).v = s.v := rfl
@[simp] theorem State.writeBytes_fmode (a : Nat) (bs : List Byte) : (s.writeBytes a bs).fmode = s.fmode := rfl
@[simp] theorem State.writeBytes_be (a : Nat) (bs : List Byte) : (s.writeBytes a bs).be = s.be := rfl
@[simp] theorem State.writeBytes_fvalid (a : Nat) (bs : List Byte) : (s.writeBytes a bs).fvalid = s.fvalid := rfl
@[simp] theorem State.writeBytes_p (a : Nat) (bs : List Byte) : (s.writeBytes a bs).p = s.p := rfl
@[simp] theorem State.writeBytes_minv (a : Nat) (bs : List Byte) : (s.writeBytes a bs).minv = s.minv := rfl
@[simp] theorem State.writeBytes_bbase (a : Nat) (bs : List Byte) : (s.writeBytes a bs).bbase = s.bbase := rfl
@[simp] theorem State.writeBytes_blen (a : Nat) (bs : List Byte) : (s.writeBytes a bs).blen = s.blen := rfl
@[simp] theorem State.writeBytes_nnode (a : Nat) (bs : List Byte) : (s.writeBytes a bs).nnode = s.nnode := rfl
@[simp] theorem State.writeBytes_xbase (a : Nat) (bs : List Byte) : (s.writeBytes a bs).xbase = s.xbase := rfl
@[simp] theorem State.writeBytes_dm (a : Nat) (bs : List Byte) : (s.writeBytes a bs).dm = Memory.writeRun s.dm a bs := rfl
@[simp] theorem State.writeBytes_cm (a : Nat) (bs : List Byte) : (s.writeBytes a bs).cm = s.cm := rfl

/-! ## `writeCommand` -/

@[simp] theorem State.writeCommand_params (a : Nat) (w : Word) : (s.writeCommand a w).params = s.params := rfl
@[simp] theorem State.writeCommand_regs (a : Nat) (w : Word) : (s.writeCommand a w).regs = s.regs := rfl
@[simp] theorem State.writeCommand_written (a : Nat) (w : Word) : (s.writeCommand a w).written = s.written := rfl
@[simp] theorem State.writeCommand_pc (a : Nat) (w : Word) : (s.writeCommand a w).pc = s.pc := rfl
@[simp] theorem State.writeCommand_status (a : Nat) (w : Word) : (s.writeCommand a w).status = s.status := rfl
@[simp] theorem State.writeCommand_faultPc (a : Nat) (w : Word) : (s.writeCommand a w).faultPc = s.faultPc := rfl
@[simp] theorem State.writeCommand_v (a : Nat) (w : Word) : (s.writeCommand a w).v = s.v := rfl
@[simp] theorem State.writeCommand_fmode (a : Nat) (w : Word) : (s.writeCommand a w).fmode = s.fmode := rfl
@[simp] theorem State.writeCommand_be (a : Nat) (w : Word) : (s.writeCommand a w).be = s.be := rfl
@[simp] theorem State.writeCommand_fvalid (a : Nat) (w : Word) : (s.writeCommand a w).fvalid = s.fvalid := rfl
@[simp] theorem State.writeCommand_p (a : Nat) (w : Word) : (s.writeCommand a w).p = s.p := rfl
@[simp] theorem State.writeCommand_minv (a : Nat) (w : Word) : (s.writeCommand a w).minv = s.minv := rfl
@[simp] theorem State.writeCommand_bbase (a : Nat) (w : Word) : (s.writeCommand a w).bbase = s.bbase := rfl
@[simp] theorem State.writeCommand_blen (a : Nat) (w : Word) : (s.writeCommand a w).blen = s.blen := rfl
@[simp] theorem State.writeCommand_nnode (a : Nat) (w : Word) : (s.writeCommand a w).nnode = s.nnode := rfl
@[simp] theorem State.writeCommand_xbase (a : Nat) (w : Word) : (s.writeCommand a w).xbase = s.xbase := rfl
@[simp] theorem State.writeCommand_dm (a : Nat) (w : Word) : (s.writeCommand a w).dm = s.dm := rfl
@[simp] theorem State.writeCommand_cm (a : Nat) (w : Word) : (s.writeCommand a w).cm = Memory.writeRun s.cm a [w] := rfl

/-! ## `start` -/

@[simp] theorem State.start_params (w : Word) : (s.start w).params = s.params := rfl
@[simp] theorem State.start_regs (w : Word) : (s.start w).regs = s.regs := rfl
@[simp] theorem State.start_written (w : Word) : (s.start w).written = s.written := rfl
@[simp] theorem State.start_pc (w : Word) : (s.start w).pc = w := rfl
@[simp] theorem State.start_status (w : Word) : (s.start w).status = ⟨true, false, false, .none⟩ := rfl
@[simp] theorem State.start_faultPc (w : Word) : (s.start w).faultPc = s.faultPc := rfl
@[simp] theorem State.start_v (w : Word) : (s.start w).v = s.v := rfl
@[simp] theorem State.start_fmode (w : Word) : (s.start w).fmode = s.fmode := rfl
@[simp] theorem State.start_be (w : Word) : (s.start w).be = s.be := rfl
@[simp] theorem State.start_fvalid (w : Word) : (s.start w).fvalid = s.fvalid := rfl
@[simp] theorem State.start_p (w : Word) : (s.start w).p = s.p := rfl
@[simp] theorem State.start_minv (w : Word) : (s.start w).minv = s.minv := rfl
@[simp] theorem State.start_bbase (w : Word) : (s.start w).bbase = s.bbase := rfl
@[simp] theorem State.start_blen (w : Word) : (s.start w).blen = s.blen := rfl
@[simp] theorem State.start_nnode (w : Word) : (s.start w).nnode = s.nnode := rfl
@[simp] theorem State.start_xbase (w : Word) : (s.start w).xbase = s.xbase := rfl
@[simp] theorem State.start_dm (w : Word) : (s.start w).dm = s.dm := rfl
@[simp] theorem State.start_cm (w : Word) : (s.start w).cm = s.cm := rfl

/-! ## Reading a register or a byte after an update -/

@[simp] theorem State.setReg_x_self (r : Reg) (v : Nat) : (s.setReg r v).x r = v % 2 ^ s.params.regBits := by
  simp [State.x]

theorem State.setReg_x_ne {r q : Reg} (v : Nat) (h : q ≠ r) : (s.setReg r v).x q = s.x q := by
  simp only [State.x, State.setReg_regs]
  exact Vector.getElem_set_ne _ _ (fun e => h (Fin.ext e.symm))

theorem State.setReg_x (r q : Reg) (v : Nat) : (s.setReg r v).x q = if q = r then v % 2 ^ s.params.regBits else s.x q := by
  by_cases h : q = r
  · subst h; simp
  · simp [h, State.setReg_x_ne s v h]

@[simp] theorem State.setReg_written_self (r : Reg) (v : Nat) : (s.setReg r v).written[r.val] = true := by
  simp

theorem State.setReg_written_ne {r q : Reg} (v : Nat) (h : q ≠ r) :
    (s.setReg r v).written[q.val] = s.written[q.val] := by
  simp only [State.setReg_written]
  exact Vector.getElem_set_ne _ _ (fun e => h (Fin.ext e.symm))

@[simp] theorem State.advance_x (r : Reg) : s.advance.x r = s.x r := rfl
@[simp] theorem State.branch_x (off : Int) (r : Reg) : (s.branch off).x r = s.x r := rfl
@[simp] theorem State.faultEntry_x (c : Cause) (r : Reg) : (s.faultEntry c).x r = s.x r := rfl
@[simp] theorem State.setV_x (b : Bool) (r : Reg) : (s.setV b).x r = s.x r := rfl
@[simp] theorem State.writeBytes_x (a : Nat) (bs : List Byte) (r : Reg) : (s.writeBytes a bs).x r = s.x r := rfl
@[simp] theorem State.writeCommand_x (a : Nat) (w : Word) (r : Reg) : (s.writeCommand a w).x r = s.x r := rfl
@[simp] theorem State.start_x (w : Word) (r : Reg) : (s.start w).x r = s.x r := rfl

@[simp] theorem State.setReg_byteAt (r : Reg) (v a : Nat) : (s.setReg r v).byteAt a = s.byteAt a := rfl
@[simp] theorem State.advance_byteAt (a : Nat) : s.advance.byteAt a = s.byteAt a := rfl
@[simp] theorem State.branch_byteAt (off : Int) (a : Nat) : (s.branch off).byteAt a = s.byteAt a := rfl
@[simp] theorem State.faultEntry_byteAt (c : Cause) (a : Nat) : (s.faultEntry c).byteAt a = s.byteAt a := rfl
@[simp] theorem State.setV_byteAt (b : Bool) (a : Nat) : (s.setV b).byteAt a = s.byteAt a := rfl

/-! ## `readCsr` -/

@[simp] theorem State.setReg_readCsr (r : Reg) (v : Nat) (c : Csr) : (s.setReg r v).readCsr c = s.readCsr c := by
  cases c <;> rfl
@[simp] theorem State.setHalves_readCsr (rd rc : Reg) (low high : Nat) (c : Csr) :
    (s.setHalves rd rc low high).readCsr c = s.readCsr c := by cases c <;> rfl
@[simp] theorem State.writeBytes_readCsr (a : Nat) (bs : List Byte) (c : Csr) :
    (s.writeBytes a bs).readCsr c = s.readCsr c := by cases c <;> rfl
@[simp] theorem State.memWrite_readCsr (a n v : Nat) (c : Csr) : (s.memWrite a n v).readCsr c = s.readCsr c := by
  cases c <;> rfl
@[simp] theorem State.writeArray_readCsr (a : Nat) (ys : List Nat) (c : Csr) :
    (s.writeArray a ys).readCsr c = s.readCsr c := by cases c <;> rfl
@[simp] theorem State.advance_readCsr (c : Csr) : s.advance.readCsr c = s.readCsr c := by cases c <;> rfl
@[simp] theorem State.branch_readCsr (off : Int) (c : Csr) : (s.branch off).readCsr c = s.readCsr c := by cases c <;> rfl
theorem State.setV_readCsr (b : Bool) {c : Csr} (h : c ≠ .flags) : (s.setV b).readCsr c = s.readCsr c := by
  cases c <;> first | rfl | exact absurd rfl h

/-- A write of a CSR leaves every other CSR. -/
theorem State.writeCsr_readCsr {s t : State} {v : Nat} {k c : Csr} (h : s.writeCsr v k = some t) (hc : c ≠ k) :
    t.readCsr c = s.readCsr c := by
  cases k <;> simp [State.writeCsr] at h <;> subst h <;> cases c <;> first | rfl | exact absurd rfl hc

end Sys2Proof.Machine
end

