-- ==== Sys2Proof/Laws/Ops.lean ====
section
/-! SUPPORT. What each shared operation can do, said once: the computations, the checks, reads and writes of data memory. -/

namespace Sys2Proof.Machine

/-! ## Computations -/

@[simp] theorem comp_ok_bind {α β : Type} (a : α) (f : α → Comp β) : ((Except.ok a : Comp α) >>= f) = f a := rfl

@[simp] theorem comp_error_bind {α β : Type} (e : Stop) (f : α → Comp β) : ((Except.error e : Comp α) >>= f) = .error e := rfl

/-- A sequence that ends with a value: both parts did. -/
theorem bind_eq_ok {α β : Type} {c : Comp α} {f : α → Comp β} {b : β} :
    (c >>= f) = .ok b ↔ ∃ a, c = .ok a ∧ f a = .ok b := by
  cases c <;> simp

/-- A sequence that ends early: one of its parts did. -/
theorem bind_eq_error {α β : Type} {c : Comp α} {f : α → Comp β} {e : Stop} :
    (c >>= f) = .error e ↔ c = .error e ∨ ∃ a, c = .ok a ∧ f a = .error e := by
  cases c <;> simp

@[simp] theorem require_eq_ok {ok : Bool} {c : Cause} {info : Nat} {u : Unit} : require ok c info = .ok u ↔ ok = true := by
  cases ok <;> simp [require, raise]

@[simp] theorem require_eq_error {ok : Bool} {c : Cause} {info : Nat} {e : Stop} :
    require ok c info = .error e ↔ ok = false ∧ e = .trap c info := by
  cases ok <;> simp [require, raise, eq_comm]

@[simp] theorem require_true (c : Cause) (info : Nat) : require true c info = .ok () := rfl

@[simp] theorem require_false (c : Cause) (info : Nat) : require false c info = .error (.trap c info) := rfl

/-- A list of checks passes exactly when each passes. -/
theorem forAll_eq_ok {f : Nat → Comp Unit} {l : List Nat} {u : Unit} : forAll f l = .ok u ↔ ∀ a ∈ l, f a = .ok () := by
  induction l with
  | nil => simp [forAll]
  | cons a l ih =>
    simp only [forAll, bind_eq_ok, ih, List.forall_mem_cons]
    exact ⟨fun ⟨_, h, g⟩ => ⟨h, g⟩, fun ⟨h, g⟩ => ⟨(), h, g⟩⟩

/-- A list of checks that fails fails as one of them does. -/
theorem forAll_eq_error {f : Nat → Comp Unit} {l : List Nat} {e : Stop} (h : forAll f l = .error e) :
    ∃ a ∈ l, f a = .error e := by
  induction l with
  | nil => simp [forAll] at h
  | cons a l ih =>
    rcases bind_eq_error.1 h with h | ⟨_, _, h⟩
    · exact ⟨a, by simp, h⟩
    · obtain ⟨b, hb, h⟩ := ih h
      exact ⟨b, by simp [hb], h⟩

/-! ## The outcome of a command -/

@[simp] theorem perform_ok (s t : State) : perform s (.ok t) = .next t := rfl

@[simp] theorem perform_trap (s : State) (c : Cause) (info : Nat) :
    perform s (.error (.trap c info)) = .next (s.faultEntry c) := rfl

@[simp] theorem perform_stuck (s : State) (f : Fault) : perform s (.error (.stuck f)) = .fault f := rfl

/-- A command answers a next state exactly when its computation gave it, or raised and it is the fault entry. -/
theorem perform_eq_next {s t : State} {r : Comp State} :
    perform s r = .next t ↔ r = .ok t ∨ ∃ c info, r = .error (.trap c info) ∧ t = s.faultEntry c := by
  match r with
  | .ok u => simp [perform]
  | .error (.trap c info) => simp [perform, eq_comm]
  | .error (.stuck f) => simp [perform]

/-- A command never refuses. -/
theorem perform_ne_refused (s : State) (r : Comp State) (e : Refusal) : perform s r ≠ .refused e := by
  match r with
  | .ok u => simp [perform]
  | .error (.trap c info) => simp [perform]
  | .error (.stuck f) => simp [perform]

/-! ## Data memory -/

@[simp] theorem checkRange_eq_ok {s : State} {a n : Nat} {u : Unit} :
    s.checkRange a n = .ok u ↔ a + n ≤ s.params.dmSize := by
  simp [State.checkRange]

@[simp] theorem checkRange_eq_error {s : State} {a n : Nat} {e : Stop} :
    s.checkRange a n = .error e ↔ s.params.dmSize < a + n ∧ e = .trap .addr a := by
  simp [State.checkRange]

theorem checkRange_ok {s : State} {a n : Nat} (h : a + n ≤ s.params.dmSize) : s.checkRange a n = .ok () := by
  simp [h]

@[simp] theorem readByte_eq_ok {s : State} {a : Nat} {b : Byte} : s.readByte a = .ok b ↔ s.byteAt a = some b := by
  unfold State.readByte
  split <;> simp_all

/-- A run of bytes is read exactly when each is written; they are the bytes read. -/
theorem readBytes_eq_ok {s : State} {a n : Nat} {bs : List Byte} :
    s.readBytes a n = .ok bs ↔ bs.length = n ∧ ∀ k, (h : k < bs.length) → s.byteAt (a + k) = some bs[k] := by
  induction n generalizing a bs with
  | zero => cases bs <;> simp [State.readBytes]
  | succ n ih =>
    cases bs with
    | nil => simp [State.readBytes, bind_eq_ok]
    | cons b bs =>
      simp only [State.readBytes, bind_eq_ok, readByte_eq_ok, ih, Except.ok.injEq, List.cons.injEq, List.length_cons,
        Nat.add_right_cancel_iff]
      constructor
      · rintro ⟨b', hb, bs', ⟨hl, h⟩, rfl, rfl⟩
        refine ⟨hl, fun k hk => ?_⟩
        cases k with
        | zero => simpa using hb
        | succ k => simpa [Nat.add_assoc, Nat.add_comm 1] using h k (by omega)
      · rintro ⟨hl, h⟩
        refine ⟨b, by simpa using h 0 (by omega), bs, ⟨hl, fun k hk => ?_⟩, rfl, rfl⟩
        have := h (k + 1) (by omega)
        rwa [show a + (k + 1) = a + 1 + k by omega] at this

/-- A read of data memory that ends early meets an unwritten byte among those it reads. -/
theorem readBytes_eq_error {s : State} {a n : Nat} {e : Stop} (h : s.readBytes a n = .error e) :
    ∃ b, e = .stuck (.unwrittenData b) ∧ a ≤ b ∧ b < a + n ∧ s.byteAt b = none := by
  induction n generalizing a with
  | zero => simp [State.readBytes] at h
  | succ n ih =>
    rcases bind_eq_error.1 h with h | ⟨_, _, h⟩
    · unfold State.readByte at h
      split at h
      · simp at h
      · exact ⟨a, by simpa [eq_comm] using h, by omega, by omega, ‹_›⟩
    · rcases bind_eq_error.1 h with h | ⟨_, _, h⟩
      · obtain ⟨b, h1, h2, h3, h4⟩ := ih h
        exact ⟨b, h1, by omega, by omega, h4⟩
      · simp at h

theorem memRead_eq_ok {s : State} {a n v : Nat} :
    s.memRead a n = .ok v ↔ ∃ bs, s.readBytes a n = .ok bs ∧ v = leValue bs := by
  simp only [State.memRead, bind_eq_ok, Except.ok.injEq, eq_comm (a := v)]

theorem memRead_eq_error {s : State} {a n : Nat} {e : Stop} (h : s.memRead a n = .error e) :
    ∃ b, e = .stuck (.unwrittenData b) ∧ a ≤ b ∧ b < a + n ∧ s.byteAt b = none := by
  rcases bind_eq_error.1 h with h | ⟨_, _, h⟩
  · exact readBytes_eq_error h
  · simp at h

theorem memRead_lt {s : State} {a n v : Nat} (h : s.memRead a n = .ok v) : v < 2 ^ (8 * n) := by
  obtain ⟨bs, hb, rfl⟩ := memRead_eq_ok.1 h
  have := leValue_lt bs
  rwa [(readBytes_eq_ok.1 hb).1] at this

/-- Reading the bytes just written. -/
theorem readBytes_writeBytes (s : State) (a : Nat) (bs : List Byte) :
    (s.writeBytes a bs).readBytes a bs.length = .ok bs := by
  refine readBytes_eq_ok.2 ⟨rfl, fun k hk => ?_⟩
  rw [State.byteAt, State.writeBytes_dm, Memory.read_writeRun, if_pos (by omega)]
  simp

theorem memRead_memWrite (s : State) (a n v : Nat) : (s.memWrite a n v).memRead a n = .ok (v % 2 ^ (8 * n)) := by
  refine memRead_eq_ok.2 ⟨leBytes n v, ?_, (leValue_leBytes n v).symm⟩
  have := readBytes_writeBytes s a (leBytes n v)
  rwa [leBytes_length] at this

/-- A byte outside the written run reads as before. -/
theorem writeBytes_byteAt_outside (s : State) (a : Nat) (bs : List Byte) {b : Nat} (h : b < a ∨ a + bs.length ≤ b) :
    (s.writeBytes a bs).byteAt b = s.byteAt b :=
  Memory.read_writeRun_outside s.dm a bs b h

/-- A byte of the written run is what was written. -/
theorem writeBytes_byteAt_inside (s : State) (a : Nat) (bs : List Byte) {k : Nat} (h : k < bs.length) :
    (s.writeBytes a bs).byteAt (a + k) = some bs[k] := by
  rw [State.byteAt, State.writeBytes_dm, Memory.read_writeRun, if_pos (by omega)]
  simp [h]

/-- An array is read exactly when each of its elements is. -/
theorem readArray_eq_ok {s : State} {a n : Nat} {es : List Nat} :
    s.readArray a n = .ok es ↔
      es.length = n ∧ ∀ k, (h : k < es.length) → s.elemRead (a + k * s.params.elemBytes) = .ok es[k] := by
  induction n generalizing a es with
  | zero => cases es <;> simp [State.readArray]
  | succ n ih =>
    cases es with
    | nil => simp [State.readArray, bind_eq_ok]
    | cons e es =>
      simp only [State.readArray, bind_eq_ok, ih, Except.ok.injEq, List.cons.injEq, List.length_cons,
        Nat.add_right_cancel_iff]
      constructor
      · rintro ⟨e', he, es', ⟨hl, h⟩, rfl, rfl⟩
        refine ⟨hl, fun k hk => ?_⟩
        cases k with
        | zero => simpa using he
        | succ k =>
          have := h k (by omega)
          rw [show a + s.params.elemBytes + k * s.params.elemBytes = a + (k + 1) * s.params.elemBytes by ring] at this
          simpa using this
      · rintro ⟨hl, h⟩
        refine ⟨e, by simpa using h 0 (by omega), es, ⟨hl, fun k hk => ?_⟩, rfl, rfl⟩
        have := h (k + 1) (by omega)
        rw [show a + (k + 1) * s.params.elemBytes = a + s.params.elemBytes + k * s.params.elemBytes by ring] at this
        simpa using this

theorem readArray_eq_error {s : State} {a n : Nat} {e : Stop} (h : s.readArray a n = .error e) :
    ∃ b, e = .stuck (.unwrittenData b) ∧ a ≤ b ∧ b < a + n * s.params.elemBytes ∧ s.byteAt b = none := by
  induction n generalizing a with
  | zero => simp [State.readArray] at h
  | succ n ih =>
    rw [Nat.succ_mul]
    rcases bind_eq_error.1 h with h | ⟨_, _, h⟩
    · obtain ⟨b, h1, h2, h3, h4⟩ := memRead_eq_error h
      exact ⟨b, h1, h2, by omega, h4⟩
    · rcases bind_eq_error.1 h with h | ⟨_, _, h⟩
      · obtain ⟨b, h1, h2, h3, h4⟩ := ih h
        exact ⟨b, h1, by omega, by omega, h4⟩
      · simp at h

/-- A read depends only on the parameters and the bytes it reads. -/
theorem readBytes_congr {s t : State} {a n : Nat} (h : ∀ b, a ≤ b → b < a + n → t.byteAt b = s.byteAt b) :
    t.readBytes a n = s.readBytes a n := by
  induction n generalizing a with
  | zero => rfl
  | succ n ih =>
    rw [State.readBytes, State.readBytes, ih fun b h1 h2 => h b (by omega) (by omega), State.readByte, State.readByte,
      h a (by omega) (by omega)]

theorem readArray_congr {s t : State} {a n : Nat} (hp : t.params = s.params)
    (h : ∀ b, a ≤ b → b < a + n * s.params.elemBytes → t.byteAt b = s.byteAt b) : t.readArray a n = s.readArray a n := by
  induction n generalizing a with
  | zero => rfl
  | succ n ih =>
    have e : (n + 1) * s.params.elemBytes = n * s.params.elemBytes + s.params.elemBytes := by ring
    rw [State.readArray, State.readArray, State.elemRead, State.elemRead, State.memRead, State.memRead, hp,
      readBytes_congr fun b h1 h2 => h b h1 (by omega), ih fun b h1 h2 => h b (by omega) (by omega)]

theorem arrayBytes_length (n : Nat) (ys : List Nat) : (ys.flatMap (leBytes n)).length = ys.length * n := by
  induction ys with
  | nil => simp
  | cons y ys ih => simp [ih, Nat.add_mul, Nat.add_comm]

theorem writeArray_eq (s : State) (a : Nat) (ys : List Nat) :
    s.writeArray a ys = s.writeBytes a (ys.flatMap (leBytes s.params.elemBytes)) := rfl

/-- A byte outside a written array reads as before. -/
theorem writeArray_byteAt_outside (s : State) (a : Nat) (ys : List Nat) {b : Nat}
    (h : b < a ∨ a + ys.length * s.params.elemBytes ≤ b) : (s.writeArray a ys).byteAt b = s.byteAt b :=
  writeBytes_byteAt_outside s a _ (by rwa [arrayBytes_length])

/-- Reading the array just written gives its elements, cut to `RW` bits. -/
theorem readArray_writeArray (s : State) (a : Nat) (ys : List Nat) :
    (s.writeArray a ys).readArray a ys.length = .ok (ys.map (· % 2 ^ s.params.regBits)) := by
  have key : ∀ (t : State) (a : Nat) (ys : List Nat), t.params = s.params →
      (∀ k, (h : k < (ys.flatMap (leBytes s.params.elemBytes)).length) →
        t.byteAt (a + k) = some (ys.flatMap (leBytes s.params.elemBytes))[k]) →
      t.readArray a ys.length = .ok (ys.map (· % 2 ^ s.params.regBits)) := by
    intro t a ys ht
    induction ys generalizing a with
    | nil => intro _; rfl
    | cons y ys ih =>
      intro h
      have h1 : t.elemRead a = .ok (y % 2 ^ s.params.regBits) := by
        rw [State.elemRead, memRead_eq_ok, ht]
        refine ⟨leBytes s.params.elemBytes y, readBytes_eq_ok.2 ⟨leBytes_length _ _, fun k hk => ?_⟩, ?_⟩
        · rw [leBytes_length] at hk
          rw [h k (by simp; omega)]
          simp [hk]
        · rw [leValue_leBytes, Params.elemBytes, Params.regBits, ← Nat.mul_assoc]
      have h2 := ih (a + s.params.elemBytes) fun k hk => by
        have := h (s.params.elemBytes + k) (by simp; simpa using hk)
        rw [Nat.add_assoc, this]
        simp
      simp only [List.length_cons, State.readArray, h1, comp_ok_bind, ht, h2, List.map_cons]
  rw [writeArray_eq]
  exact key _ a ys rfl fun k hk => writeBytes_byteAt_inside s a _ hk

end Sys2Proof.Machine
end

