-- ==== Sys2Proof/Laws/Fields.lean ====
section
/-! SUPPORT. What the shared functions over polynomials can do: the lengths of their results, and how they stop. -/

namespace Sys2Proof.Machine

variable {f : FieldOps}

/-! ## The operations of the two fields -/

@[simp] theorem binaryField_add (poly : Nat) : (binaryField poly).add = GF.add := rfl
@[simp] theorem binaryField_sub (poly : Nat) : (binaryField poly).sub = GF.add := rfl
@[simp] theorem binaryField_mul (poly : Nat) : (binaryField poly).mul = GF.mul poly := by simp only [binaryField]
@[simp] theorem binaryField_inv (poly : Nat) : (binaryField poly).inv = GF.inv poly := rfl
@[simp] theorem binaryField_check (poly : Nat) : (binaryField poly).check = checkG := rfl
@[simp] theorem primeField_add (s : State) : s.primeField.add = PF.add s.p := rfl
@[simp] theorem primeField_sub (s : State) : s.primeField.sub = PF.sub s.p := rfl
@[simp] theorem primeField_mul (s : State) : s.primeField.mul = PF.mul s.p s.params.regBits := rfl
@[simp] theorem primeField_inv (s : State) : s.primeField.inv = PF.inv s.p s.params.regBits := rfl
@[simp] theorem primeField_check (s : State) : s.primeField.check = s.checkP := rfl

/-! ## Where the fields stop -/

/-- The inverse of a prime-field element stops only with `E_DIVZERO`. -/
theorem PF.inv_eq_error {p n a : Nat} {e : Stop} (h : PF.inv p n a = .error e) : e = .trap .divzero a := by
  rcases bind_eq_error.1 h with h | ⟨_, _, h⟩
  · exact (require_eq_error.1 h).2
  · simp at h

/-- The inverse of an element of GF(2^128) stops only for 0, with `E_DIVZERO`. -/
theorem GF.inv_eq_error {poly a : Nat} {e : Stop} (h : GF.inv poly a = .error e) : a = 0 ∧ e = .trap .divzero 0 := by
  rcases bind_eq_error.1 h with h | ⟨_, _, h⟩
  · simpa using require_eq_error.1 h
  · simp at h

/-- An element of GF(2^128) has its inverse taken exactly when it is not 0 (45_binary_field.md R405). -/
theorem GF.inv_eq_ok_iff {poly a : Nat} : (∃ c, GF.inv poly a = .ok c) ↔ a ≠ 0 := by
  by_cases h : a = 0 <;> simp [GF.inv, h]

/-- Selecting a field raises `E_CONFIG` or gives one of the two. -/
theorem selectField_eq_ok {s : State} {f : FieldOps} :
    s.selectField = .ok f ↔
      (s.fmode = true ∧ f = binaryField s.params.gfPoly) ∨ (s.fmode = false ∧ s.fvalid = true ∧ f = s.primeField) := by
  unfold State.selectField
  cases s.fmode <;> cases h : s.fvalid <;> simp [State.checkConfigured, require, raise, h, eq_comm]

theorem selectField_eq_error {s : State} {e : Stop} (h : s.selectField = .error e) : e = .trap .config 0 := by
  unfold State.selectField at h
  cases hm : s.fmode <;> cases hv : s.fvalid <;>
    simp_all [State.checkConfigured, require, raise]

/-- The selected field's inverse stops only with `E_DIVZERO`. -/
theorem selectField_inv_eq_error {s : State} (hf : s.selectField = .ok f) {a : Nat} {e : Stop}
    (h : f.inv a = .error e) : ∃ info, e = .trap .divzero info := by
  rcases selectField_eq_ok.1 hf with ⟨_, rfl⟩ | ⟨_, _, rfl⟩
  · exact ⟨0, (GF.inv_eq_error h).2⟩
  · exact ⟨a, PF.inv_eq_error h⟩

/-- The selected field's check stops only with `E_DOMAIN`. -/
theorem selectField_check_eq_error {s : State} (hf : s.selectField = .ok f) {a : Nat} {e : Stop}
    (h : f.check a = .error e) : e = .trap .domain a := by
  rcases selectField_eq_ok.1 hf with ⟨_, rfl⟩ | ⟨_, _, rfl⟩ <;> exact (require_eq_error.1 h).2

theorem div_eq_error {a b : Nat} {e : Stop} (h : f.div a b = .error e) : f.inv b = .error e := by
  rcases bind_eq_error.1 h with h | ⟨_, _, h⟩
  · exact h
  · simp at h

/-! ## Lengths -/

theorem nextColumn_length {lows highs d qs : List Nat} (h : f.nextColumn lows highs d = .ok qs) :
    qs.length = min lows.length (min highs.length (d.length - 1)) := by
  induction lows generalizing highs d qs with
  | nil => simp_all [FieldOps.nextColumn]
  | cons low lows ih =>
    match highs, d with
    | [], d => simp_all [FieldOps.nextColumn]
    | high :: highs, [] => simp_all [FieldOps.nextColumn]
    | high :: highs, [a] => simp_all [FieldOps.nextColumn]
    | high :: highs, a :: b :: d =>
      simp only [FieldOps.nextColumn, bind_eq_ok, Except.ok.injEq] at h
      obtain ⟨q, _, qs', h, rfl⟩ := h
      have := ih h
      simp only [List.length_cons] at this ⊢
      omega

/-- As many Newton coefficients as values. -/
theorem tableFrom_length {nodes highs d cs : List Nat} (h : f.tableFrom nodes highs d = .ok cs)
    (hn : highs.length ≤ nodes.length) (hd : d.length ≤ highs.length + 1) : cs.length = d.length := by
  induction highs generalizing d cs with
  | nil =>
    match d with
    | [] => simp_all [FieldOps.tableFrom]
    | [a] => simp_all [FieldOps.tableFrom, eq_comm]
    | a :: b :: d => simp at hd
  | cons high highs ih =>
    match d with
    | [] => simp_all [FieldOps.tableFrom]
    | a :: d =>
      simp only [FieldOps.tableFrom, bind_eq_ok, Except.ok.injEq] at h
      obtain ⟨next, h1, cs', h2, rfl⟩ := h
      have hl := nextColumn_length h1
      simp only [List.length_cons] at hl hn hd ⊢
      have := ih h2 (by omega) (by omega)
      omega

theorem newtonOfValues_length {nodes vs cs : List Nat} (h : f.newtonOfValues nodes vs = .ok cs)
    (hl : nodes.length = vs.length) : cs.length = vs.length :=
  tableFrom_length h (by simp) (by simp; omega)

@[simp] theorem timesLinear_length (x : Nat) (as : List Nat) : (f.timesLinear x as).length = as.length + 1 := by
  simp [FieldOps.timesLinear]

@[simp] theorem plusConstant_length (c : Nat) (as : List Nat) : (f.plusConstant c as).length = as.length := by
  cases as <;> rfl

@[simp] theorem monomialOfNewton_length (ps : List (Nat × Nat)) : (f.monomialOfNewton ps).length = ps.length := by
  match ps with
  | [] => rfl
  | [_] => rfl
  | _ :: p :: rest => simp [FieldOps.monomialOfNewton, monomialOfNewton_length (p :: rest)]

theorem monomialOfValues_length {nodes vs ms : List Nat} (h : f.monomialOfValues nodes vs = .ok ms)
    (hl : nodes.length = vs.length) : ms.length = vs.length := by
  obtain ⟨cs, hc, h⟩ := bind_eq_ok.1 h
  have := newtonOfValues_length hc hl
  obtain rfl : f.monomialOfNewton (nodes.zip cs) = ms := by simpa using h
  simp [hl, this]

@[simp] theorem gfPoints_length (basis : List Nat) (c : Nat) : (gfPoints basis c).length = 2 ^ basis.length := by
  simp [gfPoints]

/-! ## Where the divided differences stop -/

/-- A column of divided differences stops only where a difference of its nodes has no inverse. -/
theorem nextColumn_eq_error {lows highs d : List Nat} {e : Stop} (h : f.nextColumn lows highs d = .error e) :
    ∃ pair ∈ lows.zip highs, f.inv (f.sub pair.2 pair.1) = .error e := by
  induction lows generalizing highs d with
  | nil => simp [FieldOps.nextColumn] at h
  | cons low lows ih =>
    match highs, d with
    | [], d => simp [FieldOps.nextColumn] at h
    | high :: highs, [] => simp [FieldOps.nextColumn] at h
    | high :: highs, [a] => simp [FieldOps.nextColumn] at h
    | high :: highs, a :: b :: d =>
      rw [FieldOps.nextColumn] at h
      rcases bind_eq_error.1 h with h | ⟨_, _, h⟩
      · exact ⟨(low, high), by simp, div_eq_error h⟩
      · rcases bind_eq_error.1 h with h | ⟨_, _, h⟩
        · obtain ⟨pair, hp, h⟩ := ih h
          exact ⟨pair, by simp [hp], h⟩
        · simp at h

/-- The divided differences stop only where the difference of two nodes at different places has no inverse. -/
theorem tableFrom_eq_error {nodes d : List Nat} {e : Stop} (k : Nat) (h : f.tableFrom nodes (nodes.drop (k + 1)) d = .error e) :
    ∃ i j, i < j ∧ j < nodes.length ∧ f.inv (f.sub (nodes.getD j 0) (nodes.getD i 0)) = .error e := by
  obtain ⟨m, hm⟩ : ∃ m, m = nodes.length - k := ⟨_, rfl⟩
  induction m generalizing k d with
  | zero =>
    rw [List.drop_of_length_le (by omega)] at h
    cases d <;> simp [FieldOps.tableFrom] at h
  | succ m ih =>
    match hd : d with
    | [] => simp [FieldOps.tableFrom] at h
    | a :: d =>
      match hh : nodes.drop (k + 1) with
      | [] => simp [hh, FieldOps.tableFrom] at h
      | high :: highs =>
        have ht : highs = nodes.drop (k + 1 + 1) := by rw [← List.drop_drop, hh]; rfl
        rw [hh, FieldOps.tableFrom] at h
        rcases bind_eq_error.1 h with h | ⟨_, _, h⟩
        · obtain ⟨pair, hp, h⟩ := nextColumn_eq_error h
          rw [← hh] at hp
          obtain ⟨i, hi, rfl⟩ := List.getElem_of_mem hp
          simp only [List.length_zip, List.length_drop] at hi
          refine ⟨i, k + 1 + i, by omega, by omega, ?_⟩
          simpa [List.getD_eq_getElem?_getD, show i < nodes.length by omega, show k + 1 + i < nodes.length by omega] using h
        · rcases bind_eq_error.1 h with h | ⟨_, _, h⟩
          · exact ih (k + 1) (by rwa [← ht]) (by omega)
          · simp at h

/-- As above, for the Newton coefficients of values. -/
theorem newtonOfValues_eq_error {nodes vs : List Nat} {e : Stop} (h : f.newtonOfValues nodes vs = .error e) :
    ∃ i j, i < j ∧ j < nodes.length ∧ f.inv (f.sub (nodes.getD j 0) (nodes.getD i 0)) = .error e :=
  tableFrom_eq_error 0 h

theorem monomialOfValues_eq_error {nodes vs : List Nat} {e : Stop} (h : f.monomialOfValues nodes vs = .error e) :
    ∃ i j, i < j ∧ j < nodes.length ∧ f.inv (f.sub (nodes.getD j 0) (nodes.getD i 0)) = .error e := by
  rcases bind_eq_error.1 h with h | ⟨_, _, h⟩
  · exact newtonOfValues_eq_error h
  · simp at h

/-- In GF(2^128) the interpolation of values over distinct nodes never stops. -/
theorem binaryField_monomialOfValues_ok {poly : Nat} {nodes vs : List Nat} (h : nodes.Nodup) :
    ∃ ms, (binaryField poly).monomialOfValues nodes vs = .ok ms := by
  match hm : (binaryField poly).monomialOfValues nodes vs with
  | .ok ms => exact ⟨ms, rfl⟩
  | .error e =>
    obtain ⟨i, j, hij, hj, he⟩ := monomialOfValues_eq_error hm
    have h0 := (GF.inv_eq_error he).1
    rw [show (binaryField poly).sub = GF.add from rfl, GF.add, Nat.xor_eq_zero_iff,
      List.getD_eq_getElem _ _ hj, List.getD_eq_getElem _ _ (by omega)] at h0
    have := (h.getElem_inj_iff).1 h0
    omega

/-- The distinct-node check stops only where the difference of two nodes has no inverse, and passes only where each has. -/
theorem checkDistinct_eq_error {nodes : List Nat} {e : Stop} (h : f.checkDistinct nodes = .error e) :
    ∃ x ∈ nodes, ∃ y ∈ nodes, f.inv (f.sub y x) = .error e := by
  induction nodes with
  | nil => simp [FieldOps.checkDistinct] at h
  | cons x xs ih =>
    rcases bind_eq_error.1 h with h | ⟨_, _, h⟩
    · obtain ⟨y, hy, h⟩ := forAll_eq_error h
      refine ⟨x, by simp, y, by simp [hy], ?_⟩
      rcases bind_eq_error.1 h with h | ⟨_, _, h⟩
      · exact h
      · simp at h
    · obtain ⟨x', hx, y, hy, h⟩ := ih h
      exact ⟨x', by simp [hx], y, by simp [hy], h⟩

theorem checkDistinct_eq_ok {nodes : List Nat} {u : Unit} :
    f.checkDistinct nodes = .ok u ↔ nodes.Pairwise fun x y => ∃ c, f.inv (f.sub y x) = .ok c := by
  induction nodes with
  | nil => simp [FieldOps.checkDistinct]
  | cons x xs ih =>
    simp only [FieldOps.checkDistinct, bind_eq_ok, forAll_eq_ok, ih, List.pairwise_cons]
    simp

end Sys2Proof.Machine
end

