-- ==== Sys2Proof/Laws/Exec.lean ====
section
/-! SUPPORT. What a command can do, said once: the shape of the state it leaves when it completes, and the causes it raises. -/

namespace Sys2Proof.Machine

open Sys2Proof.Safety

/-- The shape of the state `t` a command that completes leaves over `s`. -/
def Effect (s t : State) : Instr → Prop
  | .wmul64 rd _ _ _ => ∃ v, t = (s.setReg rd v).advance
  | .wmul32 rd _ _ _ => ∃ v, t = (s.setReg rd v).advance
  | .leq rd _ _ => ∃ v, t = (s.setReg rd v).advance
  | .lshr rd _ _ => ∃ v, t = (s.setReg rd v).advance
  | .lshri rd _ _ => ∃ v, t = (s.setReg rd v).advance
  | .ld rd _ _ => ∃ v, t = (s.setReg rd v).advance
  | .st rs ra offset => s.x ra + offset + s.params.elemBytes ≤ s.params.dmSize ∧
      t = (s.memWrite (s.x ra + offset) s.params.elemBytes (s.x rs)).advance
  | .ldi rd _ => ∃ v, t = (s.setReg rd v).advance
  | .nlt rd _ _ => ∃ v, t = (s.setReg rd v).advance
  | .nbit rd _ _ => ∃ v, t = (s.setReg rd v).advance
  | .invw rd _ => ∃ v, t = (s.setReg rd v).advance
  | .fcfg ra be => s.x ra % 2 = 1 ∧ 3 ≤ s.x ra ∧
      t = ({ s with p := s.x ra, minv := (invModB (BitVec.ofNat 64 (limb 0 (s.x ra)))).toNat, be := be, fvalid := true } :
        State).advance
  | .fadd rd _ _ => ∃ v, t = (s.setReg rd v).advance
  | .fsub rd _ _ => ∃ v, t = (s.setReg rd v).advance
  | .fmul rd _ _ => ∃ v, t = (s.setReg rd v).advance
  | .mulw rd _ _ rc => ∃ low high, t = (s.setHalves rd rc low high).advance
  | .fred rd _ _ => ∃ v, t = (s.setReg rd v).advance
  | .ftom rd _ => ∃ v, t = (s.setReg rd v).advance
  | .ffromm rd _ => ∃ v, t = (s.setReg rd v).advance
  | .feq rd _ _ => ∃ v, t = (s.setReg rd v).advance
  | .fld rd _ _ => (∃ v, t = ((s.setReg rd v).setV false).advance) ∨ t = (s.setV true).advance
  | .fst _ ra offset => s.x ra + offset + s.params.elemBytes ≤ s.params.dmSize ∧
      ∃ c, t = (s.writeBytes (s.x ra + offset) (valueBytes s.be s.params.elemBytes c)).advance
  | .clmul rd _ _ rc => ∃ low high, t = (s.setHalves rd rc low high).advance
  | .gadd rd _ _ => ∃ v, t = (s.setReg rd v).advance
  | .gmul rd _ _ => ∃ v, t = (s.setReg rd v).advance
  | .evalm rd _ _ => ∃ v, t = (s.setReg rd v).advance
  | .nofl rd _ => s.x rd + s.arrayBytes ≤ s.params.dmSize ∧
      ∃ ys, ys.length = s.nnode ∧ t = (s.writeArray (s.x rd) ys).advance
  | .evaln rd _ _ => ∃ v, t = (s.setReg rd v).advance
  | .monofn rd _ => s.x rd + s.arrayBytes ≤ s.params.dmSize ∧
      ∃ ys, ys.length = s.nnode ∧ t = (s.writeArray (s.x rd) ys).advance
  | .monofl rd _ => s.x rd + s.arrayBytes ≤ s.params.dmSize ∧
      ∃ ys, ys.length = s.nnode ∧ t = (s.writeArray (s.x rd) ys).advance
  | .fft ra _ l => s.x ra + 2 ^ l * s.params.elemBytes ≤ s.params.dmSize ∧
      ∃ ys, ys.length = 2 ^ l ∧ t = (s.writeArray (s.x ra) ys).advance
  | .ifft ra _ l => s.x ra + 2 ^ l * s.params.elemBytes ≤ s.params.dmSize ∧
      ∃ ys, ys.length = 2 ^ l ∧ t = (s.writeArray (s.x ra) ys).advance
  | .bfft ra _ l => s.x ra + 2 ^ l * s.params.elemBytes ≤ s.params.dmSize ∧
      ∃ ys, ys.length = 2 ^ l ∧ t = (s.writeArray (s.x ra) ys).advance
  | .halt => t = { s with status := { running := false, done := true, fault := false, cause := .none } }
  | .bnz ra offset => t = if s.x ra ≠ 0 then s.branch offset else s.advance
  | .csrr rd _ => ∃ v, t = (s.setReg rd v).advance
  | .csrw ra csr => ∃ c u, csrOfNumber csr = some c ∧ s.writeCsr (s.x ra) c = some u ∧ t = u.advance

/-- A computation ends with a state that has the property, or with a fault of the model, or it raises one of the causes. -/
def Ends (P : State → Prop) (cs : List Cause) (r : Comp State) : Prop :=
  (∀ t, r = .ok t → P t) ∧ ∀ c info, r = .error (.trap c info) → c ∈ cs

theorem Ends.of_ok {P : State → Prop} {cs : List Cause} {t : State} (h : P t) : Ends P cs (.ok t) := by
  constructor
  · rintro _ ⟨⟩; exact h
  · rintro _ _ ⟨⟩

theorem Ends.of_raise {P : State → Prop} {cs : List Cause} {c : Cause} {info : Nat} (h : c ∈ cs) :
    Ends P cs (raise c info) := by
  constructor
  · rintro _ ⟨⟩
  · rintro _ _ ⟨⟩; exact h

/-- In sequence: the first part raises only these causes, and whatever it gives, the rest ends so. -/
theorem Ends.bind {P : State → Prop} {cs : List Cause} {α : Type} {c : Comp α} {f : α → Comp State}
    (h : ∀ k info, c = .error (.trap k info) → k ∈ cs) (g : ∀ a, c = .ok a → Ends P cs (f a)) : Ends P cs (c >>= f) := by
  match c with
  | .ok a => exact g a rfl
  | .error e => exact ⟨fun t ht => by simp at ht, fun k info hk => h k info (by simpa using hk)⟩

theorem require_raises {ok : Bool} {c k : Cause} {info n : Nat} (h : require ok c info = .error (.trap k n)) : k = c := by
  have := (require_eq_error.1 h).2
  simp_all

theorem readBytes_raises_nothing {s : State} {a n : Nat} {k : Cause} {info : Nat}
    (h : s.readBytes a n = .error (.trap k info)) : False := by
  obtain ⟨_, h, _⟩ := readBytes_eq_error h
  simp at h

theorem memRead_raises_nothing {s : State} {a n : Nat} {k : Cause} {info : Nat}
    (h : s.memRead a n = .error (.trap k info)) : False := by
  obtain ⟨_, h, _⟩ := memRead_eq_error h
  simp at h

theorem readArray_raises_nothing {s : State} {a n : Nat} {k : Cause} {info : Nat}
    (h : s.readArray a n = .error (.trap k info)) : False := by
  obtain ⟨_, h, _⟩ := readArray_eq_error h
  simp at h

theorem forAll_check_raises {s : State} {f : FieldOps} (hf : s.selectField = .ok f) {l : List Nat} {k : Cause} {info : Nat}
    (h : forAll f.check l = .error (.trap k info)) : k = .domain := by
  obtain ⟨a, _, h⟩ := forAll_eq_error h
  have := selectField_check_eq_error hf h
  simp_all

theorem forAll_checkG_raises {l : List Nat} {k : Cause} {info : Nat}
    (h : forAll checkG l = .error (.trap k info)) : k = .domain := by
  obtain ⟨a, _, h⟩ := forAll_eq_error h
  exact require_raises h

/-- The inputs of a conversion: what passed, and the causes. -/
theorem conversionInputs_eq_ok {s : State} {f : FieldOps} {rd ra : Reg} {p : List Nat × List Nat} :
    s.conversionInputs f rd ra = .ok p ↔
      s.x ra + s.arrayBytes ≤ s.params.dmSize ∧ s.xbase + s.arrayBytes ≤ s.params.dmSize ∧
        s.x rd + s.arrayBytes ≤ s.params.dmSize ∧ s.readArray s.xbase s.nnode = .ok p.1 ∧
        s.readArray (s.x ra) s.nnode = .ok p.2 ∧ (∀ a ∈ p.1, f.check a = .ok ()) ∧ ∀ a ∈ p.2, f.check a = .ok () := by
  simp only [State.conversionInputs, bind_eq_ok, checkRange_eq_ok, forAll_eq_ok, Except.ok.injEq]
  constructor
  · rintro ⟨_, h1, _, h2, _, h3, nodes, h4, source, h5, _, h6, _, h7, rfl⟩
    exact ⟨h1, h2, h3, h4, h5, h6, h7⟩
  · rintro ⟨h1, h2, h3, h4, h5, h6, h7⟩
    exact ⟨(), h1, (), h2, (), h3, p.1, h4, p.2, h5, (), h6, (), h7, rfl⟩

theorem conversionInputs_raises {s : State} {f : FieldOps} (hf : s.selectField = .ok f) {rd ra : Reg} {k : Cause}
    {info : Nat} (h : s.conversionInputs f rd ra = .error (.trap k info)) : k ∈ [Cause.addr, .domain] := by
  simp only [State.conversionInputs, bind_eq_error] at h
  rcases h with h | ⟨_, _, h | ⟨_, _, h | ⟨_, _, h | ⟨_, _, h | ⟨_, _, h | ⟨_, _, h | ⟨_, _, h⟩⟩⟩⟩⟩⟩⟩
  · simp [require_raises h]
  · simp [require_raises h]
  · simp [require_raises h]
  · exact (readArray_raises_nothing h).elim
  · exact (readArray_raises_nothing h).elim
  · simp [forAll_check_raises hf h]
  · simp [forAll_check_raises hf h]
  · simp at h

/-- What every transform's checks give, when they pass. -/
theorem fftCheck_eq_ok {s : State} {l a : Nat} {p : List Nat × List Nat} :
    s.fftCheck l a = .ok p ↔
      s.fmode = true ∧ l ≤ s.blen ∧ s.bbase + l * s.params.elemBytes ≤ s.params.dmSize ∧
        a + 2 ^ l * s.params.elemBytes ≤ s.params.dmSize ∧ s.readArray s.bbase l = .ok p.1 ∧
        s.readArray a (2 ^ l) = .ok p.2 ∧ (∀ e ∈ p.1, e < 2 ^ 128) ∧ ∀ e ∈ p.2, e < 2 ^ 128 := by
  simp only [State.fftCheck, bind_eq_ok, checkRange_eq_ok, forAll_eq_ok, Except.ok.injEq, require_eq_ok, checkG,
    decide_eq_true_eq]
  constructor
  · rintro ⟨_, h1, _, h2, _, h3, _, h4, basis, h5, d, h6, _, h7, _, h8, rfl⟩
    exact ⟨h1, h2, h3, h4, h5, h6, h7, h8⟩
  · rintro ⟨h1, h2, h3, h4, h5, h6, h7, h8⟩
    exact ⟨(), h1, (), h2, (), h3, (), h4, p.1, h5, p.2, h6, (), h7, (), h8, rfl⟩

theorem fftCheck_raises {s : State} {l a : Nat} {k : Cause} {info : Nat}
    (h : s.fftCheck l a = .error (.trap k info)) : k ∈ [Cause.config, .domain, .addr] := by
  simp only [State.fftCheck, bind_eq_error] at h
  rcases h with h | ⟨_, _, h | ⟨_, _, h | ⟨_, _, h | ⟨_, _, h | ⟨_, _, h | ⟨_, _, h | ⟨_, _, h | ⟨_, _, h⟩⟩⟩⟩⟩⟩⟩⟩
  · simp [require_raises h]
  · simp [require_raises h]
  · simp [require_raises h]
  · simp [require_raises h]
  · exact (readArray_raises_nothing h).elim
  · exact (readArray_raises_nothing h).elim
  · simp [forAll_checkG_raises h]
  · simp [forAll_checkG_raises h]
  · simp at h

theorem readArray_length {s : State} {a n : Nat} {es : List Nat} (h : s.readArray a n = .ok es) : es.length = n :=
  (readArray_eq_ok.1 h).1

/-- Over distinct points a bidirectional transform gives as many elements as it reads, and never stops. -/
theorem bidirectional_ok {poly : Nat} {points d : List Nat} {k : Nat} (hl : points.length = d.length) (hk : k ≤ d.length)
    (h : (points.take k).Nodup) : ∃ ys, bidirectional poly points k d = .ok ys ∧ ys.length = d.length := by
  obtain ⟨q, hq⟩ := binaryField_monomialOfValues_ok (poly := poly)
    (vs := List.zipWith (fun v x => GF.add v (gfSum poly x (List.replicate k 0 ++ d.drop k))) (d.take k) (points.take k)) h
  refine ⟨_, bind_eq_ok.2 ⟨q, hq, rfl⟩, ?_⟩
  have := monomialOfValues_length hq (by simp; omega)
  simp at this
  simp
  omega

/-- Every command performs a computation that ends with its effect, with one of its causes, or with a fault of the model. -/
theorem exec_eq_perform (i : Instr) (s : State) :
    ∃ r, exec i s = perform s r ∧ Ends (fun t => Effect s t i) (causes i) r := by
  have config : ∀ {k : Cause} {info : Nat}, s.checkConfigured = .error (.trap k info) → k = .config := require_raises
  have select : ∀ {k : Cause} {info : Nat}, s.selectField = .error (.trap k info) → k = .config := fun h => by
    have := selectField_eq_error h; simp_all
  cases i
  case wmul64 | wmul32 | leq | lshr | lshri | ldi | nlt => exact ⟨_, rfl, .of_ok ⟨_, rfl⟩⟩
  case mulw => exact ⟨_, rfl, .of_ok ⟨_, _, rfl⟩⟩
  case halt | bnz => exact ⟨_, rfl, .of_ok rfl⟩
  case ld =>
    refine ⟨_, rfl, .bind (fun k n h => ?_) fun _ _ => .bind (fun k n h => ?_) fun _ _ => .of_ok ⟨_, rfl⟩⟩
    · simp [causes, require_raises h]
    · exact (memRead_raises_nothing h).elim
  case st =>
    refine ⟨_, rfl, .bind (fun k n h => ?_) fun _ h => .of_ok ⟨checkRange_eq_ok.1 h, rfl⟩⟩
    simp [causes, require_raises h]
  case nbit | invw =>
    refine ⟨_, rfl, .bind (fun k n h => ?_) fun _ _ => .of_ok ⟨_, rfl⟩⟩
    simp [causes, require_raises h]
  case fcfg =>
    refine ⟨_, rfl, .bind (fun k n h => ?_) fun _ h => .of_ok ?_⟩
    · simp [causes, require_raises h]
    · simp [bitOf] at h
      exact ⟨h.1, h.2, rfl⟩
  case fred | ftom =>
    refine ⟨_, rfl, .bind (fun k n h => ?_) fun _ _ => .of_ok ⟨_, rfl⟩⟩
    simp [causes, config h]
  case ffromm =>
    refine ⟨_, rfl, .bind (fun k n h => ?_) fun _ _ => .bind (fun k n h => ?_) fun _ _ => .of_ok ⟨_, rfl⟩⟩
    · simp [causes, config h]
    · simp [causes, require_raises h]
  case fadd | fsub | fmul | feq =>
    refine ⟨_, rfl, .bind (fun k n h => ?_) fun _ _ => .bind (fun k n h => ?_) fun _ _ =>
      .bind (fun k n h => ?_) fun _ _ => .of_ok ⟨_, rfl⟩⟩
    · simp [causes, config h]
    · simp [causes, require_raises h]
    · simp [causes, require_raises h]
  case fld =>
    refine ⟨_, rfl, .bind (fun k n h => ?_) fun _ _ => .bind (fun k n h => ?_) fun _ _ =>
      .bind (fun k n h => ?_) fun bs _ => ?_⟩
    · simp [causes, config h]
    · simp [causes, require_raises h]
    · exact (readBytes_raises_nothing h).elim
    · dsimp only
      split
      · exact .of_ok (.inl ⟨_, rfl⟩)
      · exact .of_ok (.inr rfl)
  case fst =>
    refine ⟨_, rfl, .bind (fun k n h => ?_) fun _ _ => .bind (fun k n h => ?_) fun _ h =>
      .bind (fun k n h => ?_) fun _ _ => .of_ok ⟨checkRange_eq_ok.1 h, _, rfl⟩⟩
    · simp [causes, config h]
    · simp [causes, require_raises h]
    · simp [causes, require_raises h]
  case clmul =>
    refine ⟨_, rfl, .bind (fun k n h => ?_) fun _ _ => .bind (fun k n h => ?_) fun _ _ => .of_ok ⟨_, _, rfl⟩⟩ <;>
      simp [causes, require_raises h]
  case gadd | gmul =>
    refine ⟨_, rfl, .bind (fun k n h => ?_) fun _ _ => .bind (fun k n h => ?_) fun _ _ => .of_ok ⟨_, rfl⟩⟩ <;>
      simp [causes, require_raises h]
  case evalm =>
    refine ⟨_, rfl, .bind (fun k n h => ?_) fun f hf => .bind (fun k n h => ?_) fun _ _ => .bind (fun k n h => ?_) fun _ _ =>
      .bind (fun k n h => ?_) fun _ _ => .bind (fun k n h => ?_) fun _ _ => .of_ok ⟨_, rfl⟩⟩
    · simp [causes, select h]
    · simp [causes, require_raises h]
    · have := selectField_check_eq_error hf h; simp_all [causes]
    · exact (readArray_raises_nothing h).elim
    · simp [causes, forAll_check_raises hf h]
  case evaln =>
    refine ⟨_, rfl, .bind (fun k n h => ?_) fun f hf => .bind (fun k n h => ?_) fun _ _ => .bind (fun k n h => ?_) fun _ _ =>
      .bind (fun k n h => ?_) fun _ _ => .bind (fun k n h => ?_) fun _ _ => .bind (fun k n h => ?_) fun _ _ =>
      .bind (fun k n h => ?_) fun _ _ => .bind (fun k n h => ?_) fun _ _ => .of_ok ⟨_, rfl⟩⟩
    · simp [causes, select h]
    · simp [causes, require_raises h]
    · simp [causes, require_raises h]
    · have := selectField_check_eq_error hf h; simp_all [causes]
    · exact (readArray_raises_nothing h).elim
    · exact (readArray_raises_nothing h).elim
    · simp [causes, forAll_check_raises hf h]
    · simp [causes, forAll_check_raises hf h]
  case nofl rd ra =>
    refine ⟨_, rfl, .bind (fun k n h => ?_) fun f hf => .bind (fun k n h => ?_) fun p hp => .bind (fun k n h => ?_) fun _ _ =>
      .bind (fun k n h => ?_) fun cs hc => .of_ok ?_⟩
    · simp [causes, select h]
    · have := conversionInputs_raises hf h
      simp [causes] at this ⊢; tauto
    · obtain ⟨_, _, _, _, h⟩ := checkDistinct_eq_error h
      obtain ⟨_, h⟩ := selectField_inv_eq_error hf h
      simp_all [causes]
    · obtain ⟨_, _, _, _, h⟩ := newtonOfValues_eq_error h
      obtain ⟨_, h⟩ := selectField_inv_eq_error hf h
      simp_all [causes]
    · obtain ⟨_, _, h, h1, h2, _, _⟩ := conversionInputs_eq_ok.1 hp
      have h1 := readArray_length h1
      have h2 := readArray_length h2
      exact ⟨h, cs, by rw [newtonOfValues_length hc (by omega), h2], rfl⟩
  case monofn rd ra =>
    refine ⟨_, rfl, .bind (fun k n h => ?_) fun f hf => .bind (fun k n h => ?_) fun p hp => .of_ok ?_⟩
    · simp [causes, select h]
    · have := conversionInputs_raises hf h
      simpa [causes] using Or.inr this
    · obtain ⟨_, _, h, h1, h2, _, _⟩ := conversionInputs_eq_ok.1 hp
      have h1 := readArray_length h1
      have h2 := readArray_length h2
      exact ⟨h, _, by simp [h1, h2], rfl⟩
  case monofl rd ra =>
    refine ⟨_, rfl, .bind (fun k n h => ?_) fun f hf => .bind (fun k n h => ?_) fun p hp => .bind (fun k n h => ?_) fun _ _ =>
      .bind (fun k n h => ?_) fun cs hc => .of_ok ?_⟩
    · simp [causes, select h]
    · have := conversionInputs_raises hf h
      simp [causes] at this ⊢; tauto
    · obtain ⟨_, _, _, _, h⟩ := checkDistinct_eq_error h
      obtain ⟨_, h⟩ := selectField_inv_eq_error hf h
      simp_all [causes]
    · obtain ⟨_, _, _, _, h⟩ := monomialOfValues_eq_error h
      obtain ⟨_, h⟩ := selectField_inv_eq_error hf h
      simp_all [causes]
    · obtain ⟨_, _, h, h1, h2, _, _⟩ := conversionInputs_eq_ok.1 hp
      have h1 := readArray_length h1
      have h2 := readArray_length h2
      exact ⟨h, cs, by rw [monomialOfValues_length hc (by omega), h2], rfl⟩
  case fft ra rb l =>
    refine ⟨_, rfl, .bind (fun k n h => ?_) fun p hp => .bind (fun k n h => ?_) fun _ _ => .of_ok ?_⟩
    · exact fftCheck_raises h
    · simp [causes, require_raises h]
    · obtain ⟨_, _, _, h, h1, _, _, _⟩ := fftCheck_eq_ok.1 hp
      exact ⟨h, _, by simp [readArray_length h1], rfl⟩
  case ifft ra rb l =>
    refine ⟨_, rfl, .bind (fun k n h => ?_) fun p hp => .bind (fun k n h => ?_) fun _ _ => .bind (fun k n h => ?_) fun _ hd =>
      .bind (fun k n h => ?_) fun as ha => .of_ok ?_⟩
    · have := fftCheck_raises h
      simp [causes] at this ⊢; tauto
    · simp [causes, require_raises h]
    · simp [causes, require_raises h]
    · obtain ⟨ms, hm⟩ := binaryField_monomialOfValues_ok (poly := s.params.gfPoly) (vs := p.2) (by simpa [checkPoints] using hd)
      rw [hm] at h; simp at h
    · obtain ⟨_, _, _, h, h1, h2, _, _⟩ := fftCheck_eq_ok.1 hp
      have h2 := readArray_length h2
      exact ⟨h, as, by rw [monomialOfValues_length ha (by simp [readArray_length h1, h2]), h2], rfl⟩
  case bfft ra rb l =>
    refine ⟨_, rfl, .bind (fun k n h => ?_) fun p hp => .bind (fun k n h => ?_) fun _ hk => .bind (fun k n h => ?_) fun _ hd => ?_⟩
    · have := fftCheck_raises h
      simp [causes] at this ⊢; tauto
    · simp [causes, require_raises h]
    · simp [causes, require_raises h]
    · obtain ⟨_, _, _, h, h1, h2, _, _⟩ := fftCheck_eq_ok.1 hp
      have h2 := readArray_length h2
      obtain ⟨ys, hy, hl⟩ := bidirectional_ok (poly := s.params.gfPoly) (points := gfPoints p.1 0) (d := p.2) (k := s.x rb)
        (by simp [readArray_length h1, h2]) (by simpa [h2] using hk) (by simpa [checkPoints] using hd)
      rw [hy]
      exact .of_ok ⟨h, ys, by rw [hl, h2], rfl⟩
  case csrr rd n =>
    refine ⟨_, rfl, ?_⟩
    split
    · exact .of_raise (by simp [causes])
    · exact .of_ok ⟨_, rfl⟩
  case csrw ra n =>
    refine ⟨_, rfl, ?_⟩
    split
    · exact .of_raise (by simp [causes])
    · split
      · exact .of_raise (by simp [causes])
      · exact .of_ok ⟨_, _, ‹_›, ‹_›, rfl⟩

/-- A command that answers a next state completed with its effect, or raised one of its causes. -/
theorem exec_eq_next {i : Instr} {s t : State} (h : exec i s = .next t) :
    Effect s t i ∨ ∃ c ∈ causes i, t = s.faultEntry c := by
  obtain ⟨r, hr, hok, herr⟩ := exec_eq_perform i s
  rcases perform_eq_next.1 (hr ▸ h) with hr | ⟨c, info, hr, ht⟩
  · exact .inl (hok t hr)
  · exact .inr ⟨c, herr c info hr, ht⟩

end Sys2Proof.Machine
end

