-- ==== Sys2Proof/Laws/HostPort.lean ====
section
/-! SUPPORT. What has been written stays written, through steps and host actions, until RESET; so what the host has written of a
unit (70_reset_and_hazards.md R711) is written in the state it is in. -/

namespace Sys2Proof.Machine

open Sys2Proof.Safety

variable {c : Params} {h : List Event} {s t : State}

/-- The states a unit can be in are those some events lead to. -/
theorem reachable_iff_reaches : Reachable c s ↔ ∃ h, Reaches c h s := by
  constructor
  · intro hs
    induction hs with
    | reset => exact ⟨_, .reset⟩
    | step _ ht ih => exact ih.elim fun _ hs => ⟨_, .step hs ht⟩
    | port _ ht ih => exact ih.elim fun _ hs => ⟨_, .host hs ht⟩
  · rintro ⟨h, hs⟩
    induction hs with
    | reset => exact .reset
    | step _ ht ih => exact .step ih ht
    | host _ ht ih => exact .port ih ht

/-- Nothing becomes unwritten from `s` to `t`. -/
def KeepsWritten (s t : State) : Prop :=
  (∀ r : Reg, s.written[r.val] = true → t.written[r.val] = true) ∧ ∀ a, (s.byteAt a).isSome → (t.byteAt a).isSome

theorem KeepsWritten.refl (s : State) : KeepsWritten s s := ⟨fun _ h => h, fun _ h => h⟩

theorem KeepsWritten.trans {s t u : State} (h : KeepsWritten s t) (g : KeepsWritten t u) : KeepsWritten s u :=
  ⟨fun r hr => g.1 r (h.1 r hr), fun a ha => g.2 a (h.2 a ha)⟩

theorem keepsWritten_setReg (s : State) (r : Reg) (v : Nat) : KeepsWritten s (s.setReg r v) := by
  refine ⟨fun q hq => ?_, fun _ h => h⟩
  by_cases e : q = r
  · subst e; exact State.setReg_written_self _ _ _
  · rw [State.setReg_written_ne _ _ e]; exact hq

theorem keepsWritten_writeBytes (s : State) (a : Nat) (bs : List Byte) : KeepsWritten s (s.writeBytes a bs) := by
  refine ⟨fun _ h => h, fun b h => ?_⟩
  by_cases e : b < a ∨ a + bs.length ≤ b
  · rwa [writeBytes_byteAt_outside s a bs e]
  · obtain ⟨k, rfl⟩ := Nat.exists_eq_add_of_le (show a ≤ b by omega)
    rw [writeBytes_byteAt_inside s a bs (by omega)]
    rfl

theorem keepsWritten_of_eq {s t : State} (hw : t.written = s.written) (hd : t.dm = s.dm) : KeepsWritten s t :=
  ⟨fun r h => by rwa [hw], fun a h => by rwa [State.byteAt, hd]⟩

/-- A command leaves no register and no byte unwritten that was written. -/
theorem Effect.keepsWritten {i : Instr} (h : Effect s t i) : KeepsWritten s t := by
  have adv : ∀ u : State, KeepsWritten u u.advance := fun u => keepsWritten_of_eq rfl rfl
  cases i <;> simp only [Effect] at h
  case fcfg | halt => first | subst h | obtain ⟨_, _, rfl⟩ := h
                      exact keepsWritten_of_eq rfl rfl
  case bnz => subst h; split <;> exact keepsWritten_of_eq rfl rfl
  case fld =>
    rcases h with ⟨v, rfl⟩ | rfl
    · exact (keepsWritten_setReg s _ v).trans (keepsWritten_of_eq rfl rfl)
    · exact keepsWritten_of_eq rfl rfl
  case csrw =>
    obtain ⟨c, u, _, h, rfl⟩ := h
    cases c <;> simp [State.writeCsr] at h <;> subst h <;> exact keepsWritten_of_eq rfl rfl
  case mulw | clmul =>
    obtain ⟨v, w, rfl⟩ := h
    exact ((keepsWritten_setReg s _ v).trans (keepsWritten_setReg _ _ w)).trans (adv _)
  case st => obtain ⟨_, rfl⟩ := h; exact (keepsWritten_writeBytes s _ _).trans (adv _)
  case fst => obtain ⟨_, _, rfl⟩ := h; exact (keepsWritten_writeBytes s _ _).trans (adv _)
  case nofl | monofn | monofl | fft | ifft | bfft =>
    obtain ⟨_, _, _, rfl⟩ := h
    exact (keepsWritten_writeBytes s _ _).trans (adv _)
  all_goals obtain ⟨v, rfl⟩ := h; exact (keepsWritten_setReg s _ v).trans (adv _)

theorem step_keepsWritten (h : step s = .next t) : KeepsWritten s t := by
  have fault : ∀ c, KeepsWritten s (s.faultEntry c) := fun _ => keepsWritten_of_eq rfl rfl
  have performed : ∀ {e : Stop}, perform s (.error e) = .next t → KeepsWritten s t := by
    intro e h
    rcases perform_eq_next.1 h with h | ⟨c, _, _, rfl⟩
    · cases h
    · exact fault c
  unfold step at h
  split at h
  · split at h
    · unfold State.performWord at h
      split at h
      · rcases exec_eq_next h with h | ⟨c, _, rfl⟩
        · exact h.keepsWritten
        · exact fault c
      · exact performed h
    · exact performed h
  · cases h; exact .refl s

/-- A host action but RESET leaves nothing unwritten that was written, and what it writes is then written. -/
theorem port_keepsWritten {a : PortAction} {r : PortReply} (h : s.port a = .next (t, r)) (ha : a ≠ .reset) :
    KeepsWritten s t ∧ (∀ q v, a = .writeReg q v → t.written[q.val] = true) ∧
      ∀ b bs, a = .writeDm b bs → ∀ k, b ≤ k → k < b + bs.length → (t.byteAt k).isSome := by
  have same : ∀ {u : State}, u.written = s.written → u.dm = s.dm → u = t → KeepsWritten s t :=
    fun hw hd e => e ▸ keepsWritten_of_eq hw hd
  cases a <;> simp only [State.port, State.portStopped, portRead] at h
  case reset => exact absurd rfl ha
  case writeDm =>
    split at h
    · cases h
    split at h <;> cases h
    refine ⟨keepsWritten_writeBytes _ _ _, by simp, ?_⟩
    rintro b bs ⟨⟩ k h1 h2
    obtain ⟨j, rfl⟩ := Nat.exists_eq_add_of_le h1
    rw [writeBytes_byteAt_inside _ _ _ (by omega)]
    rfl
  case writeReg =>
    split at h
    · cases h
    split at h <;> cases h
    refine ⟨keepsWritten_setReg _ _ _, ?_, by simp⟩
    rintro q v ⟨⟩
    exact State.setReg_written_self _ _ _
  case writeCsr n v =>
    refine ⟨?_, by simp, by simp⟩
    repeat' split at h
    all_goals cases h
    rename_i k _ _ hk
    cases k <;> simp [State.writeCsr] at hk <;> subst hk <;> exact keepsWritten_of_eq rfl rfl
  all_goals
    refine ⟨?_, by simp, by simp⟩
    repeat' split at h
    all_goals cases h
    all_goals exact keepsWritten_of_eq rfl rfl

/-- What the host has written of a unit since RESET is written in the state the unit is in. -/
theorem reaches_written (hs : Reaches c h s) :
    (∀ r, hostWroteReg h r = true → s.written[r.val] = true) ∧ ∀ a, hostWroteByte h a = true → (s.byteAt a).isSome := by
  induction hs with
  | reset => simp [hostWroteReg, hostWroteByte]
  | step _ ht ih =>
    have k := step_keepsWritten ht
    exact ⟨fun r hr => k.1 r (ih.1 r (by simpa [hostWroteReg] using hr)),
      fun a ha => k.2 a (ih.2 a (by simpa [hostWroteByte] using ha))⟩
  | @host h s t a r _ ht ih =>
    by_cases ha : a = .reset
    · subst ha
      simp [hostWroteReg, hostWroteByte]
    · obtain ⟨k, hr, hd⟩ := port_keepsWritten ht ha
      refine ⟨fun q hq => ?_, fun b hb => ?_⟩
      · cases a <;> simp only [hostWroteReg, Bool.or_eq_true, decide_eq_true_eq] at hq
        case writeReg =>
          rcases hq with rfl | hq
          · exact hr _ _ rfl
          · exact k.1 q (ih.1 q hq)
        case reset => exact absurd rfl ha
        all_goals exact k.1 q (ih.1 q hq)
      · cases a <;> simp only [hostWroteByte, Bool.or_eq_true, Bool.and_eq_true, decide_eq_true_eq] at hb
        case writeDm =>
          rcases hb with hb | hb
          · exact hd _ _ rfl b hb.1 hb.2
          · exact k.2 b (ih.2 b hb)
        case reset => exact absurd rfl ha
        all_goals exact k.2 b (ih.2 b hb)

/-- Under the premise `inputs_written(S)` every register and byte of `S` is written (70_reset_and_hazards.md R711). -/
theorem inputsWritten_written (hs : Reaches c h s) {rs : List Reg} {addresses : List Nat}
    (hi : inputsWritten h rs addresses) :
    (∀ r ∈ rs, s.written[r.val] = true) ∧ ∀ a ∈ addresses, (s.byteAt a).isSome :=
  ⟨fun r hr => (reaches_written hs).1 r (hi.1 r hr), fun a ha => (reaches_written hs).2 a (hi.2 a ha)⟩

end Sys2Proof.Machine
end

