-- ==== Sys2Proof/Laws/PrimeArith.lean ====
section
/-! SUPPORT. What the prime field's functions compute: the inverses, and the Montgomery functions in the integers modulo `p`. -/

namespace Sys2Proof.Machine

/-! ## inv_mod_b (43_natural.md R303) -/

/-- One Newton-Hensel step doubles the number of low bits in which `i * j` is 1. -/
theorem henselStep_doubles (i j : BitVec 64) (k : Nat) (hk : (i * j - 1).toNat % 2 ^ k = 0) (h : 2 * k ≤ 64) :
    (i * henselStep i j - 1).toNat % 2 ^ (2 * k) = 0 := by
  obtain ⟨e, he⟩ : ∃ e, e = i * j - 1 := ⟨_, rfl⟩
  have hsq : i * henselStep i j - 1 = -(e * e) := by
    subst he; simp only [henselStep]; ring
  rw [← he] at hk
  obtain ⟨q, hq⟩ := Nat.dvd_of_mod_eq_zero hk
  have h2 : (e * e).toNat = (2 ^ (2 * k) * (q * q)) % 2 ^ 64 := by
    rw [BitVec.toNat_mul, hq]; ring_nf
  have h3 : 2 ^ (2 * k) ∣ (e * e).toNat := by
    rw [h2]
    exact (Nat.dvd_mod_iff (pow_dvd_pow 2 h)).2 (Dvd.intro _ rfl)
  rw [hsq, BitVec.toNat_neg]
  exact Nat.mod_eq_zero_of_dvd ((Nat.dvd_mod_iff (pow_dvd_pow 2 h)).2 (Nat.dvd_sub (pow_dvd_pow 2 h) h3))

/-- `inv_mod_b` of an odd word is its inverse modulo `2^64`. -/
theorem invModB_spec (i : BitVec 64) (h : i.toNat % 2 = 1) : i.toNat * (invModB i).toNat % 2 ^ 64 = 1 := by
  have h0 : (i * 1 - 1).toNat % 2 ^ 1 = 0 := by
    have := i.isLt
    simp; omega
  have h1 := henselStep_doubles _ _ 1 h0 (by decide)
  have h2 := henselStep_doubles _ _ 2 h1 (by decide)
  have h3 := henselStep_doubles _ _ 4 h2 (by decide)
  have h4 := henselStep_doubles _ _ 8 h3 (by decide)
  have h5 := henselStep_doubles _ _ 16 h4 (by decide)
  have h6 := henselStep_doubles _ _ 32 h5 (by decide)
  rw [show henselStep i (henselStep i (henselStep i (henselStep i (henselStep i (henselStep i 1))))) = invModB i from rfl]
    at h6
  have h7 : i * invModB i - 1 = 0 := by
    apply BitVec.eq_of_toNat_eq
    have := (i * invModB i - 1).isLt
    simpa [Nat.mod_eq_of_lt this] using h6
  have h8 : i * invModB i = 1 := sub_eq_zero.1 h7
  simpa [BitVec.toNat_mul] using congrArg BitVec.toNat h8

/-! ## The inverse modulo a number -/

/-- With enough fuel, Euclid's loop ends at the greatest common divisor of its remainders. -/
theorem invModLoop_spec {m a : Nat} (hm : 0 < m) (fuel : Nat) {r0 r1 t0 t1 : Nat} (hr : r1 ≤ r0) (hf : r0 * r1 < 2 ^ fuel)
    (h0 : (t0 * a : ZMod m) = r0) (h1 : (t1 * a : ZMod m) = r1) (hl0 : t0 < m) (hl1 : t1 < m) :
    invModLoop m fuel r0 r1 t0 t1 < m ∧ (invModLoop m fuel r0 r1 t0 t1 * a : ZMod m) = Nat.gcd r0 r1 := by
  induction fuel generalizing r0 r1 t0 t1 with
  | zero =>
    have : r1 = 0 := by
      rcases Nat.eq_zero_or_pos r1 with h | h
      · exact h
      · have := Nat.mul_le_mul (Nat.le_trans h hr) h
        omega
    subst this
    simpa [invModLoop] using ⟨hl0, h0⟩
  | succ fuel ih =>
    rw [invModLoop]
    split
    · subst_vars
      simpa using ⟨hl0, h0⟩
    · rename_i hne
      have hpos : 0 < r1 := Nat.pos_of_ne_zero hne
      have hdm := Nat.div_add_mod r0 r1
      have hlt := Nat.mod_lt r0 hpos
      have hq : 1 ≤ r0 / r1 := (Nat.one_le_div_iff hpos).2 hr
      have hsub : ((m - r0 / r1 * t1 % m : Nat) : ZMod m) = -(r0 / r1 * t1 : Nat) := by
        rw [Nat.cast_sub (Nat.mod_lt _ hm).le, ZMod.natCast_self, zero_sub, ZMod.natCast_mod]
      rw [Nat.gcd_comm r0 r1, Nat.gcd_rec r1 r0, Nat.gcd_comm]
      refine ih hlt.le ?_ h1 ?_ hl1 (Nat.mod_lt _ hm)
      · have : 2 * (r0 % r1) ≤ r0 := by nlinarith
        have : 2 * (r1 * (r0 % r1)) ≤ r0 * r1 := by nlinarith
        rw [pow_succ] at hf
        omega
      · rw [ZMod.natCast_mod, Nat.cast_add, hsub]
        have hr0 : (r0 : ZMod m) = r1 * (r0 / r1 : Nat) + (r0 % r1 : Nat) := by exact_mod_cast congrArg (Nat.cast (R := ZMod m)) hdm.symm
        push_cast at hr0 ⊢
        rw [add_mul, h0, hr0]
        linear_combination -((r0 / r1 : Nat) : ZMod m) * h1

/-- `invMod` of a number prime to `m` is its inverse modulo `m`. -/
theorem invMod_spec {a m : Nat} (hm : 2 ≤ m) (h : Nat.gcd a m = 1) :
    invMod a m < m ∧ (a : ZMod m) * (invMod a m : Nat) = 1 := by
  have hlt : a % m < m := Nat.mod_lt _ (by omega)
  have hlog : m < 2 ^ (m.log2 + 1) := Nat.lt_log2_self
  have := invModLoop_spec (m := m) (a := a) (by omega) (2 * m.log2 + 4) (r0 := m) (r1 := a % m) (t0 := 0) (t1 := 1) hlt.le
    (by
      have h4 : (2 : Nat) ^ (2 * m.log2 + 4) = 2 ^ (m.log2 + 1) * 2 ^ (m.log2 + 1) * 4 := by ring
      rw [h4]
      nlinarith)
    (by simp) (by simp) (by omega) (by omega)
  rw [Nat.gcd_comm, ← Nat.gcd_rec, Nat.gcd_comm, h] at this
  exact ⟨this.1, by rw [mul_comm]; simpa [invMod] using this.2⟩

/-! ## The Montgomery functions -/

variable {p : Nat} (n : Nat)

/-- `R^{-1}` is the inverse of `R = 2^n` modulo an odd modulus. -/
theorem PF.rInv_spec (hodd : p % 2 = 1) (h3 : 3 ≤ p) : 2 ^ n * PF.rInv p n % p = 1 := by
  unfold PF.rInv
  rw [Nat.mul_mod_mod, ← mul_pow, show 2 * ((p + 1) / 2) = p + 1 by omega, Nat.pow_mod]
  simp [Nat.mod_eq_of_lt (show 1 < p by omega)]

/-- `R * R^{-1} = 1` in the integers modulo `p`. -/
theorem PF.two_pow_mul_rInv (hodd : p % 2 = 1) (h3 : 3 ≤ p) : (2 ^ n * PF.rInv p n : ZMod p) = 1 := by
  have := (ZMod.natCast_eq_natCast_iff' (2 ^ n * PF.rInv p n) 1 p).2 (by
    rw [PF.rInv_spec n hodd h3, Nat.mod_eq_of_lt (by omega)])
  simpa using this

/-- `PF.red` gives the residue that `R` takes back to its argument. -/
theorem PF.red_spec (hodd : p % 2 = 1) (h3 : 3 ≤ p) (t : Nat) : PF.red p n t < p ∧ PF.red p n t * 2 ^ n % p = t % p := by
  refine ⟨Nat.mod_lt _ (by omega), ?_⟩
  unfold PF.red
  rw [Nat.mod_mul_mod, mul_assoc, Nat.mul_mod, mul_comm (PF.rInv p n), PF.rInv_spec n hodd h3]
  simp

theorem PF.cast_red (t : Nat) : (PF.red p n t : ZMod p) = t * PF.rInv p n := by
  simp [PF.red]

theorem PF.cast_add (a b : Nat) : (PF.add p a b : ZMod p) = a + b := by
  simp [PF.add]

theorem PF.cast_sub (hp : 0 < p) (a b : Nat) : (PF.sub p a b : ZMod p) = a - b := by
  rw [PF.sub, ZMod.natCast_mod, Nat.cast_add, Nat.cast_sub (Nat.mod_lt _ hp).le]
  simp [sub_eq_add_neg]

theorem PF.cast_mul (a b : Nat) : (PF.mul p n a b : ZMod p) = a * b * PF.rInv p n := by
  simp [PF.mul, PF.cast_red]

theorem PF.cast_enc (v : Nat) : (PF.enc p n v : ZMod p) = v * 2 ^ n := by
  simp [PF.enc]

/-- The inverse, where `PF.inv` gives one, undoes the canonical element. -/
theorem PF.inv_spec (hodd : p % 2 = 1) (h3 : 3 ≤ p) {a c : Nat} (h : PF.inv p n a = .ok c) :
    c < p ∧ (PF.dec p n a : ZMod p) * PF.dec p n c = 1 := by
  unfold PF.inv at h
  by_cases hg : Nat.gcd (PF.dec p n a) p = 1
  · obtain rfl : PF.enc p n (invMod (PF.dec p n a) p) = c := by
      simpa [hg, require, bind, Except.bind] using h
    refine ⟨Nat.mod_lt _ (by omega), ?_⟩
    have h1 := (invMod_spec (by omega) hg).2
    have h2 := PF.two_pow_mul_rInv n hodd h3
    rw [PF.dec, PF.dec, PF.cast_red, PF.cast_red, PF.cast_enc] at *
    linear_combination (2 ^ n * (PF.rInv p n : ZMod p)) * h1 + h2
  · simp [hg, require, raise, bind, Except.bind] at h

/-- Where the canonical element is a unit, `PF.inv` gives an inverse. -/
theorem PF.inv_ok {a : Nat} (h : Nat.gcd (PF.dec p n a) p = 1) : ∃ c, PF.inv p n a = .ok c :=
  ⟨_, by simp [PF.inv, h, require, bind, Except.bind]; rfl⟩

/-- `PF.inv` gives an inverse exactly where the canonical element is a unit modulo `p` (44_prime_field.md R355). -/
theorem PF.inv_eq_ok_iff {a : Nat} : (∃ c, PF.inv p n a = .ok c) ↔ IsUnit (PF.dec p n a : ZMod p) := by
  rw [ZMod.isUnit_iff_coprime]
  refine ⟨fun ⟨c, h⟩ => ?_, PF.inv_ok n⟩
  by_contra hg
  simp [PF.inv, require, raise, bind, Except.bind, show ¬ Nat.gcd (PF.dec p n a) p = 1 from hg] at h

end Sys2Proof.Machine
end

