-- ==== Sys2Proof/Laws/Interpolation.lean ====
section
/-! SUPPORT. The functions over polynomials of `Machine/Fields.lean`, in a commutative ring that represents the selected field:
evaluation, divided differences, interpolation, basis conversion. -/

namespace Sys2Proof.Machine

open Sys2Proof.Safety

/-! ## A ring that represents a field of the machine -/

/-- The elements below `bound` stand, one to one, for elements of the ring `R`, and `f`'s operations for the ring's. -/
structure Represents (f : FieldOps) (bound : Nat) {R : Type} [CommRing R] (φ : Nat → R) : Prop where
  zero_lt : 0 < bound
  zero : φ 0 = 0
  add : ∀ a b, φ (f.add a b) = φ a + φ b
  sub : ∀ a b, φ (f.sub a b) = φ a - φ b
  mul : ∀ a b, φ (f.mul a b) = φ a * φ b
  add_lt : ∀ {a b}, a < bound → b < bound → f.add a b < bound
  sub_lt : ∀ {a b}, a < bound → b < bound → f.sub a b < bound
  mul_lt : ∀ {a b}, a < bound → b < bound → f.mul a b < bound
  inj : ∀ {a b}, a < bound → b < bound → φ a = φ b → a = b

/-- A configured prime field is represented by its canonical elements, in the integers modulo `p`. -/
theorem represents_primeField {s : State} (h : FieldReady s) :
    Represents s.primeField s.p fun a => (PF.dec s.p s.params.regBits a : ZMod s.p) := by
  obtain ⟨_, hodd, h3, _⟩ := h
  have hpos : 0 < s.p := by omega
  refine ⟨hpos, ?_, fun a b => ?_, fun a b => ?_, fun a b => ?_, fun _ _ => Nat.mod_lt _ hpos, fun _ _ => Nat.mod_lt _ hpos,
    fun _ _ => Nat.mod_lt _ hpos, fun {a b} ha hb hab => ?_⟩
  · simp [PF.dec, PF.red]
  · simp only [State.primeField, PF.dec, PF.cast_red, PF.cast_add]; ring
  · simp only [State.primeField, PF.dec, PF.cast_red, PF.cast_sub hpos]; ring
  · simp only [State.primeField, PF.dec, PF.cast_red, PF.cast_mul]; ring
  · have h1 := PF.red_spec s.params.regBits hodd h3 a
    have h2 := PF.red_spec s.params.regBits hodd h3 b
    simp only [PF.dec] at hab
    rw [ZMod.natCast_eq_natCast_iff', Nat.mod_eq_of_lt h1.1, Nat.mod_eq_of_lt h2.1] at hab
    rw [hab, h2.2, Nat.mod_eq_of_lt ha, Nat.mod_eq_of_lt hb] at h1
    exact h1.2.symm

/-- GF(2^128) is represented by the quotient ring by its polynomial. -/
theorem represents_binaryField {poly : Nat} (hp : 2 ^ 128 ≤ poly ∧ poly < 2 ^ 129) :
    Represents (binaryField poly) (2 ^ 128) (gfElement poly) := by
  refine ⟨by positivity, gfElement_zero, gfElement_add, gfElement_sub, fun a b => ?_, ?_, ?_, fun _ _ => ?_, ?_⟩
  · rw [binaryField_mul, gfElement_mul hp]
  · intro a b ha hb; exact GF.add_lt ha hb
  · intro a b ha hb; exact GF.add_lt ha hb
  · rw [binaryField_mul]; exact GF.mul_lt hp _ _
  · intro a b ha hb h; exact gfElement_injOn hp ha hb h

variable {f : FieldOps} {bound : Nat} {R : Type} [CommRing R] {φ : Nat → R}

/-! ## Evaluation -/

/-- Horner's rule stays below the bound. -/
theorem evalMonomial_lt (r : Represents f bound φ) {x : Nat} (hx : x < bound) {ms : List Nat} (h : ∀ m ∈ ms, m < bound) :
    f.evalMonomial x ms < bound := by
  induction ms with
  | nil => exact r.zero_lt
  | cons m ms ih =>
    exact r.add_lt (r.mul_lt (ih fun a ha => h a (by simp [ha])) hx) (h m (by simp))

/-- Horner's rule computes the sum of the `m_k * x^k`. -/
theorem evalMonomial_spec (r : Represents f bound φ) (x : Nat) (ms : List Nat) :
    φ (f.evalMonomial x ms) = ∑ k ∈ Finset.range ms.length, φ (ms.getD k 0) * φ x ^ k := by
  induction ms with
  | nil => simpa [FieldOps.evalMonomial] using r.zero
  | cons m ms ih =>
    rw [FieldOps.evalMonomial, r.add, r.mul, ih, List.length_cons, Finset.sum_range_succ', Finset.sum_mul]
    simp [pow_succ, mul_assoc]

/-- The evaluation of a Newton form stays below the bound. -/
theorem evalNewton_lt (r : Represents f bound φ) {x : Nat} (hx : x < bound) {ps : List (Nat × Nat)}
    (h : ∀ q ∈ ps, q.1 < bound ∧ q.2 < bound) : f.evalNewton x ps < bound := by
  match ps with
  | [] => exact r.zero_lt
  | [(node, c)] => exact (h (node, c) (by simp)).2
  | (node, c) :: q :: rest =>
    refine r.add_lt (r.mul_lt (evalNewton_lt r hx fun a ha => h a (by simp at ha ⊢; tauto)) ?_) (h (node, c) (by simp)).2
    exact r.sub_lt hx (h (node, c) (by simp)).1

/-- The nested evaluation of a Newton form, without the shortcut for its last coefficient. -/
theorem evalNewton_cons (r : Represents f bound φ) (x node c : Nat) (ps : List (Nat × Nat)) :
    φ (f.evalNewton x ((node, c) :: ps)) = φ (f.evalNewton x ps) * (φ x - φ node) + φ c := by
  match ps with
  | [] => simp [FieldOps.evalNewton, r.zero]
  | q :: rest => rw [FieldOps.evalNewton, r.add, r.mul, r.sub]

/-- The evaluation of a Newton form computes the sum of the `c_k * (x - X_0) * ... * (x - X_{k-1})`. -/
theorem evalNewton_spec (r : Represents f bound φ) (x : Nat) {nodes cs : List Nat} (h : nodes.length = cs.length) :
    φ (f.evalNewton x (nodes.zip cs)) =
      ∑ k ∈ Finset.range cs.length, φ (cs.getD k 0) * ∏ j ∈ Finset.range k, (φ x - φ (nodes.getD j 0)) := by
  induction nodes generalizing cs with
  | nil =>
    obtain rfl : cs = [] := List.length_eq_zero_iff.1 h.symm
    simpa [FieldOps.evalNewton] using r.zero
  | cons node nodes ih =>
    match cs with
    | [] => simp at h
    | c :: cs =>
      rw [List.zip_cons_cons, evalNewton_cons r, ih (by simpa using h), List.length_cons, Finset.sum_range_succ',
        Finset.sum_mul]
      simp [Finset.prod_range_succ', mul_assoc]

/-! ## From Newton form to monomial form -/

open Polynomial in
/-- The polynomial over the ring with these coefficients. -/
noncomputable def ringPoly (φ : Nat → R) (ms : List Nat) : Polynomial R :=
  ∑ k ∈ Finset.range ms.length, C (φ (ms.getD k 0)) * X ^ k

@[simp] theorem ringPoly_nil : ringPoly φ [] = 0 := by simp [ringPoly]

open Polynomial in
theorem ringPoly_cons (m : Nat) (ms : List Nat) : ringPoly φ (m :: ms) = ringPoly φ ms * X + C (φ m) := by
  rw [ringPoly, List.length_cons, Finset.sum_range_succ', ringPoly, Finset.sum_mul]
  simp [pow_succ, mul_assoc]

theorem ringPoly_eval (x : R) (ms : List Nat) :
    (ringPoly φ ms).eval x = ∑ k ∈ Finset.range ms.length, φ (ms.getD k 0) * x ^ k := by
  simp [ringPoly, Polynomial.eval_finsetSum]

open Polynomial in
/-- `(t - x) * A`, one coefficient at a time, from the coefficient before the first. -/
theorem zipWith_timesLinear (r : Represents f bound φ) (x prev : Nat) (as : List Nat) :
    ringPoly φ (List.zipWith (fun prev a => f.sub prev (f.mul a x)) (prev :: as) (as ++ [0])) =
      ringPoly φ as * (X - C (φ x)) + C (φ prev) := by
  induction as generalizing prev with
  | nil => simp [ringPoly_cons, r.sub, r.mul, r.zero]
  | cons a as ih =>
    rw [List.cons_append, List.zipWith_cons_cons, ringPoly_cons, ih a, ringPoly_cons, r.sub, r.mul, map_sub, map_mul]
    ring

open Polynomial in
theorem ringPoly_timesLinear (r : Represents f bound φ) (x : Nat) (as : List Nat) :
    ringPoly φ (f.timesLinear x as) = ringPoly φ as * (X - C (φ x)) := by
  rw [FieldOps.timesLinear, zipWith_timesLinear r]
  simp [r.zero]

open Polynomial in
theorem ringPoly_plusConstant (r : Represents f bound φ) (c : Nat) {as : List Nat} (h : as ≠ []) :
    ringPoly φ (f.plusConstant c as) = ringPoly φ as + C (φ c) := by
  match as with
  | a :: as => rw [FieldOps.plusConstant, ringPoly_cons, ringPoly_cons, r.add, map_add]; ring

open Polynomial in
/-- The expansion of a Newton form is the same polynomial. -/
theorem monomialOfNewton_spec (r : Represents f bound φ) {nodes cs : List Nat} (h : nodes.length = cs.length) :
    ringPoly φ (f.monomialOfNewton (nodes.zip cs)) =
      ∑ k ∈ Finset.range cs.length, C (φ (cs.getD k 0)) * ∏ j ∈ Finset.range k, (X - C (φ (nodes.getD j 0))) := by
  induction nodes generalizing cs with
  | nil =>
    obtain rfl : cs = [] := List.length_eq_zero_iff.1 h.symm
    simp [FieldOps.monomialOfNewton]
  | cons node nodes ih =>
    match cs with
    | [] => simp at h
    | c :: cs =>
      have hl : nodes.length = cs.length := by simpa using h
      have hr : ringPoly φ (f.monomialOfNewton ((node, c) :: nodes.zip cs)) =
          ringPoly φ (f.monomialOfNewton (nodes.zip cs)) * (X - C (φ node)) + C (φ c) := by
        match hz : nodes.zip cs with
        | [] => simp [FieldOps.monomialOfNewton, ringPoly_cons]
        | q :: rest =>
          rw [FieldOps.monomialOfNewton, ringPoly_plusConstant r, ringPoly_timesLinear r]
          intro h0
          have := congrArg List.length h0
          simp at this
      rw [List.zip_cons_cons, hr, ih hl, List.length_cons, Finset.sum_range_succ', Finset.sum_mul]
      simp [Finset.prod_range_succ', mul_assoc]

theorem timesLinear_lt (r : Represents f bound φ) {x : Nat} (hx : x < bound) {as : List Nat} (h : ∀ a ∈ as, a < bound) :
    ∀ a ∈ f.timesLinear x as, a < bound := by
  intro a ha
  rw [FieldOps.timesLinear, List.mem_iff_getElem] at ha
  obtain ⟨i, hi, rfl⟩ := ha
  have h1 : ∀ b ∈ 0 :: as, b < bound := by
    intro b hb
    rcases List.mem_cons.1 hb with rfl | hb
    · exact r.zero_lt
    · exact h b hb
  have h2 : ∀ b ∈ as ++ [0], b < bound := by
    intro b hb
    rcases List.mem_append.1 hb with hb | hb
    · exact h b hb
    · simp at hb; subst hb; exact r.zero_lt
  rw [List.getElem_zipWith]
  exact r.sub_lt (h1 _ (List.getElem_mem _)) (r.mul_lt (h2 _ (List.getElem_mem _)) hx)

/-- The expansion of a Newton form stays below the bound. -/
theorem monomialOfNewton_lt (r : Represents f bound φ) {ps : List (Nat × Nat)} (h : ∀ q ∈ ps, q.1 < bound ∧ q.2 < bound) :
    ∀ a ∈ f.monomialOfNewton ps, a < bound := by
  match ps with
  | [] => simp [FieldOps.monomialOfNewton]
  | [(node, c)] => simpa [FieldOps.monomialOfNewton] using (h (node, c) (by simp)).2
  | (node, c) :: q :: rest =>
    have ih := monomialOfNewton_lt r (ps := q :: rest) fun a ha => h a (by simp at ha ⊢; tauto)
    have ht := timesLinear_lt r (h (node, c) (by simp)).1 ih
    intro a ha
    rw [FieldOps.monomialOfNewton] at ha
    match hl : f.timesLinear node (f.monomialOfNewton (q :: rest)) with
    | [] => simp [hl, FieldOps.plusConstant] at ha
    | b :: bs =>
      rw [hl] at ha ht
      rcases List.mem_cons.1 ha with rfl | ha
      · exact r.add_lt (ht b (by simp)) (h (node, c) (by simp)).2
      · exact ht a (by simp [ha])

/-! ## Divided differences -/

/-- Every difference of a node and an earlier one has an inverse that the field finds. -/
def InvertibleNodes (f : FieldOps) (bound : Nat) (φ : Nat → R) (nodes : List Nat) : Prop :=
  ∀ i j, i < j → j < nodes.length → ∃ c, f.inv (f.sub (nodes.getD j 0) (nodes.getD i 0)) = .ok c ∧ c < bound ∧
    φ (f.sub (nodes.getD j 0) (nodes.getD i 0)) * φ c = 1

/-- A column of the table is the next divided differences of the column before. -/
theorem nextColumn_getElem {lows highs d qs : List Nat} (h : f.nextColumn lows highs d = .ok qs) {i : Nat}
    (hi : i < qs.length) :
    f.div (f.sub (d.getD (i + 1) 0) (d.getD i 0)) (f.sub (highs.getD i 0) (lows.getD i 0)) = .ok qs[i] := by
  induction lows generalizing highs d qs i with
  | nil =>
    obtain rfl : [] = qs := by simpa [FieldOps.nextColumn] using h
    simp at hi
  | cons low lows ih =>
    match highs, d with
    | [], d =>
      obtain rfl : [] = qs := by simpa [FieldOps.nextColumn] using h
      simp at hi
    | high :: highs, [] =>
      obtain rfl : [] = qs := by simpa [FieldOps.nextColumn] using h
      simp at hi
    | high :: highs, [a] =>
      obtain rfl : [] = qs := by simpa [FieldOps.nextColumn] using h
      simp at hi
    | high :: highs, a :: b :: d =>
      simp only [FieldOps.nextColumn, bind_eq_ok, Except.ok.injEq] at h
      obtain ⟨q, hq, qs', h, rfl⟩ := h
      cases i with
      | zero => simpa using hq
      | succ i => simpa using ih h (by simpa using hi)

/-- The table's heads from column `k` on are the divided differences from node 0. -/
theorem tableFrom_getElem {nodes vs d cs : List Nat} (k : Nat) (hk : d.length + k = nodes.length)
    (hd : ∀ i (h : i < d.length), dividedDifference f nodes vs i k = .ok d[i])
    (h : f.tableFrom nodes (nodes.drop (k + 1)) d = .ok cs) {m : Nat} (hm : m < cs.length) :
    dividedDifference f nodes vs 0 (k + m) = .ok cs[m] := by
  match d with
  | [] =>
    obtain rfl : [] = cs := by simpa [FieldOps.tableFrom] using h
    simp at hm
  | a :: d =>
    have h0 : dividedDifference f nodes vs 0 k = .ok a := hd 0 (by simp)
    match hh : nodes.drop (k + 1) with
    | [] =>
      obtain rfl : [a] = cs := by simpa [hh, FieldOps.tableFrom] using h
      obtain rfl : m = 0 := by simpa using hm
      exact h0
    | high :: highs =>
      have ht : highs = nodes.drop (k + 1 + 1) := by rw [← List.drop_drop, hh]; rfl
      rw [hh, FieldOps.tableFrom] at h
      simp only [bind_eq_ok, Except.ok.injEq] at h
      obtain ⟨next, h1, cs', h2, rfl⟩ := h
      cases m with
      | zero => exact h0
      | succ m =>
        have hl := nextColumn_length h1
        have hlen : (high :: highs).length = nodes.length - (k + 1) := by rw [← hh, List.length_drop]
        simp only [List.length_cons] at hk hl hlen
        have := tableFrom_getElem (vs := vs) (k + 1) (by omega) (fun i hi => ?_) (ht ▸ h2) (m := m) (by simpa using hm)
        · rw [show k + (m + 1) = k + 1 + m by omega, this]; simp
        · have hdiv := nextColumn_getElem h1 hi
          have hi1 : i + 1 < (a :: d).length := by simp only [List.length_cons]; omega
          have hi0 : i < (a :: d).length := by omega
          have e1 := hd (i + 1) hi1
          have e2 := hd i hi0
          have e3 : (high :: highs).getD i 0 = nodes.getD (i + k + 1) 0 := by
            rw [← hh]; simp [List.getD_eq_getElem?_getD, show k + 1 + i = i + k + 1 by omega]
          have e4 : (a :: d).getD (i + 1) 0 = (a :: d)[i + 1] := List.getD_eq_getElem _ _ hi1
          have e5 : (a :: d).getD i 0 = (a :: d)[i] := List.getD_eq_getElem _ _ hi0
          rw [e3, e4, e5] at hdiv
          rw [dividedDifference, e1, e2]
          exact hdiv
termination_by nodes.length - k
decreasing_by simp only [List.length_cons] at hk; omega

/-- The Newton coefficients are the divided differences `f[X_0..X_m]`. -/
theorem newtonOfValues_getElem {nodes vs cs : List Nat} (hl : nodes.length = vs.length)
    (h : f.newtonOfValues nodes vs = .ok cs) {m : Nat} (hm : m < cs.length) :
    dividedDifference f nodes vs 0 m = .ok cs[m] := by
  have := tableFrom_getElem (vs := vs) 0 (by simpa using hl.symm) (fun i hi => ?_) h hm
  · simpa using this
  · rw [dividedDifference, List.getD_eq_getElem _ _ hi]

/-- Over nodes whose differences the field inverts, the divided differences never stop. -/
theorem newtonOfValues_ok {nodes vs : List Nat} (h : InvertibleNodes f bound φ nodes) :
    ∃ cs, f.newtonOfValues nodes vs = .ok cs := by
  match hm : f.newtonOfValues nodes vs with
  | .ok cs => exact ⟨cs, rfl⟩
  | .error e =>
    obtain ⟨i, j, hij, hj, he⟩ := newtonOfValues_eq_error hm
    obtain ⟨c, hc, _⟩ := h i j hij hj
    rw [hc] at he
    simp at he

/-- Over such nodes every divided difference is there, below the bound, and multiplied by the difference of its outer nodes gives
the difference of the two it is made from. -/
theorem dividedDifference_spec (r : Represents f bound φ) {nodes vs : List Nat} (hn : InvertibleNodes f bound φ nodes)
    (hl : nodes.length = vs.length) (hv : ∀ e ∈ vs, e < bound) :
    ∃ col : Nat → Nat → Nat, (∀ i, i < vs.length → col 0 i = vs.getD i 0) ∧
      (∀ k i, i + k < vs.length → dividedDifference f nodes vs i k = .ok (col k i) ∧ col k i < bound) ∧
      ∀ k i, i + k + 1 < vs.length → φ (col (k + 1) i) * (φ (nodes.getD (i + k + 1) 0) - φ (nodes.getD i 0)) =
        φ (col k (i + 1)) - φ (col k i) := by
  have key : ∀ k i, ∃ c, i + k < vs.length → dividedDifference f nodes vs i k = .ok c ∧ c < bound := by
    intro k
    induction k with
    | zero =>
      intro i
      refine ⟨vs.getD i 0, fun h => ⟨by simp [dividedDifference], ?_⟩⟩
      rw [List.getD_eq_getElem _ _ (by omega)]
      exact hv _ (List.getElem_mem _)
    | succ k ih =>
      intro i
      by_cases h : i + (k + 1) < vs.length
      · obtain ⟨b, hb⟩ := ih (i + 1)
        obtain ⟨a, ha⟩ := ih i
        obtain ⟨c, hc, hcl, _⟩ := hn i (i + k + 1) (by omega) (by omega)
        refine ⟨f.mul (f.sub b a) c, fun _ => ⟨?_, ?_⟩⟩
        · rw [dividedDifference, (hb (by omega)).1, (ha (by omega)).1]
          simp only [comp_ok_bind, FieldOps.div, hc]
        · exact r.mul_lt (r.sub_lt (hb (by omega)).2 (ha (by omega)).2) hcl
      · exact ⟨0, fun h' => absurd h' h⟩
  choose col hcol using key
  refine ⟨col, fun i hi => ?_, fun k i h => hcol k i h, fun k i h => ?_⟩
  · have := (hcol 0 i (by omega)).1
    simpa [dividedDifference, eq_comm] using this
  · obtain ⟨c, hc, _, h1⟩ := hn i (i + k + 1) (by omega) (by omega)
    have h2 := (hcol (k + 1) i (by omega)).1
    rw [dividedDifference, (hcol k (i + 1) (by omega)).1, (hcol k i (by omega)).1] at h2
    simp only [comp_ok_bind, FieldOps.div, hc, Except.ok.injEq] at h2
    rw [r.sub] at h1
    rw [← h2, r.mul, r.sub]
    linear_combination (φ (col k (i + 1)) - φ (col k i)) * h1

/-! ## Interpolation in the ring -/

/-- Newton's interpolation: divided differences over consecutive nodes make a form that takes the values at the nodes. -/
theorem newton_interpolates {n : Nat} {xs v : Nat → R} {col : Nat → Nat → R} (h0 : ∀ i, i < n → col 0 i = v i)
    (hs : ∀ k i, i + k + 1 < n → col (k + 1) i * (xs (i + k + 1) - xs i) = col k (i + 1) - col k i) (k i j : Nat)
    (hj : j ≤ k) (hk : i + k < n) :
    ∑ m ∈ Finset.range (k + 1), col m i * ∏ l ∈ Finset.range m, (xs (i + j) - xs (i + l)) = v (i + j) := by
  have shift : ∀ (x : R) (k i : Nat), i + k + 1 < n →
      ∑ m ∈ Finset.range (k + 1), col m (i + 1) * ∏ l ∈ Finset.range m, (x - xs (i + 1 + l)) -
        ∑ m ∈ Finset.range (k + 1), col m i * ∏ l ∈ Finset.range m, (x - xs (i + l)) =
      (col k (i + 1) - col k i) * ∏ l ∈ Finset.range k, (x - xs (i + 1 + l)) := by
    intro x k i hk
    induction k with
    | zero => simp
    | succ k ih =>
      rw [Finset.sum_range_succ, Finset.sum_range_succ _ (k + 1)]
      have h1 := ih (by omega)
      have h2 := hs k i (by omega)
      rw [← h2] at h1
      rw [Finset.prod_range_succ (fun l => x - xs (i + 1 + l)) k, Finset.prod_range_succ' (fun l => x - xs (i + l)) k]
      have h3 : ∏ l ∈ Finset.range k, (x - xs (i + (l + 1))) = ∏ l ∈ Finset.range k, (x - xs (i + 1 + l)) :=
        Finset.prod_congr rfl fun l _ => by rw [show i + (l + 1) = i + 1 + l by omega]
      rw [h3, show i + 1 + k = i + k + 1 by omega]
      rw [show i + 0 = i by omega]
      linear_combination h1
  induction k generalizing i j with
  | zero =>
    obtain rfl : j = 0 := by omega
    simpa using h0 i (by omega)
  | succ k ih =>
    rcases Nat.eq_or_lt_of_le hj with rfl | hlt
    · have h1 := shift (xs (i + (k + 1))) k i (by omega)
      have h2 := ih (i + 1) k (by omega) (by omega)
      rw [show i + 1 + k = i + (k + 1) by omega] at h2
      rw [h2] at h1
      rw [Finset.sum_range_succ, Finset.prod_range_succ' _ k]
      have h3 : ∏ l ∈ Finset.range k, (xs (i + (k + 1)) - xs (i + (l + 1))) =
          ∏ l ∈ Finset.range k, (xs (i + (k + 1)) - xs (i + 1 + l)) :=
        Finset.prod_congr rfl fun l _ => by rw [show i + (l + 1) = i + 1 + l by omega]
      have h4 := hs k i (by omega)
      rw [h3]
      rw [show i + 0 = i by omega] at *
      rw [show i + k + 1 = i + (k + 1) by omega] at h4
      linear_combination -h1 + (∏ l ∈ Finset.range k, (xs (i + (k + 1)) - xs (i + 1 + l))) * h4
    · rw [Finset.sum_range_succ, ih i j (by omega) (by omega)]
      have : ∏ l ∈ Finset.range (k + 1), (xs (i + j) - xs (i + l)) = 0 :=
        Finset.prod_eq_zero (Finset.mem_range.2 hlt) (sub_self _)
      rw [this]
      simp

/-- The Newton form made from values takes those values at the nodes. -/
theorem evalNewton_newtonOfValues (r : Represents f bound φ) {nodes vs cs : List Nat} (hn : InvertibleNodes f bound φ nodes)
    (hl : nodes.length = vs.length) (hx : ∀ e ∈ nodes, e < bound) (hv : ∀ e ∈ vs, e < bound)
    (h : f.newtonOfValues nodes vs = .ok cs) :
    (∀ c ∈ cs, c < bound) ∧ ∀ i, i < nodes.length → f.evalNewton (nodes.getD i 0) (nodes.zip cs) = vs.getD i 0 := by
  obtain ⟨col, h0, hc, hs⟩ := dividedDifference_spec r hn hl hv
  have hlen := newtonOfValues_length h hl
  have hcs : ∀ m, m < cs.length → cs.getD m 0 = col m 0 := by
    intro m hm
    have h1 := newtonOfValues_getElem hl h hm
    rw [(hc m 0 (by omega)).1] at h1
    rw [List.getD_eq_getElem _ _ hm]
    simpa using h1.symm
  have hcl : ∀ c ∈ cs, c < bound := by
    intro c hcm
    obtain ⟨m, hm, rfl⟩ := List.getElem_of_mem hcm
    have := hcs m hm
    rw [List.getD_eq_getElem _ _ hm] at this
    rw [this]
    exact (hc m 0 (by omega)).2
  refine ⟨hcl, fun i hi => ?_⟩
  have hxi : nodes.getD i 0 < bound := by
    rw [List.getD_eq_getElem _ _ hi]; exact hx _ (List.getElem_mem _)
  have hvi : vs.getD i 0 < bound := by
    rw [List.getD_eq_getElem _ _ (by omega)]; exact hv _ (List.getElem_mem _)
  refine r.inj (evalNewton_lt r hxi fun q hq => ?_) hvi ?_
  · exact ⟨hx _ (List.of_mem_zip hq).1, hcl _ (List.of_mem_zip hq).2⟩
  · rw [evalNewton_spec r _ (by omega)]
    have := newton_interpolates (n := vs.length) (xs := fun l => φ (nodes.getD l 0)) (v := fun l => φ (vs.getD l 0))
      (col := fun k i => φ (col k i)) (fun i hi => by rw [h0 i hi]) (fun k i h => hs k i h) (vs.length - 1) 0 i
      (by omega) (by omega)
    simp only [Nat.zero_add] at this
    rw [← this, show vs.length - 1 + 1 = cs.length by omega]
    exact Finset.sum_congr rfl fun m hm => by rw [hcs m (Finset.mem_range.1 hm)]

/-- The monomial form of values takes those values at the nodes. -/
theorem monomialOfValues_spec (r : Represents f bound φ) {nodes vs : List Nat} (hn : InvertibleNodes f bound φ nodes)
    (hl : nodes.length = vs.length) (hx : ∀ e ∈ nodes, e < bound) (hv : ∀ e ∈ vs, e < bound) :
    ∃ ms, f.monomialOfValues nodes vs = .ok ms ∧ ms.length = vs.length ∧ (∀ m ∈ ms, m < bound) ∧
      ∀ i, i < nodes.length → (ringPoly φ ms).eval (φ (nodes.getD i 0)) = φ (vs.getD i 0) := by
  obtain ⟨cs, hc⟩ := newtonOfValues_ok (vs := vs) hn
  obtain ⟨hcl, hev⟩ := evalNewton_newtonOfValues r hn hl hx hv hc
  have hlen := newtonOfValues_length hc hl
  refine ⟨f.monomialOfNewton (nodes.zip cs), by simp [FieldOps.monomialOfValues, hc], by simp [hlen, hl], ?_, fun i hi => ?_⟩
  · exact monomialOfNewton_lt r fun q hq => ⟨hx _ (List.of_mem_zip hq).1, hcl _ (List.of_mem_zip hq).2⟩
  · rw [← hev i hi, evalNewton_spec r _ (by omega), monomialOfNewton_spec r (by omega)]
    simp [Polynomial.eval_finsetSum, Polynomial.eval_prod]

end Sys2Proof.Machine
end

