-- ==== Sys2Proof/Laws/PerInstr.lean ====
section
/-! SUPPORT. The family `EncodedOpcode` of statements about every command, one lemma per constructor. -/

namespace Sys2Proof.Laws

/-- The encoding of a command carries, in bits 31..24, the opcode of the row of the opcode map that bears its mnemonic
(30_encoding.md R150, R156). -/
def EncodedOpcode.Statement (i : Instr) : Prop :=
  ∃ r ∈ opcodeMap, r.mnemonic = i.mnemonic ∧ r.pattern.toNat = opcodeField (encode i) * 2 ^ 24

theorem EncodedOpcode.wmul64 (rd ra rb rc : Reg) : EncodedOpcode.Statement (.wmul64 rd ra rb rc) :=
  ⟨⟨"WMUL64", 0x10000000, 0xFF0000FF⟩, by decide, rfl, by rw [encode, opcodeField_encR _ _ _ _ _ _ (by decide)]; rfl⟩

theorem EncodedOpcode.wmul32 (rd ra rb rc : Reg) : EncodedOpcode.Statement (.wmul32 rd ra rb rc) :=
  ⟨⟨"WMUL32", 0x11000000, 0xFF0000FF⟩, by decide, rfl, by rw [encode, opcodeField_encR _ _ _ _ _ _ (by decide)]; rfl⟩

theorem EncodedOpcode.leq (rd ra rb : Reg) : EncodedOpcode.Statement (.leq rd ra rb) :=
  ⟨⟨"LEQ", 0x20000000, 0xFF000FFF⟩, by decide, rfl, by rw [encode, opcodeField_encR _ _ _ _ _ _ (by decide)]; rfl⟩

theorem EncodedOpcode.lshr (rd ra rb : Reg) : EncodedOpcode.Statement (.lshr rd ra rb) :=
  ⟨⟨"LSHR", 0x21000000, 0xFF000FFF⟩, by decide, rfl, by rw [encode, opcodeField_encR _ _ _ _ _ _ (by decide)]; rfl⟩

theorem EncodedOpcode.lshri (rd ra : Reg) (amount : Nat) : EncodedOpcode.Statement (.lshri rd ra amount) :=
  ⟨⟨"LSHRI", 0x22000000, 0xFF00FF00⟩, by decide, rfl, by rw [encode, opcodeField_encR _ _ _ _ _ _ (by decide)]; rfl⟩

theorem EncodedOpcode.ld (rd ra : Reg) (offset : Nat) : EncodedOpcode.Statement (.ld rd ra offset) :=
  ⟨⟨"LD", 0x28000000, 0xFF000000⟩, by decide, rfl, by rw [encode, opcodeField_encM _ _ _ _ (by decide)]; rfl⟩

theorem EncodedOpcode.st (rs ra : Reg) (offset : Nat) : EncodedOpcode.Statement (.st rs ra offset) :=
  ⟨⟨"ST", 0x29000000, 0xFF000000⟩, by decide, rfl, by rw [encode, opcodeField_encM _ _ _ _ (by decide)]; rfl⟩

theorem EncodedOpcode.ldi (rd : Reg) (value : Nat) : EncodedOpcode.Statement (.ldi rd value) :=
  ⟨⟨"LDI", 0x2A000000, 0xFF0F0000⟩, by decide, rfl, by rw [encode, opcodeField_encM _ _ _ _ (by decide)]; rfl⟩

theorem EncodedOpcode.nlt (rd ra rb : Reg) : EncodedOpcode.Statement (.nlt rd ra rb) :=
  ⟨⟨"NLT", 0x30000000, 0xFF000FFF⟩, by decide, rfl, by rw [encode, opcodeField_encR _ _ _ _ _ _ (by decide)]; rfl⟩

theorem EncodedOpcode.nbit (rd ra rb : Reg) : EncodedOpcode.Statement (.nbit rd ra rb) :=
  ⟨⟨"NBIT", 0x31000000, 0xFF000FFF⟩, by decide, rfl, by rw [encode, opcodeField_encR _ _ _ _ _ _ (by decide)]; rfl⟩

theorem EncodedOpcode.invw (rd ra : Reg) : EncodedOpcode.Statement (.invw rd ra) :=
  ⟨⟨"INVW", 0x32000000, 0xFF00FFFF⟩, by decide, rfl, by rw [encode, opcodeField_encR _ _ _ _ _ _ (by decide)]; rfl⟩

theorem EncodedOpcode.fcfg (ra : Reg) (be : Bool) : EncodedOpcode.Statement (.fcfg ra be) :=
  ⟨⟨"FCFG", 0x40000000, 0xFFF0FFFE⟩, by decide, rfl, by rw [encode, opcodeField_encR _ _ _ _ _ _ (by decide)]; rfl⟩

theorem EncodedOpcode.fadd (rd ra rb : Reg) : EncodedOpcode.Statement (.fadd rd ra rb) :=
  ⟨⟨"FADD", 0x41000000, 0xFF000FFF⟩, by decide, rfl, by rw [encode, opcodeField_encR _ _ _ _ _ _ (by decide)]; rfl⟩

theorem EncodedOpcode.fsub (rd ra rb : Reg) : EncodedOpcode.Statement (.fsub rd ra rb) :=
  ⟨⟨"FSUB", 0x42000000, 0xFF000FFF⟩, by decide, rfl, by rw [encode, opcodeField_encR _ _ _ _ _ _ (by decide)]; rfl⟩

theorem EncodedOpcode.fmul (rd ra rb : Reg) : EncodedOpcode.Statement (.fmul rd ra rb) :=
  ⟨⟨"FMUL", 0x43000000, 0xFF000FFF⟩, by decide, rfl, by rw [encode, opcodeField_encR _ _ _ _ _ _ (by decide)]; rfl⟩

theorem EncodedOpcode.mulw (rd ra rb rc : Reg) : EncodedOpcode.Statement (.mulw rd ra rb rc) :=
  ⟨⟨"MULW", 0x44000000, 0xFF0000FF⟩, by decide, rfl, by rw [encode, opcodeField_encR _ _ _ _ _ _ (by decide)]; rfl⟩

theorem EncodedOpcode.fred (rd ra rb : Reg) : EncodedOpcode.Statement (.fred rd ra rb) :=
  ⟨⟨"FRED", 0x45000000, 0xFF000FFF⟩, by decide, rfl, by rw [encode, opcodeField_encR _ _ _ _ _ _ (by decide)]; rfl⟩

theorem EncodedOpcode.ftom (rd ra : Reg) : EncodedOpcode.Statement (.ftom rd ra) :=
  ⟨⟨"FTOM", 0x46000000, 0xFF00FFFF⟩, by decide, rfl, by rw [encode, opcodeField_encR _ _ _ _ _ _ (by decide)]; rfl⟩

theorem EncodedOpcode.ffromm (rd ra : Reg) : EncodedOpcode.Statement (.ffromm rd ra) :=
  ⟨⟨"FFROMM", 0x47000000, 0xFF00FFFF⟩, by decide, rfl, by rw [encode, opcodeField_encR _ _ _ _ _ _ (by decide)]; rfl⟩

theorem EncodedOpcode.feq (rd ra rb : Reg) : EncodedOpcode.Statement (.feq rd ra rb) :=
  ⟨⟨"FEQ", 0x48000000, 0xFF000FFF⟩, by decide, rfl, by rw [encode, opcodeField_encR _ _ _ _ _ _ (by decide)]; rfl⟩

theorem EncodedOpcode.fld (rd ra : Reg) (offset : Nat) : EncodedOpcode.Statement (.fld rd ra offset) :=
  ⟨⟨"FLD", 0x49000000, 0xFF000000⟩, by decide, rfl, by rw [encode, opcodeField_encM _ _ _ _ (by decide)]; rfl⟩

theorem EncodedOpcode.fst (rs ra : Reg) (offset : Nat) : EncodedOpcode.Statement (.fst rs ra offset) :=
  ⟨⟨"FST", 0x4A000000, 0xFF000000⟩, by decide, rfl, by rw [encode, opcodeField_encM _ _ _ _ (by decide)]; rfl⟩

theorem EncodedOpcode.clmul (rd ra rb rc : Reg) : EncodedOpcode.Statement (.clmul rd ra rb rc) :=
  ⟨⟨"CLMUL", 0x50000000, 0xFF0000FF⟩, by decide, rfl, by rw [encode, opcodeField_encR _ _ _ _ _ _ (by decide)]; rfl⟩

theorem EncodedOpcode.gadd (rd ra rb : Reg) : EncodedOpcode.Statement (.gadd rd ra rb) :=
  ⟨⟨"GADD", 0x51000000, 0xFF000FFF⟩, by decide, rfl, by rw [encode, opcodeField_encR _ _ _ _ _ _ (by decide)]; rfl⟩

theorem EncodedOpcode.gmul (rd ra rb : Reg) : EncodedOpcode.Statement (.gmul rd ra rb) :=
  ⟨⟨"GMUL", 0x52000000, 0xFF000FFF⟩, by decide, rfl, by rw [encode, opcodeField_encR _ _ _ _ _ _ (by decide)]; rfl⟩

theorem EncodedOpcode.evalm (rd ra rb : Reg) : EncodedOpcode.Statement (.evalm rd ra rb) :=
  ⟨⟨"EVALM", 0x60000000, 0xFF000FFF⟩, by decide, rfl, by rw [encode, opcodeField_encR _ _ _ _ _ _ (by decide)]; rfl⟩

theorem EncodedOpcode.nofl (rd ra : Reg) : EncodedOpcode.Statement (.nofl rd ra) :=
  ⟨⟨"NOFL", 0x61000000, 0xFF00FFFF⟩, by decide, rfl, by rw [encode, opcodeField_encR _ _ _ _ _ _ (by decide)]; rfl⟩

theorem EncodedOpcode.evaln (rd ra rb : Reg) : EncodedOpcode.Statement (.evaln rd ra rb) :=
  ⟨⟨"EVALN", 0x62000000, 0xFF000FFF⟩, by decide, rfl, by rw [encode, opcodeField_encR _ _ _ _ _ _ (by decide)]; rfl⟩

theorem EncodedOpcode.monofn (rd ra : Reg) : EncodedOpcode.Statement (.monofn rd ra) :=
  ⟨⟨"MONOFN", 0x63000000, 0xFF00FFFF⟩, by decide, rfl, by rw [encode, opcodeField_encR _ _ _ _ _ _ (by decide)]; rfl⟩

theorem EncodedOpcode.monofl (rd ra : Reg) : EncodedOpcode.Statement (.monofl rd ra) :=
  ⟨⟨"MONOFL", 0x64000000, 0xFF00FFFF⟩, by decide, rfl, by rw [encode, opcodeField_encR _ _ _ _ _ _ (by decide)]; rfl⟩

theorem EncodedOpcode.fft (ra rb : Reg) (size : Nat) : EncodedOpcode.Statement (.fft ra rb size) :=
  ⟨⟨"FFT", 0x70000000, 0xFFF00F00⟩, by decide, rfl, by rw [encode, opcodeField_encR _ _ _ _ _ _ (by decide)]; rfl⟩

theorem EncodedOpcode.ifft (ra rb : Reg) (size : Nat) : EncodedOpcode.Statement (.ifft ra rb size) :=
  ⟨⟨"IFFT", 0x71000000, 0xFFF00F00⟩, by decide, rfl, by rw [encode, opcodeField_encR _ _ _ _ _ _ (by decide)]; rfl⟩

theorem EncodedOpcode.bfft (ra rb : Reg) (size : Nat) : EncodedOpcode.Statement (.bfft ra rb size) :=
  ⟨⟨"BFFT", 0x72000000, 0xFFF00F00⟩, by decide, rfl, by rw [encode, opcodeField_encR _ _ _ _ _ _ (by decide)]; rfl⟩

theorem EncodedOpcode.halt : EncodedOpcode.Statement (.halt) :=
  ⟨⟨"HALT", 0xF0000000, 0xFFFFFFFF⟩, by decide, rfl, by rw [encode, opcodeField_encR _ _ _ _ _ _ (by decide)]; rfl⟩

theorem EncodedOpcode.bnz (ra : Reg) (offset : Int) : EncodedOpcode.Statement (.bnz ra offset) :=
  ⟨⟨"BNZ", 0xF1000000, 0xFFF00000⟩, by decide, rfl, by rw [encode, opcodeField_encM _ _ _ _ (by decide)]; rfl⟩

theorem EncodedOpcode.csrr (rd : Reg) (csr : Nat) : EncodedOpcode.Statement (.csrr rd csr) :=
  ⟨⟨"CSRR", 0xF2000000, 0xFF0FFF00⟩, by decide, rfl, by rw [encode, opcodeField_encR _ _ _ _ _ _ (by decide)]; rfl⟩

theorem EncodedOpcode.csrw (ra : Reg) (csr : Nat) : EncodedOpcode.Statement (.csrw ra csr) :=
  ⟨⟨"CSRW", 0xF3000000, 0xFFF0FF00⟩, by decide, rfl, by rw [encode, opcodeField_encR _ _ _ _ _ _ (by decide)]; rfl⟩

end Sys2Proof.Laws
end

