-- ==== Sys2Proof/Laws/Results.lean ====
section
/-! SUPPORT. The result predicates of `Safety.lean` for the updates commands make, the canonical form of the memories, and the
sums and points of `Safety.lean` in the ring of GF(2^128). -/

namespace Sys2Proof.Machine

open Sys2Proof.Safety

/-! ## Results -/

/-- A register written and the counter advanced: a register result. -/
theorem registerResult_setReg (s : State) (rd : Reg) {v : Nat} (h : v < 2 ^ s.params.regBits) :
    RegisterResult s (s.setReg rd v).advance rd v := by
  refine ⟨by simp [Nat.mod_eq_of_lt h], rfl, rfl, fun r hr => ?_, fun _ => rfl⟩
  have hr : r ≠ rd := by simpa using hr
  exact ⟨by simp [State.setReg_x, hr], by simpa using State.setReg_written_ne s v hr⟩

/-- An array written and the counter advanced: an array result. -/
theorem arrayResult_writeArray (s : State) (a : Nat) {ys : List Nat} (h : ∀ y ∈ ys, y < 2 ^ s.params.regBits) :
    ArrayResult s (s.writeArray a ys).advance a ys.length ys := by
  refine ⟨?_, rfl, rfl, fun b hb => writeArray_byteAt_outside s a ys hb⟩
  have e : ys.map (· % 2 ^ s.params.regBits) = ys := by
    conv_rhs => rw [← List.map_id ys]
    exact List.map_congr_left fun y hy => Nat.mod_eq_of_lt (h y hy)
  have k : (s.writeArray a ys).advance.readArray a ys.length = (s.writeArray a ys).readArray a ys.length :=
    readArray_congr (s := s.writeArray a ys) (t := (s.writeArray a ys).advance) rfl fun _ _ _ => rfl
  rw [k, readArray_writeArray, e]

/-- The bytes at an address hold a number exactly when reading them gives its bytes. -/
theorem holdsAt_iff {s : State} {be : Bool} {a n v : Nat} : HoldsAt s be a n v ↔ s.readBytes a n = .ok (valueBytes be n v) := by
  rw [readBytes_eq_ok]
  have key : ∀ k, k < n →
      (valueBytes be n v)[k]? = some (BitVec.ofNat 8 (v / 2 ^ (8 * (if be then n - 1 - k else k)))) := by
    intro k hk
    cases be
    · simpa [valueBytes] using leBytes_getElem? n v k hk
    · simp only [valueBytes, cond_true, if_true]
      rw [List.getElem?_reverse (by simpa), leBytes_length, leBytes_getElem? _ _ _ (by omega)]
  constructor
  · intro h
    refine ⟨by simp, fun k hk => ?_⟩
    have hk' : k < n := by simpa using hk
    rw [h k hk', ← key k hk', List.getElem?_eq_getElem hk]
  · rintro ⟨_, h⟩ k hk
    rw [h k (by simpa using hk), ← key k hk, List.getElem?_eq_getElem (by simpa using hk)]

/-- A number is read exactly when the bytes hold it, little-endian, and it fits them. -/
theorem memRead_eq_ok_iff_holdsAt {s : State} {a n v : Nat} :
    s.memRead a n = .ok v ↔ v < 2 ^ (8 * n) ∧ HoldsAt s false a n v := by
  rw [holdsAt_iff, memRead_eq_ok]
  constructor
  · rintro ⟨bs, h, rfl⟩
    have hl := (readBytes_eq_ok.1 h).1
    refine ⟨hl ▸ leValue_lt bs, ?_⟩
    rw [h, valueBytes, cond_false, ← hl, leBytes_leValue]
  · rintro ⟨hv, h⟩
    exact ⟨_, h, by rw [valueBytes, cond_false, leValue_leBytes, Nat.mod_eq_of_lt hv]⟩

/-! ## The canonical form of the memories (10_state.md R70) -/

theorem reset_memories (c : Params) : Memory.wf (State.resetWith c).dm ∧ Memory.wf (State.resetWith c).cm :=
  ⟨List.Pairwise.nil, List.Pairwise.nil⟩

theorem writeBytes_wf {s : State} (h : Memory.wf s.dm) (a : Nat) (bs : List Byte) : Memory.wf (s.writeBytes a bs).dm :=
  Memory.wf_writeRun h a bs

theorem memWrite_wf {s : State} (h : Memory.wf s.dm) (a n v : Nat) : Memory.wf (s.memWrite a n v).dm :=
  Memory.wf_writeRun h a _

theorem writeArray_wf {s : State} (h : Memory.wf s.dm) (a : Nat) (ys : List Nat) : Memory.wf (s.writeArray a ys).dm :=
  Memory.wf_writeRun h a _

theorem writeCommand_wf {s : State} (h : Memory.wf s.cm) (i : Nat) (w : Word) : Memory.wf (s.writeCommand i w).cm :=
  Memory.wf_writeRun h i _

/-! ## Sums over GF(2^128) -/

variable {poly : Nat}

theorem gfElement_gfPower (hp : 2 ^ 128 ≤ poly ∧ poly < 2 ^ 129) (x j : Nat) :
    gfElement poly (gfPower poly x j) = gfElement poly x ^ j := by
  induction j with
  | zero => simp [gfPower]
  | succ j ih => rw [gfPower, gfElement_mul hp, ih, pow_succ]

theorem gfElement_foldl (hp : 2 ^ 128 ≤ poly ∧ poly < 2 ^ 129) (g h : Nat → Nat) (n : Nat) :
    (List.range n).foldl (fun acc j => GF.add acc (GF.mul poly (g j) (h j))) 0 < 2 ^ 128 ∧
    gfElement poly ((List.range n).foldl (fun acc j => GF.add acc (GF.mul poly (g j) (h j))) 0) =
      ∑ j ∈ Finset.range n, gfElement poly (g j) * gfElement poly (h j) := by
  induction n with
  | zero => simp
  | succ n ih =>
    simp only [List.range_succ, List.foldl_append, List.foldl_cons, List.foldl_nil]
    refine ⟨GF.add_lt ih.1 (GF.mul_lt hp _ _), ?_⟩
    rw [gfElement_add, gfElement_mul hp, ih.2, Finset.sum_range_succ]

/-- The sum of the `A[j] * x^j` is the value at `x` of the polynomial with these coefficients. -/
theorem gfElement_gfEvaluate (hp : 2 ^ 128 ≤ poly ∧ poly < 2 ^ 129) (x : Nat) (as : List Nat) :
    gfEvaluate poly x as < 2 ^ 128 ∧
    gfElement poly (gfEvaluate poly x as) = (ringPoly (gfElement poly) as).eval (gfElement poly x) := by
  have h := gfElement_foldl hp (fun j => as.getD j 0) (gfPower poly x) as.length
  refine ⟨h.1, ?_⟩
  rw [ringPoly_eval, gfEvaluate, h.2]
  simp [gfElement_gfPower hp]

theorem gfElement_gfNodeProduct (hp : 2 ^ 128 ≤ poly ∧ poly < 2 ^ 129) (x : Nat) (nodes : List Nat) (k : Nat) :
    gfElement poly (gfNodeProduct poly x nodes k) =
      ∏ j ∈ Finset.range k, (gfElement poly x - gfElement poly (nodes.getD j 0)) := by
  induction k with
  | zero => simp [gfNodeProduct]
  | succ k ih => rw [gfNodeProduct, gfElement_mul hp, ih, Finset.prod_range_succ, gfElement_sub]

/-- The value of a Newton form, as the rules write it. -/
theorem gfElement_gfNewtonEvaluate (hp : 2 ^ 128 ≤ poly ∧ poly < 2 ^ 129) (x : Nat) (nodes cs : List Nat) :
    gfNewtonEvaluate poly x nodes cs < 2 ^ 128 ∧
    gfElement poly (gfNewtonEvaluate poly x nodes cs) =
      ∑ k ∈ Finset.range cs.length, gfElement poly (cs.getD k 0) *
        ∏ j ∈ Finset.range k, (gfElement poly x - gfElement poly (nodes.getD j 0)) := by
  have h := gfElement_foldl hp (fun j => cs.getD j 0) (gfNodeProduct poly x nodes) cs.length
  refine ⟨h.1, ?_⟩
  rw [gfNewtonEvaluate, h.2]
  simp [gfElement_gfNodeProduct hp]

theorem gfElement_gfSumFrom (hp : 2 ^ 128 ≤ poly ∧ poly < 2 ^ 129) (x power : Nat) (as : List Nat) :
    gfSumFrom poly x power as < 2 ^ 128 ∧
    gfElement poly (gfSumFrom poly x power as) =
      gfElement poly power * (ringPoly (gfElement poly) as).eval (gfElement poly x) := by
  induction as generalizing power with
  | nil => simp [gfSumFrom]
  | cons a as ih =>
    rw [gfSumFrom, gfElement_add, (ih _).2, gfElement_mul hp, gfElement_mul hp, ringPoly_cons]
    refine ⟨GF.add_lt (GF.mul_lt hp _ _) (ih _).1, ?_⟩
    simp only [Polynomial.eval_add, Polynomial.eval_mul, Polynomial.eval_X, Polynomial.eval_C]
    ring

/-- The running sum of the machine is the sum of the rules. -/
theorem gfSum_eq_gfEvaluate (hp : 2 ^ 128 ≤ poly ∧ poly < 2 ^ 129) (x : Nat) (as : List Nat) :
    gfSum poly x as = gfEvaluate poly x as := by
  have h := gfElement_gfSumFrom hp x 1 as
  have g := gfElement_gfEvaluate hp x as
  refine gfElement_injOn hp h.1 g.1 ?_
  rw [g.2, gfSum, h.2, gfElement_one, one_mul]

/-! ## The points of a transform (47_additive_fft.md R502) -/

/-- The machine's points are the rule's. -/
theorem gfPoint_eq_pointOf (basis : List Nat) (c i : Nat) : gfPoint basis c i = pointOf basis c i := by
  induction basis generalizing c i with
  | nil => simp [gfPoint, pointOf]
  | cons b bs ih =>
    rw [gfPoint, ih, pointOf, pointOf, List.length_cons, List.range_succ_eq_map, List.foldl_cons, List.foldl_map]
    have h : (bif i.testBit 0 then c ^^^ b else c) = (if i.testBit 0 = true then c ^^^ (b :: bs).getD 0 0 else c) := by
      cases i.testBit 0 <;> simp
    rw [h]
    congr 1
    funext acc k
    simp [Nat.testBit_succ]

theorem gfPoints_getD (basis : List Nat) (c : Nat) {i : Nat} (hi : i < 2 ^ basis.length) :
    (gfPoints basis c).getD i 0 = pointOf basis c i := by
  rw [List.getD_eq_getElem _ _ (by simpa)]
  simp [gfPoints, gfPoint_eq_pointOf]

theorem gfPoint_lt {basis : List Nat} (hb : ∀ e ∈ basis, e < 2 ^ 128) {c : Nat} (hc : c < 2 ^ 128) (i : Nat) :
    gfPoint basis c i < 2 ^ 128 := by
  induction basis generalizing c i with
  | nil => exact hc
  | cons b bs ih =>
    rw [gfPoint]
    refine ih (fun e he => hb e (by simp [he])) ?_ _
    cases i.testBit 0
    · exact hc
    · exact Nat.xor_lt_two_pow hc (hb b (by simp))

end Sys2Proof.Machine
end

