-- ==== Sys2Proof/Machine/Asm.lean ====
section
/-! DEFINITION. The assembler of WMU-CMD v1: pseudo-instructions and source text (30_encoding.md R161, R162). It works on lists
of characters, which the kernel can evaluate. -/

namespace Sys2Proof.Machine

/-! ## Pseudo-instructions (R162) -/

/-- `MOV rd, ra`. -/
def asmMov (rd ra : Reg) : Instr := .lshri rd ra 0

/-- `CLR rd`. -/
def asmClr (rd : Reg) : Instr := .ldi rd 0

/-- `GSUB rd, ra, rb`: subtraction in GF(2^128) is addition. -/
def asmGsub (rd ra rb : Reg) : Instr := .gadd rd ra rb

/-- `GEQ rd, ra, rb`: equality of two GF(2^128) elements, with no domain check. -/
def asmGeq (rd ra rb : Reg) : Instr := .leq rd ra rb

/-! ## Operands -/

/-- The value of a digit in a base up to 16. -/
def asmDigit (base : Nat) (c : Char) : Option Nat :=
  let n := c.toNat
  let d := if 48 ≤ n ∧ n ≤ 57 then n - 48 else if 65 ≤ n ∧ n ≤ 70 then n - 55 else if 97 ≤ n ∧ n ≤ 102 then n - 87 else 16
  if d < base then some d else none

/-- The number the remaining digits make after `acc`. -/
def asmDigits (base acc : Nat) : List Char → Option Nat
  | [] => some acc
  | c :: cs => (asmDigit base c).bind fun d => asmDigits base (acc * base + d) cs

/-- A decimal number, or a hexadecimal one with `0x` (R161); either may have leading zeros (DESIGN CHOICE, LOG 14). -/
def asmNat : List Char → Option Nat
  | [] => none
  | '0' :: 'x' :: c :: cs => asmDigits 16 0 (c :: cs)
  | cs => asmDigits 10 0 cs

/-- A number that may have a minus sign: `BNZ`'s offset (DESIGN CHOICE, LOG 14). -/
def asmInt : List Char → Option Int
  | '-' :: cs => (asmNat cs).map fun n => -(n : Int)
  | cs => (asmNat cs).map fun n => (n : Int)

/-- A register `x0` .. `x15` (R161); its number may have leading zeros, so `x05` is `x5` (DESIGN CHOICE, LOG 14). -/
def asmReg : List Char → Option Reg
  | 'x' :: c :: cs => (asmDigits 10 0 (c :: cs)).bind fun n => if h : n < 16 then some ⟨n, h⟩ else none
  | _ => none

/-- `FCFG`'s `be`: 0 or 1 (R161), in any spelling of the number (DESIGN CHOICE, LOG 14). -/
def asmBe (cs : List Char) : Option Bool :=
  (asmNat cs).bind fun n => if n = 0 then some false else if n = 1 then some true else none

/-- The names of the CSRs, by number. -/
def asmCsrNames : List String :=
  ["STATUS", "FAULT_PC", "FLAGS", "FCTL", "P", "MINV", "BBASE", "BLEN", "NNODE", "XBASE"]

/-- A CSR by number or by name (R161); the number may be that of no CSR, which encodes (R159; DESIGN CHOICE, LOG 14). -/
def asmCsr (cs : List Char) : Option Nat :=
  match asmNat cs with
  | some n => some n
  | none => asmCsrNames.findIdx? fun name => name.toList == cs

/-- The characters without the blanks around them. -/
def asmTrim (cs : List Char) : List Char :=
  let blank := fun c : Char => c == ' ' || c == '\t' || c == '\r'
  ((cs.dropWhile blank).reverse.dropWhile blank).reverse

/-- A memory operand `imm16(xa)`; `(xa)` alone means offset 0 (R161). Blanks may stand around the number and around the register
(DESIGN CHOICE, LOG 14). -/
def asmMem (cs : List Char) : Option (Nat × Reg) :=
  let imm := asmTrim (cs.takeWhile (· != '('))
  match (cs.dropWhile (· != '(')).reverse with
  | ')' :: inside =>
    match inside.reverse with
    | '(' :: r => (asmReg (asmTrim r)).bind fun ra => if imm = [] then some (0, ra) else (asmNat imm).map fun n => (n, ra)
    | _ => none
  | _ => none

/-- The pieces of a list between separators. -/
def asmSplit (sep : Char) : List Char → List (List Char)
  | [] => [[]]
  | c :: cs =>
    match asmSplit sep cs with
    | [] => [[]]
    | piece :: pieces => if c == sep then [] :: piece :: pieces else (c :: piece) :: pieces

/-! ## Lines -/

/-- What a line's command is before labels are known. -/
inductive AsmCommand where
  /-- A command. -/
  | plain (i : Instr)
  /-- `BNZ` to a label. -/
  | branch (ra : Reg) (label : List Char)
  deriving DecidableEq, Repr

/-- Two, three or four register operands. -/
def asmRegs2 (f : Reg → Reg → Instr) : List (List Char) → Option AsmCommand
  | [a, b] => do some (.plain (f (← asmReg a) (← asmReg b)))
  | _ => none

@[inherit_doc asmRegs2] def asmRegs3 (f : Reg → Reg → Reg → Instr) : List (List Char) → Option AsmCommand
  | [a, b, c] => do some (.plain (f (← asmReg a) (← asmReg b) (← asmReg c)))
  | _ => none

@[inherit_doc asmRegs2] def asmRegs4 (f : Reg → Reg → Reg → Reg → Instr) : List (List Char) → Option AsmCommand
  | [a, b, c, d] => do some (.plain (f (← asmReg a) (← asmReg b) (← asmReg c) (← asmReg d)))
  | _ => none

/-- A register and a memory operand. -/
def asmRegMem (f : Reg → Reg → Nat → Instr) : List (List Char) → Option AsmCommand
  | [a, m] => do
    let (offset, ra) ← asmMem m
    some (.plain (f (← asmReg a) ra offset))
  | _ => none

/-- Two registers and a number: `LSHRI` and the transforms. -/
def asmRegs2Nat (f : Reg → Reg → Nat → Instr) : List (List Char) → Option AsmCommand
  | [a, b, n] => do some (.plain (f (← asmReg a) (← asmReg b) (← asmNat n)))
  | _ => none

/-- A mnemonic with its operands, in the order of the syntax column of R156. -/
def asmCommand (mnemonic : String) (ops : List (List Char)) : Option AsmCommand :=
  match mnemonic with
  | "WMUL64" => asmRegs4 .wmul64 ops
  | "WMUL32" => asmRegs4 .wmul32 ops
  | "LEQ" => asmRegs3 .leq ops
  | "LSHR" => asmRegs3 .lshr ops
  | "LSHRI" => asmRegs2Nat .lshri ops
  | "LD" => asmRegMem .ld ops
  | "ST" => asmRegMem .st ops
  | "LDI" => match ops with
    | [a, n] => do some (.plain (.ldi (← asmReg a) (← asmNat n)))
    | _ => none
  | "NLT" => asmRegs3 .nlt ops
  | "NBIT" => asmRegs3 .nbit ops
  | "INVW" => asmRegs2 .invw ops
  | "FCFG" => match ops with
    | [a] => do some (.plain (.fcfg (← asmReg a) false))
    | [a, b] => do some (.plain (.fcfg (← asmReg a) (← asmBe b)))
    | _ => none
  | "FADD" => asmRegs3 .fadd ops
  | "FSUB" => asmRegs3 .fsub ops
  | "FMUL" => asmRegs3 .fmul ops
  | "MULW" => asmRegs4 .mulw ops
  | "FRED" => asmRegs3 .fred ops
  | "FTOM" => asmRegs2 .ftom ops
  | "FFROMM" => asmRegs2 .ffromm ops
  | "FEQ" => asmRegs3 .feq ops
  | "FLD" => asmRegMem .fld ops
  | "FST" => asmRegMem .fst ops
  | "CLMUL" => asmRegs4 .clmul ops
  | "GADD" => asmRegs3 .gadd ops
  | "GMUL" => asmRegs3 .gmul ops
  | "EVALM" => asmRegs3 .evalm ops
  | "NOFL" => asmRegs2 .nofl ops
  | "EVALN" => asmRegs3 .evaln ops
  | "MONOFN" => asmRegs2 .monofn ops
  | "MONOFL" => asmRegs2 .monofl ops
  | "FFT" => asmRegs2Nat .fft ops
  | "IFFT" => asmRegs2Nat .ifft ops
  | "BFFT" => asmRegs2Nat .bfft ops
  | "HALT" => match ops with
    | [] => some (.plain .halt)
    | _ => none
  | "BNZ" => match ops with
    | [a, t] => do
      let ra ← asmReg a
      match asmInt t with
      | some off => some (.plain (.bnz ra off))
      | none => some (.branch ra t)
    | _ => none
  | "CSRR" => match ops with
    | [a, c] => do some (.plain (.csrr (← asmReg a) (← asmCsr c)))
    | _ => none
  | "CSRW" => match ops with
    | [a, c] => do some (.plain (.csrw (← asmReg a) (← asmCsr c)))
    | _ => none
  | "MOV" => asmRegs2 asmMov ops
  | "CLR" => match ops with
    | [a] => do some (.plain (asmClr (← asmReg a)))
    | _ => none
  | "GSUB" => asmRegs3 asmGsub ops
  | "GEQ" => asmRegs3 asmGeq ops
  | _ => none

/-- A line's label, if it has one, and its command, if it has one; no line where the text is none. `;` starts a comment. The
label is the text before the first `:`, whatever its characters (DESIGN CHOICE, LOG 14). -/
def asmLine (line : List Char) : Option (Option (List Char) × Option AsmCommand) :=
  let code := asmTrim (line.takeWhile (· != ';'))
  let labelled := code.contains ':'
  let label := if labelled then some (asmTrim (code.takeWhile (· != ':'))) else none
  let body := if labelled then asmTrim ((code.dropWhile (· != ':')).drop 1) else code
  if body = [] then some (label, none)
  else
    let mnemonic := body.takeWhile fun c => !(c == ' ' || c == '\t')
    let rest := asmTrim (body.drop mnemonic.length)
    let ops := if rest = [] then [] else (asmSplit ',' rest).map asmTrim
    (asmCommand (String.ofList mnemonic) ops).map fun c => (label, some c)

/-! ## A program -/

/-- The commands of the lines and, for every label, the index of the command after it; a label defined twice stands twice, in
source order. -/
def asmScan : Nat → List (Option (List Char) × Option AsmCommand) → List AsmCommand × List (List Char × Nat)
  | _, [] => ([], [])
  | index, (label, command) :: lines =>
    let (cs, ls) := asmScan (match command with | some _ => index + 1 | none => index) lines
    (match command with | some c => c :: cs | none => cs, match label with | some l => (l, index) :: ls | none => ls)

/-- The command with its label resolved: `off16 = label_index - pc_of_BNZ` (R161). Of a label that is defined twice, on which
R161 is silent, the first definition in source order counts; a label that is never defined resolves to none (DESIGN CHOICE,
LOG 14). -/
def asmResolve (labels : List (List Char × Nat)) (index : Nat) : AsmCommand → Option Instr
  | .plain i => some i
  | .branch ra label => (labels.lookup label).map fun target => .bnz ra ((target : Int) - (index : Int))

/-- The words of the commands from an index on; none where an immediate does not fit its field, as a label out of
-32768..32767 does not (R161). -/
def asmWords (labels : List (List Char × Nat)) : Nat → List AsmCommand → Option (List Word)
  | _, [] => some []
  | index, c :: cs => do
    let i ← asmResolve labels index c
    if i.wf then
      let ws ← asmWords labels (index + 1) cs
      some (encode i :: ws)
    else none

/-- The words of a source text, the first at index 0 (R161). -/
def assemble (source : List Char) : Option (List Word) := do
  let lines ← (asmSplit '\n' source).mapM asmLine
  let (cs, labels) := asmScan 0 lines
  asmWords labels 0 cs

end Sys2Proof.Machine
end

