-- ==== Sys2Proof/Tests/Slice0.lean ====
section
/-! SUPPORT. Tests: ill-formed terms, words written out from the encoding, one-step tests from the vectors of
95_test_vectors.md, and a witness for the hypotheses of every statement. -/

open Sys2Proof Sys2Proof.Machine Sys2Proof.Safety Sys2Proof.Claims

namespace Sys2Proof.Tests

-- One theorem at a time: each kernel evaluation would hold a thread of its own.
set_option Elab.async false

/-! ## Well-formedness: each check refuses an ill-formed term -/

theorem test_imm8_refuses : fitsImm8 256 = false ∧ fitsImm8 255 = true := by decide
theorem test_imm16_refuses : fitsImm16 65536 = false ∧ fitsImm16 65535 = true := by decide
theorem test_offset16_refuses : fitsOffset16 32768 = false ∧ fitsOffset16 (-32769) = false ∧ fitsOffset16 (-32768) = true := by
  decide
theorem test_wf_refuses_imm8 :
    ∀ i ∈ [Instr.lshri 1 2 256, .fft 2 3 256, .ifft 2 3 256, .bfft 2 3 256, .csrr 1 256, .csrw 1 256], i.wf = false := by
  decide
theorem test_wf_refuses_imm16 :
    ∀ i ∈ [Instr.ld 2 1 65536, .st 2 1 65536, .ldi 5 65536, .fld 2 1 65536, .fst 2 1 65536], i.wf = false := by decide
theorem test_wf_refuses_offset : (Instr.bnz 1 32768).wf = false ∧ (Instr.bnz 1 (-32769)).wf = false := by decide

/-! ## Decoding: words written out from 30_encoding.md R151, R152 and R156, one of each row -/

theorem test_decode_wide :
    decode 0x10312400 = some (.wmul64 3 1 2 4) ∧ decode 0x11312400 = some (.wmul32 3 1 2 4) := by decide
theorem test_decode_limb :
    decode 0x20312000 = some (.leq 3 1 2) ∧ decode 0x21312000 = some (.lshr 3 1 2) ∧
    decode 0x222100FF = some (.lshri 2 1 255) ∧ decode 0x28210080 = some (.ld 2 1 128) ∧
    decode 0x29210008 = some (.st 2 1 8) ∧ decode 0x2A50FFFF = some (.ldi 5 65535) := by decide
theorem test_decode_natural :
    decode 0x30312000 = some (.nlt 3 1 2) ∧ decode 0x31312000 = some (.nbit 3 1 2) ∧
    decode 0x32210000 = some (.invw 2 1) := by decide
theorem test_decode_prime :
    decode 0x40010000 = some (.fcfg 1 false) ∧ decode 0x40010001 = some (.fcfg 1 true) ∧
    decode 0x44312400 = some (.mulw 3 1 2 4) ∧ decode 0x45312000 = some (.fred 3 1 2) ∧
    decode 0x41312000 = some (.fadd 3 1 2) ∧ decode 0x42312000 = some (.fsub 3 1 2) ∧
    decode 0x43312000 = some (.fmul 3 1 2) ∧ decode 0x46210000 = some (.ftom 2 1) ∧
    decode 0x47210000 = some (.ffromm 2 1) ∧ decode 0x48312000 = some (.feq 3 1 2) ∧
    decode 0x49210020 = some (.fld 2 1 32) ∧ decode 0x4A50FFFF = some (.fst 5 0 65535) := by decide
theorem test_decode_binary :
    decode 0x50312400 = some (.clmul 3 1 2 4) ∧ decode 0x51312000 = some (.gadd 3 1 2) ∧
    decode 0x52312000 = some (.gmul 3 1 2) := by decide
theorem test_decode_interpolation :
    decode 0x60875000 = some (.evalm 8 7 5) ∧ decode 0x61430000 = some (.nofl 4 3) ∧
    decode 0x62645000 = some (.evaln 6 4 5) ∧ decode 0x63740000 = some (.monofn 7 4) ∧
    decode 0x64730000 = some (.monofl 7 3) := by decide
theorem test_decode_transform :
    decode 0x70023002 = some (.fft 2 3 2) ∧ decode 0x71023003 = some (.ifft 2 3 3) ∧
    decode 0x72023004 = some (.bfft 2 3 4) := by decide
theorem test_decode_sequencer :
    decode 0xF0000000 = some .halt ∧ decode 0xF1017FFF = some (.bnz 1 32767) ∧ decode 0xF1018000 = some (.bnz 1 (-32768)) ∧
    decode 0xF2100003 = some (.csrr 1 3) ∧ decode 0xF3010009 = some (.csrw 1 9) := by decide
/-- Unassigned opcodes and unused fields that are not zero (R158; V17, V36, V56, V147 to V149). -/
theorem test_decode_refuses :
    decode 0x00000000 = none ∧ decode 0xFFFFFFFF = none ∧ decode 0xFF000000 = none ∧ decode 0x10312001 = none ∧
    decode 0x2A510001 = none ∧ decode 0x40010002 = none ∧ decode 0x40110000 = none ∧ decode 0xF0000001 = none ∧
    decode 0xF1110001 = none ∧ decode 0xF2110003 = none ∧ decode 0x70123002 = none := by decide

/-! ## One step on a small state (vectors V<n> of 95_test_vectors.md) -/

/-- A state after reset whose registers of the list hold the values. -/
def regs (l : List (Reg × Nat)) : State := l.foldl (fun s e => s.setReg e.1 e.2) State.reset

/-- `s` with the prime field 97, big-endian where `be`. -/
def field97 (be : Bool) (s : State) : State := { s with p := 97, minv := 0xA3A0FD5C5F02A3A1, be := be, fvalid := true }

/-- `s` with these nodes at 0. -/
def withNodes (nodes : List Nat) (s : State) : State := { s with nnode := nodes.length }.writeArray 0 nodes

/-- The state of the transform vectors: GF(2^128), the basis at 0x200, the data at 0x300 in `x2`, `x3` the coset or `k`. -/
def transform (basis data : List Nat) (c : Nat) : State :=
  { (regs [(2, 0x300), (3, c)]) with fmode := true, bbase := 0x200, blen := basis.length }.writeArray 0x200 basis
    |>.writeArray 0x300 data

/-- The state after one step on a word, where it completes without a fault. -/
def run (w : Nat) (s : State) : Option State :=
  match step (s.withFetchWord 32 w) with
  | .next t => if t.status.fault then none else some t
  | .fault _ => none
  | .refused _ => none

/-- The cause one step on a word raises, where all else but the fault record is as before. -/
def fails (w : Nat) (s : State) : Option Cause :=
  match step (s.withFetchWord 32 w) with
  | .next t => if t = (s.withFetchWord 32 w).faultEntry t.status.cause then some t.status.cause else none
  | .fault _ => none
  | .refused _ => none

/-- A register after one step on a word. -/
def after (w : Nat) (s : State) (r : Reg) : Option Nat := (run w s).map (·.x r)

/-- Two registers after one step on a word. -/
def after2 (w : Nat) (s : State) (r q : Reg) : Option (Nat × Nat) := (run w s).map fun t => (t.x r, t.x q)

/-- The elements at an address after one step on a word. -/
def arrayAfter (w : Nat) (s : State) (a n : Nat) : Option (List Nat) :=
  (run w s).bind fun t => match t.readArray a n with
    | .ok l => some l
    | .error _ => none

/-- The byte at an address after one step on a word. -/
def byteAfter (w : Nat) (s : State) (a : Nat) : Option Byte := (run w s).bind (·.byteAt a)

theorem test_wmul64 : after 0x10312000 (regs [(1, 2 ^ 53 + 1), (2, 2 ^ 47 + 1)]) 3 = some 0x10000000000020800000000001 ∧
    after 0x10312400 (regs [(1, 2 ^ 64 + 3), (2, 2 ^ 200 + 5), (4, 2 ^ 70 + 7)]) 3 = some 22 := by decide +kernel
theorem test_wmul32 : after 0x11312000 (regs [(1, 2 ^ 27 + 1), (2, 2 ^ 29 + 1)]) 3 = some 0x0100000028000001 ∧
    after 0x11311100 (regs [(1, 2 ^ 32 - 1)]) 3 = some 0xFFFFFFFF00000000 := by decide +kernel
theorem test_leq : after 0x20312000 (regs [(1, 5), (2, 5 + 2 ^ 192)]) 3 = some 0 ∧
    after 0x20311000 (regs [(1, 2 ^ 255)]) 3 = some 1 := by decide +kernel
theorem test_lshr : after 0x21112000 (regs [(1, 2 ^ 64), (2, 1)]) 1 = some (2 ^ 63) ∧
    after 0x21312000 (regs [(1, 2 ^ 256 - 1), (2, 256)]) 3 = some 0 := by decide +kernel
theorem test_lshri : after 0x222100FF (regs [(1, 2 ^ 255)]) 2 = some 1 ∧ after 0x22210004 (regs [(1, 0xF0)]) 2 = some 0x0F := by
  decide +kernel
theorem test_ld : after 0x28110010 ((regs [(1, 0x30)]).writeArray 0x40 [7]) 1 = some 7 ∧
    fails 0x28210001 (regs [(1, 4064)]) = some .addr := by decide +kernel
theorem test_st : byteAfter 0x29210008 (regs [(1, 0x40), (2, 0x0102)]) 0x48 = some 2 ∧
    byteAfter 0x29210008 (regs [(1, 0x40), (2, 0x0102)]) 0x49 = some 1 ∧
    fails 0x29210000 (regs [(1, 2 ^ 255)]) = some .addr := by decide +kernel
theorem test_ldi : after 0x2A50FFFF State.reset 5 = some 65535 := by decide +kernel
theorem test_nlt : after 0x30321000 (regs [(1, 2 ^ 64), (2, 2 ^ 64 - 1)]) 3 = some 1 ∧
    after 0x30311000 (regs [(1, 9)]) 3 = some 0 := by decide +kernel
theorem test_nbit : after 0x31312000 (regs [(1, 2 ^ 64), (2, 64)]) 3 = some 1 ∧
    fails 0x31312000 (regs [(1, 1), (2, 256)]) = some .domain := by decide +kernel
theorem test_invw : after 0x32210000 (regs [(1, 97)]) 2 = some 0xA3A0FD5C5F02A3A1 ∧
    fails 0x32210000 (regs [(1, 2 ^ 64 + 2)]) = some .even := by decide +kernel
theorem test_fcfg : (run 0x40010001 (regs [(1, 97)])).map (fun t => (t.p, t.minv, t.fctlValue)) =
    some (97, 0xA3A0FD5C5F02A3A1, 6) := by decide +kernel
theorem test_fcfg_refuses : fails 0x40010000 (field97 true (regs [(1, 2)])) = some .config ∧
    fails 0x40010000 (regs [(1, 1)]) = some .config := by decide +kernel
theorem test_mulw : after2 0x44312400 (regs [(1, 2 ^ 256 - 1), (2, 2 ^ 256 - 1)]) 3 4 = some (1, 2 ^ 256 - 2) ∧
    after 0x44312300 (regs [(1, 2 ^ 255), (2, 4)]) 3 = some 2 := by decide +kernel
theorem test_fred : after 0x45312000 (field97 false (regs [(1, 2 ^ 256 - 1), (2, 2 ^ 256 - 1)])) 3 = some 26 ∧
    after 0x45312000 (field97 false (regs [(1, 7), (2, 5)])) 3 = some 56 := by decide +kernel
theorem test_fadd : after 0x41312000 (field97 false (regs [(1, 96), (2, 96)])) 3 = some 95 ∧
    fails 0x41312000 (regs [(1, 5), (2, 5)]) = some .config := by decide +kernel
theorem test_fsub : after 0x42312000 (field97 false (regs [(1, 3), (2, 5)])) 3 = some 95 ∧
    fails 0x42312000 (field97 false (regs [(2, 98)])) = some .domain := by decide +kernel
theorem test_fmul : after 0x43312000 (field97 false (regs [(1, 86), (2, 14)])) 3 = some 42 ∧
    after 0x43312000 (field97 false (regs [(1, 36), (2, 36)])) 3 = some 61 := by decide +kernel
theorem test_ftom : after 0x46210000 (field97 false (regs [(1, 100)])) 2 = some 86 := by decide +kernel
theorem test_ffromm : after 0x47210000 (field97 false (regs [(1, 42)])) 2 = some 15 ∧
    fails 0x47210000 (field97 false (regs [(1, 97)])) = some .domain := by decide +kernel
theorem test_feq : after 0x48312000 (field97 false (regs [(1, 61), (2, 61)])) 3 = some 1 ∧
    fails 0x48312000 (field97 false (regs [(1, 61), (2, 158)])) = some .domain := by decide +kernel
theorem test_fld : after 0x49210000 (field97 true ((regs [(1, 0x40)]).writeArray 0x40 [15 * 2 ^ 248])) 2 = some 42 := by
  decide +kernel
theorem test_fld_invalid : (run 0x49210000 (field97 false ((regs [(1, 0x40), (2, 1234)]).writeArray 0x40 [97]))).map
    (fun t => (t.x 2, t.v)) = some (1234, true) := by decide +kernel
theorem test_fst : arrayAfter 0x4A210000 (field97 true (regs [(1, 0x40), (2, 42)])) 0x40 1 = some [15 * 2 ^ 248] ∧
    fails 0x4A210000 (field97 true (regs [(1, 4095), (2, 97)])) = some .addr := by decide +kernel
theorem test_clmul : after2 0x50311400 (regs [(1, 2 ^ 128 - 1)]) 3 4 =
      some (0x55555555555555555555555555555555, 0x55555555555555555555555555555555) ∧
    after 0x50311300 (regs [(1, 2 ^ 127)]) 3 = some (2 ^ 126) := by decide +kernel
theorem test_gadd : after 0x51312000 (regs [(1, 0x87), (2, 0x7)]) 3 = some 0x80 ∧
    fails 0x51312000 (regs [(2, 2 ^ 128)]) = some .domain := by decide +kernel
theorem test_gmul : after 0x52311000 (regs [(1, 2 ^ 127)]) 3 = some 0xC0000000000000000000000000001067 := by decide +kernel
theorem test_evalm : after 0x60875000
      (field97 false (({ (regs [(7, 0x120), (5, 50)]) with nnode := 3 }).writeArray 0x120 [61, 0, 61])) 8 = some 67 := by decide +kernel
theorem test_nofl : arrayAfter 0x61430000
      (field97 false ((withNodes [61, 25, 86] (regs [(3, 0x60), (4, 0xC0)])).writeArray 0x60 [25, 14, 28])) 0xC0 3 =
    some [25, 86, 61] := by decide +kernel
theorem test_nofl_repeated : fails 0x61430000
      (field97 false ((withNodes [61, 61] (regs [(3, 0x100), (4, 0x200)])).writeArray 0x100 [1, 2])) = some .divzero := by
  decide +kernel
theorem test_evaln : after 0x62645000
      (field97 false ((withNodes [61, 25, 86] (regs [(4, 0xC0), (5, 50)])).writeArray 0xC0 [25, 86, 61])) 6 = some 67 := by
  decide +kernel
theorem test_monofn : arrayAfter 0x63740000
      (field97 false ((withNodes [61, 25, 86] (regs [(4, 0xC0), (7, 0x120)])).writeArray 0xC0 [25, 86, 61])) 0x120 3 =
    some [61, 0, 61] := by decide +kernel
theorem test_monofl : arrayAfter 0x64430000
      ((withNodes [1, 2, 3] { (regs [(3, 0x100), (4, 0x200)]) with fmode := true }).writeArray 0x100 [0, 5, 4]) 0x200 3 =
    some [1, 0, 1] := by decide +kernel
theorem test_fft : arrayAfter 0x70023002 (transform [1, 2, 4, 8] [1, 0, 1, 0] 4) 0x300 4 = some [0x11, 0x10, 0x15, 0x14] := by
  decide +kernel
theorem test_ifft : arrayAfter 0x71023001 (transform [1, 2, 4, 8] [7, 4] 0) 0x300 2 = some [7, 3] := by decide +kernel
theorem test_ifft_singular : fails 0x71023001 (transform [0, 1] [1, 2] 0) = some .singular := by decide +kernel
theorem test_bfft : arrayAfter 0x72023002 (transform [1, 2, 4, 8] [3, 0, 0, 2] 2) 0x300 4 = some [3, 1, 0x11, 0x1E] ∧
    fails 0x72023002 (transform [1, 2, 4, 8] [3, 0, 0, 2] 5) = some .domain := by decide +kernel
theorem test_halt : (run 0xF0000000 State.reset).map (fun t => (t.status.value, t.pc)) = some (2, 0) := by decide +kernel
theorem test_bnz : (run 0xF101FFFF (regs [(1, 2 ^ 64)])).map (·.pc) = some 0xFFFFFFFF ∧
    (run 0xF101FFFE { State.reset with pc := 5 }).map (·.pc) = some 6 := by decide +kernel
theorem test_csrr : after 0xF2100000 State.reset 1 = some 1 ∧ fails 0xF210000A State.reset = some .illegal := by decide +kernel
theorem test_csrw : (run 0xF3010003 (field97 false (regs [(1, 3)]))).map State.fctlValue = some 5 ∧
    fails 0xF3010004 State.reset = some .illegal := by decide +kernel

/-- The host's own writes since RESET, whatever a command wrote (70_reset_and_hazards.md R711). -/
theorem test_inputs_written :
    let h := [Event.step, .host (.start 0), .host (.writeDm 8 [1, 2]), .host (.writeReg 1 5), .host .reset, .host (.writeReg 2 5)];
    hostWroteReg h 1 = true ∧ hostWroteReg h 2 = false ∧ hostWroteByte h 9 = true ∧ hostWroteByte h 10 = false := by decide

/-- The assembler's rules and pseudo-instructions (30_encoding.md R161, R162), the body of program P1. -/
theorem test_assemble : assemble ("loop: WMUL64 x1, x1, x3, x0 ; times 3\n LSHRI x2, x2, 1\n BNZ x2, loop\n" ++
    "MOV x4, x1\n GEQ x5, x4, x1\n LD x6, (x4)\n CSRW x1, FCTL\n HALT").toList =
    some [0x10113000, 0x22220001, 0xF102FFFE, 0x22410000, 0x20541000, 0x28640000, 0xF3010003, 0xF0000000] := by decide +kernel

/-! ## Witnesses: a state and operands that meet the hypotheses of each statement, clause by clause, at boundary values -/

/-- The next state of an outcome. -/
def nextOf (o : Host.Outcome State Fault Refusal) : Option State :=
  match o with
  | .next t => some t
  | .fault _ => none
  | .refused _ => none

theorem exists_next {o : Host.Outcome State Fault Refusal} {p : State → Bool} (h : (nextOf o).any p = true) :
    ∃ t, o = .next t ∧ p t = true := by
  cases o with
  | next t => exact ⟨t, rfl, by simpa [nextOf] using h⟩
  | fault f => simp [nextOf] at h
  | refused e => simp [nextOf] at h

theorem exists_fault {o : Host.Outcome State Fault Refusal}
    (h : (match o with | .next _ => false | .fault _ => true | .refused _ => false) = true) : ∃ f, o = .fault f := by
  cases o with
  | fault f => exact ⟨f, rfl⟩
  | next t => cases h
  | refused e => cases h

/-- A legal running state with a big-endian field, a full-width register, a written element and a command. -/
def busy : State := ((field97 true (regs [(1, 2 ^ 256 - 1), (2, 96)])).writeArray 4064 [5]).withFetchWord 32 0x2A50FFFF

theorem busy_legal : Legal busy where
  params := by decide
  regs := by decide +kernel
  p := by decide +kernel
  minv := by decide +kernel
  bases := by decide +kernel
  running := by decide
  fault := by decide
  noCause := by decide
  cause := by decide
  faultPc := by decide
  field := by decide +kernel
  noField := by decide
  dm := by decide +kernel
  cm := by decide +kernel

theorem witness_DecodeInvertsEncode : (Instr.bnz 15 (-32768)).wf = true ∧ (Instr.bnz 0 32767).wf = true ∧
    (Instr.st 15 0 65535).wf = true ∧ (Instr.csrw 0 255).wf = true := by decide
theorem witness_EncodeInvertsDecode : decode 0xF1018000 = some (.bnz 1 (-32768)) := by decide
theorem witness_DecodeAgreesWithOpcodeMap : (∃ r ∈ opcodeMap, r.matchesWord 0xF1018000 = true) ∧
    ∀ r ∈ opcodeMap, r.matchesWord 0x10312001 = false := by decide +kernel
theorem witness_NoWordMatchesTwoRows :
    ∃ r ∈ opcodeMap, ∃ q ∈ opcodeMap, r.matchesWord 0xF1018000 = true ∧ q.matchesWord 0xF1018000 = true := by decide +kernel
theorem witness_StepRunsDecodedCommand : busy.status.running = true ∧ busy.pc.toNat < busy.params.cmSize ∧
    busy.commandAt busy.pc.toNat = some 0x2A50FFFF ∧ decode 0x2A50FFFF = some (.ldi 5 65535) := by decide +kernel
/-- `pc` at the first index past CM; at the last index of CM, with a word that is no command, and with none. -/
theorem witness_FetchAndDecodeFaults :
    (let s := State.reset.start 256; s.status.running = true ∧ s.params.cmSize ≤ s.pc.toNat) ∧
    (let s := (State.reset.writeCommand 255 0).start 255; s.status.running = true ∧ s.pc.toNat < s.params.cmSize ∧
      s.commandAt s.pc.toNat = some 0 ∧ decode 0 = none) ∧
    let s := State.reset.start 255; s.status.running = true ∧ s.pc.toNat < s.params.cmSize ∧
      s.commandAt s.pc.toNat = none := by decide +kernel
theorem witness_StoppedUnitKeepsState : State.reset.status.running = false := by decide
theorem witness_ResetIsLegal : Params.legal ⟨2, 1, 1, 2 ^ 128⟩ ∧ Params.legal ⟨4, 2 ^ 32, 2 ^ 32, 2 ^ 129 - 1⟩ := by decide
theorem witness_StepKeepsLegal : Legal busy ∧ ∃ t, step busy = .next t ∧ t.status.running = true :=
  ⟨busy_legal, exists_next (p := fun t => t.status.running) (by decide +kernel)⟩
theorem witness_HostActionsKeepLegal : Legal busy ∧ ∃ t r, busy.port .reset = .next (t, r) := ⟨busy_legal, _, _, rfl⟩
theorem witness_EveryReachableStateIsLegal : Config.reference.legal ∧ Reachable Config.reference (State.reset.start 3) :=
  ⟨by decide, .port (a := .start 3) .reset rfl⟩
/-- Running; stopped, at the last location of each memory and the first one past it, with the last value a register holds and
the first one it does not, with a CM word and a DM byte that are written and ones that are not. -/
theorem witness_HostPortActions : busy.status.running = true ∧ PortAction.readPc ≠ .reset ∧ PortAction.readPc ≠ .observeDone ∧
    let s := (State.reset.writeCommand 255 0xF0000000).writeBytes 4095 [7];
    s.status.running = false ∧ 255 < s.params.cmSize ∧ s.commandAt 255 = some 0xF0000000 ∧ s.commandAt 254 = none ∧
    s.params.cmSize ≤ 256 ∧ 4095 + [(7 : Byte)].length ≤ s.params.dmSize ∧ s.byteAt 4095 = some 7 ∧ s.byteAt 4094 = none ∧
    s.params.dmSize < 4096 + [(7 : Byte)].length ∧ 2 ^ 256 - 1 < 2 ^ s.params.regBits ∧ 2 ^ s.params.regBits ≤ 2 ^ 256 ∧
    9 < 10 ∧ 5 ∈ [0, 1, 4, 5] := by decide +kernel
theorem witness_StartBeginsARun : let s := State.reset.writeCommand 255 0xF0000000;
    s.status.running = false ∧ (255 : Word).toNat < s.params.cmSize ∧ s.commandAt (255 : Word).toNat = some 0xF0000000 ∧
    decode 0xF0000000 = some .halt := by decide +kernel
theorem witness_ParametersAndCommandsNeverChange : (∃ t, step busy = .next t ∧ t.status.running = true) ∧
    ∃ t r, State.reset.port (.writeCm 255 0) = .next (t, r) :=
  ⟨exists_next (p := fun t => t.status.running) (by decide +kernel), _, _, rfl⟩
/-- A command that is none of the three, and each of the three where the other clauses bind it. -/
theorem witness_ConfigurationChangesOnlyWhereNamed :
    (∃ t, exec (.ldi 5 7) busy = .next t ∧ !t.status.fault) ∧ (∃ t, exec (.fcfg 1 true) busy = .next t ∧ !t.status.fault) ∧
    (∃ t, exec (.csrw 2 3) busy = .next t ∧ !t.status.fault) ∧ ∃ t, exec (.fld 2 5 4064) busy = .next t ∧ !t.status.fault := by
  refine ⟨?_, ?_, ?_, ?_⟩ <;> exact exists_next (p := fun t => !t.status.fault) (by decide +kernel)
theorem witness_FaultsArePrecise :
    (let s := State.reset.withFetchWord 32 0; s.status.running = true ∧ s.status.fault = false ∧
      ∃ t, step s = .next t ∧ t.status.fault = true) ∧
    busy.status.fault = false ∧ ∃ t, exec (.nbit 3 2 1) busy = .next t ∧ t.status.fault = true :=
  ⟨⟨by decide, by decide, exists_next (p := fun t => t.status.fault) (by decide +kernel)⟩, by decide,
    exists_next (p := fun t => t.status.fault) (by decide +kernel)⟩
/-- The last byte of an element that ends at the end of DM is not written. -/
theorem witness_OnlyUnwrittenDataStopsTheModel : let s := (regs [(1, 4064)]).writeBytes 4064 (List.replicate 31 0);
    s.x 1 + 0 + s.params.elemBytes ≤ s.params.dmSize ∧ s.x 1 + 0 ≤ 4095 ∧ 4095 < s.x 1 + 0 + s.params.elemBytes ∧
    s.byteAt 4095 = none ∧ ∃ f, exec (.ld 2 1 0) s = .fault f :=
  ⟨by decide +kernel, by decide +kernel, by decide +kernel, by decide +kernel, exists_fault (by decide +kernel)⟩
theorem witness_WherePcGoes : busy.status.fault = false ∧ busy.x 1 ≠ 0 ∧ busy.x 3 = 0 ∧
    (∃ t, exec (.nbit 3 2 1) busy = .next t ∧ t.status.fault = true) ∧
    (∃ t, exec (.ldi 5 7) busy = .next t ∧ !t.status.fault) ∧ (∃ t, exec .halt busy = .next t ∧ !t.status.fault) ∧
    (∃ t, exec (.bnz 1 (-1)) busy = .next t ∧ !t.status.fault) ∧ ∃ t, exec (.bnz 3 (-1)) busy = .next t ∧ !t.status.fault := by
  refine ⟨by decide, by decide +kernel, by decide +kernel, exists_next (p := fun t => t.status.fault) (by decide +kernel),
    ?_, ?_, ?_, ?_⟩ <;> exact exists_next (p := fun t => !t.status.fault) (by decide +kernel)
theorem witness_EffectsStayWithinOperandRoles : (∃ t, exec (.mulw 3 1 2 4) busy = .next t ∧ !t.status.fault) ∧
    5 ∉ dests (.mulw 3 1 2 4) ∧ writesMemory (.mulw 3 1 2 4) = false ∧ Csr.flags ∉ csrWrites (.csrw 2 3) ∧
    (let s := (busy.setReg 5 4064); storedRun (.st 2 5 0) s = (4064, 32) ∧ ∃ t, exec (.st 2 5 0) s = .next t ∧ !t.status.fault) :=
  ⟨exists_next (p := fun t => !t.status.fault) (by decide +kernel), by decide, by decide, by decide, by decide +kernel,
    exists_next (p := fun t => !t.status.fault) (by decide +kernel)⟩
theorem witness_CommandsRaiseOnlyTheirCauses :
    busy.status.fault = false ∧ ∃ t, exec (.invw 3 2) busy = .next t ∧ t.status.fault = true :=
  ⟨by decide, exists_next (p := fun t => t.status.fault) (by decide +kernel)⟩
theorem witness_OtherRegistersDoNotMatter :
    1 ∉ sources (.ldi 1 7) ∧ 15 ∉ sources (.ldi 1 7) ∧ ∃ t, exec (.ldi 1 7) busy = .next t ∧ !t.status.fault :=
  ⟨by decide, by decide, exists_next (p := fun t => !t.status.fault) (by decide +kernel)⟩
/-- Both clauses of the comparisons: registers that agree in every limb, and that differ in the last one only. -/
theorem witness_ComparisonsDecide : let s := regs [(1, 5), (2, 5 + 2 ^ 192), (3, 5)];
    2 ≤ s.params.limbs ∧ s.x 1 < 2 ^ s.params.regBits ∧ s.x 2 < 2 ^ s.params.regBits ∧
    (∀ k, k < s.params.limbs → limb k (s.x 1) = limb k (s.x 3)) ∧ limb 3 (s.x 1) ≠ limb 3 (s.x 2) := by decide +kernel
theorem witness_ShiftsAreLogical : let s := regs [(1, 2 ^ 256 - 1), (2, 256), (3, 255)];
    s.x 1 < 2 ^ s.params.regBits ∧ s.params.regBits ≤ s.x 2 ∧ ¬ s.params.regBits ≤ s.x 3 ∧ 255 < 256 := by decide +kernel
/-- The first offset past the end, and the last one inside, with a full-width value. -/
theorem witness_LoadReadsALimb : let s := (regs [(1, 4064)]).writeArray 4064 [2 ^ 256 - 2];
    s.params.dmSize < s.x 1 + 1 + s.params.elemBytes ∧ s.x 1 + 0 + s.params.elemBytes ≤ s.params.dmSize ∧
    2 ^ 256 - 2 < 2 ^ s.params.regBits ∧ HoldsAt s false (s.x 1 + 0) s.params.elemBytes (2 ^ 256 - 2) := by decide +kernel
theorem witness_StoreWritesALimb : let s := regs [(1, 4064)];
    s.params.dmSize < s.x 1 + 1 + s.params.elemBytes ∧ s.x 1 + 0 + s.params.elemBytes ≤ s.params.dmSize := by decide +kernel
/-- For WideMultiplyIsExact and LoadImmediateZeroExtends. -/
theorem witness_WideMultiply_LoadImmediate : 2 ≤ State.reset.params.limbs ∧ 65535 < 2 ^ 16 := by decide
theorem witness_BitExtraction : let s := regs [(1, 256), (2, 255)];
    s.params.regBits ≤ s.x 1 ∧ s.x 2 < s.params.regBits := by decide +kernel
theorem witness_InverseModuloTheWord : let s := regs [(1, 2 ^ 64 + 2), (2, 2 ^ 64 - 1)];
    limb 0 (s.x 1) % 2 = 0 ∧ 2 ≤ s.params.limbs ∧ limb 0 (s.x 2) % 2 = 1 := by decide +kernel
theorem witness_ConfigureTheField : let s := regs [(1, 1), (2, 4), (3, 3)];
    s.x 1 < 3 ∧ s.x 2 % 2 = 0 ∧ s.x 3 % 2 = 1 ∧ 3 ≤ s.x 3 := by decide +kernel
/-- For FieldAdditionAndSubtraction, MontgomeryMultiplication, MontgomeryReduction, MontgomeryConversions and FieldEquality: no
field; a field with the largest element; the first value that is no element. -/
theorem witness_prime_field_arithmetic : State.reset.fvalid = false ∧ let s := field97 false (regs [(1, 96), (2, 97)]);
    FieldReady s ∧ s.x 1 < s.p ∧ s.x 0 < s.p ∧ s.p ≤ s.x 2 := by decide +kernel
theorem witness_MultiLimbProduct : let s := regs [(1, 2 ^ 256 - 1)]; s.x 1 < 2 ^ s.params.regBits := by decide +kernel
/-- Both byte orders, the largest valid and the least invalid value, and the first address past the end. -/
theorem witness_FieldLoadValidates :
    (let s := field97 true ((regs [(1, 4064), (2, 4065)]).writeArray 4064 [96 * 2 ^ 248]);
      FieldReady s ∧ s.x 1 + 0 + s.params.elemBytes ≤ s.params.dmSize ∧ 96 < 2 ^ s.params.regBits ∧ 96 < s.p ∧
      HoldsAt s s.be (s.x 1 + 0) s.params.elemBytes 96 ∧ s.params.dmSize < s.x 2 + 0 + s.params.elemBytes) ∧
    let s := field97 false ((regs [(1, 4064)]).writeArray 4064 [97]);
      FieldReady s ∧ s.x 1 + 0 + s.params.elemBytes ≤ s.params.dmSize ∧ 97 < 2 ^ s.params.regBits ∧ s.p ≤ 97 ∧
      HoldsAt s s.be (s.x 1 + 0) s.params.elemBytes 97 := by decide +kernel
theorem witness_FieldStoreIsCanonical : let s := field97 true (regs [(1, 4064), (2, 96), (3, 97), (4, 4065)]);
    FieldReady s ∧ s.x 1 + 0 + s.params.elemBytes ≤ s.params.dmSize ∧ s.x 2 < s.p ∧ s.p ≤ s.x 3 ∧
    s.params.dmSize < s.x 4 + 0 + s.params.elemBytes := by decide +kernel
theorem witness_FieldStoreThenLoadRoundTrip : let s := field97 true (regs [(1, 4064), (2, 96)]);
    FieldReady s ∧ s.x 2 < s.p ∧ s.x 1 + 0 + s.params.elemBytes ≤ s.params.dmSize ∧
    ∃ t, exec (.fst 2 1 0) s = .next t ∧ !t.status.fault :=
  ⟨by decide +kernel, by decide +kernel, by decide +kernel, exists_next (p := fun t => !t.status.fault) (by decide +kernel)⟩
/-- For CarrylessProduct, BinaryFieldAddition and BinaryFieldMultiplication: the largest element and the first value that is
none. -/
theorem witness_binary_field_arithmetic : let s := regs [(1, 2 ^ 128 - 1), (2, 2 ^ 128)];
    s.params.legal ∧ 2 ≤ s.params.limbs ∧ s.x 1 < 2 ^ 128 ∧ 2 ^ 128 ≤ s.x 2 := by decide +kernel

/-- The prime field with nodes at 0, elements at 0x100, and registers that name the array, its ends in DM and elements. -/
def primeArrays (nodes es : List Nat) : State :=
  field97 false ((withNodes nodes (regs [(3, 0x100), (4, 4096 - 32 * nodes.length), (5, 96), (6, 97),
    (7, 4097 - 32 * nodes.length)])).writeArray 0x100 es)

/-- GF(2^128) with nodes at 0, elements at 0x100, and registers that name the array and its ends in DM. -/
def binaryArrays (nodes es : List Nat) : State :=
  { (withNodes nodes (regs [(3, 0x100), (4, 4096 - 32 * nodes.length), (5, 2 ^ 128 - 1), (6, 2 ^ 128)])).writeArray 0x100 es with
    fmode := true }

/-- Every clause: no field; each range one byte past the end; the element register, the array and the nodes out of the field. -/
theorem witness_InterpolationChecksInOrder :
    (State.reset.fmode = false ∧ State.reset.fvalid = false) ∧
    (let s := primeArrays [61, 61] [1, 2];
      FieldSelected s ∧ s.params.dmSize < s.x 7 + s.arrayBytes ∧
      s.params.dmSize < { s with xbase := 4033 }.xbase + s.arrayBytes ∧ s.x 3 + s.arrayBytes ≤ s.params.dmSize ∧
      s.x 4 + s.arrayBytes ≤ s.params.dmSize ∧ s.xbase + s.arrayBytes ≤ s.params.dmSize ∧ elementBound s ≤ s.x 6 ∧
      s.x 5 < elementBound s ∧ s.readArray (s.x 3) s.nnode = .ok [1, 2] ∧ s.readArray s.xbase s.nnode = .ok [61, 61] ∧
      ∀ e ∈ [61, 61] ++ [1, 2], e < elementBound s) ∧
    (let s := primeArrays [61, 97] [1, 97];
      FieldSelected s ∧ s.x 3 + s.arrayBytes ≤ s.params.dmSize ∧ s.readArray (s.x 3) s.nnode = .ok [1, 97] ∧
      s.readArray s.xbase s.nnode = .ok [61, 97] ∧ ∃ e ∈ [1, 97], elementBound s ≤ e) ∧
    let s := binaryArrays [1, 2] [0, 2 ^ 128];
      FieldSelected s ∧ s.readArray (s.x 3) s.nnode = .ok [0, 2 ^ 128] ∧ elementBound s ≤ 2 ^ 128 ∧
      elementBound s ≤ s.x 6 := by decide +kernel
/-- The composite modulus 9, with nodes that differ by 3. -/
def nineArrays : State := { primeArrays [1, 4] [1, 2] with p := 9, minv := 0x8E38E38E38E38E39 }

/-- The last clauses of InterpolationChecksInOrder: distinct nodes whose difference is no unit modulo 9. -/
theorem witness_InterpolationChecksInOrder_composite : FieldSelected nineArrays ∧ 1 ≠ 4 ∧
    nineArrays.readArray nineArrays.xbase nineArrays.nnode = .ok [1, 4] ∧
    (∀ e ∈ [1, 4] ++ [1, 2], e < elementBound nineArrays) ∧ ¬ NodesDiffer nineArrays [1, 4] := by
  refine ⟨by decide +kernel, by decide, by decide +kernel, by decide +kernel, fun h => ?_⟩
  have hu : IsUnit ((PF.dec 9 256 4 : ZMod 9) - (PF.dec 9 256 1 : ZMod 9)) := (h 1 0 (by decide) (by decide)).1 rfl
  rw [show (PF.dec 9 256 4 : ZMod 9) - (PF.dec 9 256 1 : ZMod 9) = 3 by decide +kernel] at hu
  obtain ⟨u, hu⟩ := hu
  exact absurd (hu ▸ u.mul_inv) ((by decide : ∀ d : ZMod 9, 3 * d ≠ 1) _)
/-- For ArraysHoldTheirElements: an array read, at the end of DM, with a full-width element. -/
theorem witness_ArraysHoldTheirElements : let s := State.reset.writeArray 4032 [5, 2 ^ 256 - 1];
    s.readArray 4032 2 = .ok [5, 2 ^ 256 - 1] ∧ s.byteAt 4032 = some 5 ∧ s.byteAt 4033 = some 0 := by decide +kernel
/-- For MonomialEvaluation, NewtonEvaluation and NewtonToMonomial: both fields, the largest element, a result that ends at the
end of DM, and no elements at all. -/
theorem witness_polynomial_evaluation :
    (let s := primeArrays [61, 96] [0, 96];
      s.params.legal ∧ FieldReady s ∧ FieldSelected s ∧ s.fmode = false ∧ ArrayAt s (s.x 3) s.nnode (elementBound s) [0, 96] ∧
      ArrayAt s s.xbase s.nnode (elementBound s) [61, 96] ∧ s.x 5 < elementBound s ∧
      s.x 4 + s.arrayBytes ≤ s.params.dmSize) ∧
    (let s := binaryArrays [1, 2 ^ 128 - 1] [0, 2 ^ 128 - 1];
      s.params.legal ∧ FieldSelected s ∧ s.fmode = true ∧ ArrayAt s (s.x 3) s.nnode (elementBound s) [0, 2 ^ 128 - 1] ∧
      ArrayAt s s.xbase s.nnode (elementBound s) [1, 2 ^ 128 - 1] ∧ s.x 5 < elementBound s ∧
      s.x 4 + s.arrayBytes ≤ s.params.dmSize) ∧
    let s := primeArrays [] [];
      FieldReady s ∧ ArrayAt s (s.x 3) s.nnode (elementBound s) [] ∧ ArrayAt s s.xbase s.nnode (elementBound s) [] := by
  refine ⟨?_, ?_, ?_⟩ <;> decide +kernel
/-- For NewtonCoefficientsAreDividedDifferences and ValuesToMonomial, in the prime field. -/
theorem witness_newton_from_values_prime : let s := primeArrays [61, 96] [0, 96];
    s.params.legal ∧ FieldSelected s ∧ ∃ f, s.selectField = .ok f ∧ ArrayAt s (s.x 3) s.nnode (elementBound s) [0, 96] ∧
      ArrayAt s s.xbase s.nnode (elementBound s) [61, 96] ∧ s.x 4 + s.arrayBytes ≤ s.params.dmSize ∧
      f.checkDistinct [61, 96] = .ok () :=
  ⟨by decide, by decide +kernel, _, rfl, by decide +kernel, by decide +kernel, by decide +kernel, by decide +kernel⟩
/-- For the same two, in GF(2^128). -/
theorem witness_newton_from_values_binary : let s := binaryArrays [1, 2] [0, 2 ^ 128 - 1];
    s.params.legal ∧ FieldSelected s ∧ ∃ f, s.selectField = .ok f ∧
      ArrayAt s (s.x 3) s.nnode (elementBound s) [0, 2 ^ 128 - 1] ∧ ArrayAt s s.xbase s.nnode (elementBound s) [1, 2] ∧
      s.x 4 + s.arrayBytes ≤ s.params.dmSize ∧ f.checkDistinct [1, 2] = .ok () :=
  ⟨by decide, by decide +kernel, _, rfl, by decide +kernel, by decide +kernel, by decide +kernel, by decide +kernel⟩

/-- The inverses of 1, x and x+1 (V109a, V109b). -/
theorem small_invertible : ∀ a ∈ [1, 2, 3], GfInvertible Config.reference.gfPoly a := by
  intro a ha
  simp only [List.mem_cons, List.not_mem_nil, or_false] at ha
  rcases ha with rfl | rfl | rfl
  · exact ⟨1, by decide +kernel⟩
  · exact ⟨0x80000000000000000000000000000043, by decide +kernel⟩
  · exact ⟨0xFFFFFFFFFFFFFFFFFFFFFFFFFFFFFF82, by decide +kernel⟩

theorem witness_RepresentationsAgree_prime : let s := primeArrays [61, 96] [0, 96];
    s.params.legal ∧ FieldSelected s ∧ ∃ f, s.selectField = .ok f ∧ [61, 96].length = [0, 96].length ∧
      (∀ e ∈ [61, 96] ++ [0, 96], e < elementBound s) ∧ f.checkDistinct [61, 96] = .ok () ∧ s.fmode ≠ true :=
  ⟨by decide, by decide +kernel, _, rfl, rfl, by decide +kernel, by decide +kernel, by decide +kernel⟩
theorem witness_RepresentationsAgree_binary : let s := binaryArrays [1, 2] [0, 2 ^ 128 - 1];
    s.params.legal ∧ FieldSelected s ∧ ∃ f, s.selectField = .ok f ∧ [1, 2].length = [0, 2 ^ 128 - 1].length ∧
      (∀ e ∈ [1, 2] ++ [0, 2 ^ 128 - 1], e < elementBound s) ∧ f.checkDistinct [1, 2] = .ok () ∧ s.fmode = true ∧
      ∀ i j, j < i → i < [1, 2].length → GfInvertible s.params.gfPoly ([1, 2].getD i 0 ^^^ [1, 2].getD j 0) :=
  ⟨by decide, by decide +kernel, _, rfl, rfl, by decide +kernel, by decide +kernel, by decide +kernel, fun i j hj hi =>
    small_invertible _ ((by decide : ∀ i, i < 2 → ∀ j, j < i → [1, 2].getD i 0 ^^^ [1, 2].getD j 0 ∈ [1, 2, 3]) i hi j hj)⟩

/-- Every clause: the prime field selected; `l` over BLEN; the basis and the data past the end of DM by one byte; a value of
`2^128` in the basis and in the data. -/
theorem witness_TransformChecksInOrder :
    State.reset.fmode = false ∧
    (let s := transform [1] [0, 0, 0, 0] 0; s.fmode = true ∧ s.blen < 2) ∧
    (let s := { (transform [1, 2] [] 0) with bbase := 4033 };
      s.fmode = true ∧ 2 ≤ s.blen ∧ s.params.dmSize < s.bbase + 2 * s.params.elemBytes) ∧
    (let s := (transform [1, 2] [] 0).setReg 2 3969;
      s.fmode = true ∧ 2 ≤ s.blen ∧ s.params.dmSize < s.x 2 + 2 ^ 2 * s.params.elemBytes) ∧
    let s := transform [2 ^ 128] [0, 2 ^ 128] 0;
      s.fmode = true ∧ 1 ≤ s.blen ∧ s.bbase + 1 * s.params.elemBytes ≤ s.params.dmSize ∧
      s.x 2 + 2 ^ 1 * s.params.elemBytes ≤ s.params.dmSize ∧ s.readArray s.bbase 1 = .ok [2 ^ 128] ∧
      s.readArray (s.x 2) (2 ^ 1) = .ok [0, 2 ^ 128] := by decide +kernel
/-- A coset at and below the bound; size 0, and size 2 with a basis that is independent and one that is not. -/
theorem witness_ForwardTransform :
    (let s := transform [1, 2] [5, 2 ^ 128 - 1, 0, 3] (2 ^ 128 - 1);
      s.params.legal ∧ TransformReady s 2 (s.x 2) [1, 2] [5, 2 ^ 128 - 1, 0, 3] ∧ s.x 3 < 2 ^ 128 ∧ 2 < 256) ∧
    (let s := transform [1, 1] [5, 2 ^ 128 - 1, 0, 3] (2 ^ 128);
      TransformReady s 2 (s.x 2) [1, 1] [5, 2 ^ 128 - 1, 0, 3] ∧ 2 ^ 128 ≤ s.x 3) ∧
    let s := transform [] [7] 9; TransformReady s 0 (s.x 2) [] [7] := by decide +kernel
/-- The points of the basis `[1, 2]` in a coset: their differences are 1, 2 and 3. -/
theorem points_invertible (c : Nat) (hc : c ∈ [0, 4]) (i j : Nat) (hi : i < j) (hj : j < 2 ^ 2) :
    GfInvertible Config.reference.gfPoly (pointOf [1, 2] c i ^^^ pointOf [1, 2] c j) :=
  small_invertible _ ((by decide +kernel :
    ∀ c ∈ [0, 4], ∀ j, j < 2 ^ 2 → ∀ i, i < j → pointOf [1, 2] c i ^^^ pointOf [1, 2] c j ∈ [1, 2, 3]) c hc j hj i hi)
theorem witness_InverseTransform :
    (let s := transform [1, 2] [5, 6, 7, 2 ^ 128 - 1] 4;
      s.params.legal ∧ TransformReady s 2 (s.x 2) [1, 2] [5, 6, 7, 2 ^ 128 - 1] ∧ s.x 3 < 2 ^ 128 ∧
      ∀ i j, i < j → j < 2 ^ 2 → GfInvertible s.params.gfPoly (pointOf [1, 2] (s.x 3) i ^^^ pointOf [1, 2] (s.x 3) j)) ∧
    (let s := transform [1, 1] [1, 2, 3, 4] 0;
      TransformReady s 2 (s.x 2) [1, 1] [1, 2, 3, 4] ∧ s.x 3 < 2 ^ 128 ∧
      pointOf [1, 1] (s.x 3) 0 = pointOf [1, 1] (s.x 3) 3) ∧
    let s := transform [1, 2] [5, 6, 7, 8] (2 ^ 128);
      TransformReady s 2 (s.x 2) [1, 2] [5, 6, 7, 8] ∧ 2 ^ 128 ≤ s.x 3 := by
  refine ⟨⟨by decide, by decide +kernel, by decide +kernel, ?_⟩, by decide +kernel, by decide +kernel⟩
  exact fun i j hi hj => points_invertible 4 (by decide) i j hi hj
/-- `k` at 0, at `2^l`, one over; and a basis whose third point repeats the second. -/
theorem witness_BidirectionalTransform :
    (let s := transform [1, 2] [5, 6, 7, 8] 4;
      s.params.legal ∧ TransformReady s 2 (s.x 2) [1, 2] [5, 6, 7, 8] ∧ s.x 3 ≤ 2 ^ 2 ∧
      ∀ i j, i < j → j < s.x 3 → GfInvertible s.params.gfPoly (pointOf [1, 2] 0 i ^^^ pointOf [1, 2] 0 j)) ∧
    (let s := transform [1, 2] [5, 6, 7, 8] 5; TransformReady s 2 (s.x 2) [1, 2] [5, 6, 7, 8] ∧ 2 ^ 2 < s.x 3) ∧
    let s := transform [1, 1] [5, 6, 7, 8] 3;
      TransformReady s 2 (s.x 2) [1, 1] [5, 6, 7, 8] ∧ s.x 3 ≤ 2 ^ 2 ∧ 2 < s.x 3 ∧ pointOf [1, 1] 0 1 = pointOf [1, 1] 0 2 := by
  refine ⟨⟨by decide, by decide +kernel, by decide +kernel, ?_⟩, by decide +kernel, by decide +kernel⟩
  have e : (transform [1, 2] [5, 6, 7, 8] 4).x 3 = 2 ^ 2 := by decide +kernel
  exact fun i j hi hj => points_invertible 0 (by decide) i j hi (e ▸ hj)
theorem witness_InverseTransformUndoesForward : let s := transform [1, 2] [5, 6, 7, 8] 4;
    s.params.legal ∧ TransformReady s 2 (s.x 2) [1, 2] [5, 6, 7, 8] ∧ s.x 3 < 2 ^ 128 ∧
    (∀ i j, i < j → j < 2 ^ 2 → GfInvertible s.params.gfPoly (pointOf [1, 2] (s.x 3) i ^^^ pointOf [1, 2] (s.x 3) j)) ∧
    (s.bbase + 2 * s.params.elemBytes ≤ s.x 2 ∨ s.x 2 + 2 ^ 2 * s.params.elemBytes ≤ s.bbase) ∧
    ∃ t, exec (.fft 2 3 2) s = .next t ∧ !t.status.fault :=
  ⟨by decide, by decide +kernel, by decide +kernel, fun i j hi hj => points_invertible 4 (by decide) i j hi hj,
    by decide +kernel, exists_next (p := fun t => !t.status.fault) (by decide +kernel)⟩
theorem witness_HaltAndBranch : -(2 ^ 15) ≤ (-32768 : Int) ∧ (-32768 : Int) < 2 ^ 15 ∧ (32767 : Int) < 2 ^ 15 ∧ busy.x 1 ≠ 0 ∧
    busy.x 3 = 0 := by decide +kernel
/-- For ReadOfControlRegisters and WriteOfControlRegisters: the first reserved number, the last one, and a legal state for the numbers 0 to 9. -/
theorem witness_control_registers : 9 < 10 ∧ 9 < 255 ∧ 255 < 256 ∧ Legal busy := ⟨by decide, by decide, by decide, busy_legal⟩

end Sys2Proof.Tests
end

section
/-! What a step and a host action can do, said once; and from that, that neither changes a construction parameter and that no step
writes command memory (00_scope.md R10, 20_memory.md R101, R114). -/

namespace Sys2Proof.Machine

variable {s t : State}

/-! ## What a step and a host action can do -/

/-- A step that answers a next state is one of a stopped unit, or it completed the command it fetched, or the unit faulted. -/
theorem step_eq_next (h : step s = .next t) :
    (s.status.running = false ∧ t = s) ∨
      (s.status.running = true ∧ ∃ w i, s.fetch = .ok w ∧ decode w = some i ∧ Effect s t i) ∨
      (s.status.running = true ∧ ∃ c, t = s.faultEntry c) := by
  have faulted : ∀ {e : Stop}, perform s (.error e) = .next t → ∃ c, t = s.faultEntry c := by
    intro e he
    rcases perform_eq_next.1 he with he | ⟨c, _, _, ht⟩
    · cases he
    · exact ⟨c, ht⟩
  cases hrun : s.status.running with
  | false => simp_all [step]
  | true =>
    simp only [step, hrun, if_true] at h
    cases hw : s.fetch with
    | error e => rw [hw] at h; exact .inr (.inr ⟨rfl, faulted h⟩)
    | ok w =>
      simp only [hw, State.performWord] at h
      cases hi : decode w with
      | none => rw [hi] at h; exact .inr (.inr ⟨rfl, faulted h⟩)
      | some i =>
        rw [hi] at h
        rcases exec_eq_next h with heff | ⟨c, _, ht⟩
        · exact .inr (.inl ⟨rfl, w, i, rfl, hi, heff⟩)
        · exact .inr (.inr ⟨rfl, c, ht⟩)

/-- The shape of the state `t` a host action that is performed leaves over `s` (60_exceptions.md R640). -/
def PortEffect (s t : State) : PortAction → Prop
  | .writeCm index word => t = s.writeCommand index word
  | .writeDm address bytes => t = s.writeBytes address bytes
  | .writeReg r value => t = s.setReg r value
  | .writeCsr number value => ∃ c, csrOfNumber number = some c ∧ s.writeCsr value c = some t
  | .start index => t = s.start index
  | .reset => t = State.resetWith s.params
  | .readCm _ | .readDm _ _ | .readReg _ | .readCsr _ | .readPc | .observeDone => t = s

/-- A host read that answers leaves the state as it is. -/
theorem portRead_eq_next {c : Comp PortReply} {r : PortReply} (h : portRead s c = .next (t, r)) : t = s := by
  match c with
  | .ok _ => cases h; rfl
  | .error (.stuck _) | .error (.trap _ _) => cases h

/-- An action of a stopped unit that is performed leaves its effect. -/
theorem portStopped_eq_next {a : PortAction} {r : PortReply} (h : s.portStopped a = .next (t, r)) : PortEffect s t a := by
  cases a <;> simp only [State.portStopped] at h
  case readReg | readPc | start | reset | observeDone => cases h; rfl
  case writeCm | writeDm | writeReg => split at h <;> cases h; rfl
  case readCm =>
    split at h
    · split at h <;> cases h; rfl
    · cases h
  case readDm =>
    split at h
    · exact portRead_eq_next h
    · cases h
  case readCsr => split at h <;> cases h; rfl
  case writeCsr =>
    split at h
    · split at h
      · cases h
      · split at h <;> cases h
        exact ⟨_, ‹_›, ‹_›⟩
    · cases h

/-- A host action that is performed leaves its effect. -/
theorem port_eq_next {a : PortAction} {r : PortReply} (h : s.port a = .next (t, r)) : PortEffect s t a := by
  unfold State.port at h
  split at h
  · cases h; rfl
  · cases h; rfl
  · split at h
    · cases h
    · exact portStopped_eq_next h

/-! ## What they leave unchanged -/

/-- From `s` to `t` neither a construction parameter nor command memory changes. -/
def KeepsConstruction (s t : State) : Prop := t.params = s.params ∧ t.cm = s.cm

theorem KeepsConstruction.advance (h : KeepsConstruction s t) : KeepsConstruction s t.advance := h

theorem writeCsr_keepsConstruction {v : Nat} {c : Csr} (h : s.writeCsr v c = some t) : KeepsConstruction s t := by
  cases c <;> cases h <;> exact ⟨rfl, rfl⟩

/-- No command that completes changes a parameter or writes command memory. -/
theorem Effect.keepsConstruction {i : Instr} (h : Effect s t i) : KeepsConstruction s t := by
  cases i <;> simp only [Effect] at h
  case halt => subst h; exact ⟨rfl, rfl⟩
  case bnz => subst h; split <;> exact ⟨rfl, rfl⟩
  case fcfg => obtain ⟨_, _, rfl⟩ := h; exact ⟨rfl, rfl⟩
  case fld => rcases h with ⟨_, rfl⟩ | rfl <;> exact ⟨rfl, rfl⟩
  case csrw => obtain ⟨_, _, _, hu, rfl⟩ := h; exact (writeCsr_keepsConstruction hu).advance
  case mulw | clmul => obtain ⟨_, _, rfl⟩ := h; exact ⟨rfl, rfl⟩
  case st => obtain ⟨_, rfl⟩ := h; exact ⟨rfl, rfl⟩
  case fst => obtain ⟨_, _, rfl⟩ := h; exact ⟨rfl, rfl⟩
  case nofl | monofn | monofl | fft | ifft | bfft => obtain ⟨_, _, _, rfl⟩ := h; exact ⟨rfl, rfl⟩
  all_goals obtain ⟨_, rfl⟩ := h; exact ⟨rfl, rfl⟩

theorem step_keepsConstruction (h : step s = .next t) : KeepsConstruction s t := by
  rcases step_eq_next h with ⟨_, rfl⟩ | ⟨_, _, _, _, _, heff⟩ | ⟨_, _, rfl⟩
  · exact ⟨rfl, rfl⟩
  · exact heff.keepsConstruction
  · exact ⟨State.faultEntry_params _ _, State.faultEntry_cm _ _⟩

/-- No host action changes a parameter: RESET builds its state with the parameters of the unit (60_exceptions.md R642). -/
theorem PortEffect.params_eq {a : PortAction} (h : PortEffect s t a) : t.params = s.params := by
  cases a <;> simp only [PortEffect] at h
  case writeCsr => obtain ⟨_, _, hw⟩ := h; exact (writeCsr_keepsConstruction hw).1
  all_goals subst h; rfl

/-- Settles O16: a step and a host action do nothing beyond their effects, and each effect keeps what the claim names. -/
theorem parametersAndCommandsNeverChange : Obligations.ParametersAndCommandsNeverChange :=
  ⟨fun _ _ h => step_keepsConstruction h, fun _ _ _ _ h => (port_eq_next h).params_eq⟩

end Sys2Proof.Machine
end

section
/-! What a step does, by where its word comes from; what a command that completes does, by its kind; and from the two, where `pc`
goes and which control registers change (10_state.md R50, R55, R57, R63 to R69, R73). -/

namespace Sys2Proof.Machine

open Sys2Proof.Safety

variable {s t u : State} {i : Instr} {w : Word}

/-! ## A step, by what it fetches -/

theorem step_of_stopped (hrun : s.status.running = false) : step s = .next s := by
  simp [step, hrun]

/-- An index past CM raises E_FETCH (60_exceptions.md R603). -/
theorem step_of_past_cm (hrun : s.status.running = true) (hpc : s.params.cmSize ≤ s.pc.toNat) :
    step s = .next (s.faultEntry .fetch) := by
  simp [step, hrun, State.fetch, Nat.not_lt.2 hpc]

/-- The fetch of a word nothing has written stops the model (LOG 5). -/
theorem step_of_unwritten (hrun : s.status.running = true) (hpc : s.pc.toNat < s.params.cmSize)
    (hw : s.commandAt s.pc.toNat = none) : step s = .fault (.unwrittenCommand s.pc.toNat) := by
  simp [step, hrun, State.fetch, hpc, hw]

/-- A word that is no command raises E_ILLEGAL (30_encoding.md R157). -/
theorem step_of_illegal (hrun : s.status.running = true) (hpc : s.pc.toNat < s.params.cmSize)
    (hw : s.commandAt s.pc.toNat = some w) (hi : decode w = none) : step s = .next (s.faultEntry .illegal) := by
  simp [step, hrun, State.fetch, hpc, hw, State.performWord, hi, raise]

theorem step_of_command (hrun : s.status.running = true) (hpc : s.pc.toNat < s.params.cmSize)
    (hw : s.commandAt s.pc.toNat = some w) (hi : decode w = some i) : step s = exec i s := by
  simp [step, hrun, State.fetch, hpc, hw, State.performWord, hi]

/-- Settles O6: fetch and decode pass, so the step is the command. -/
theorem stepRunsDecodedCommand : Obligations.StepRunsDecodedCommand :=
  fun _ _ _ hrun hpc hw hi => step_of_command hrun hpc hw hi

/-- A cause that some rule raises (60_exceptions.md R600, R609). -/
def IsRaised (c : Cause) : Prop := c ≠ .none ∧ c ≠ .internal

theorem isRaised_of_mem_causes {c : Cause} (h : c ∈ causes i) : IsRaised c := by
  have hnone : Cause.none ∉ causes i := by cases i <;> simp [causes]
  have hinternal : Cause.internal ∉ causes i := by cases i <;> simp [causes]
  exact ⟨fun e => hnone (e ▸ h), fun e => hinternal (e ▸ h)⟩

/-- A step of a running unit that answers a next state completed a command or took a fault with one of the raised causes. -/
theorem step_running_eq_next (hrun : s.status.running = true) (h : step s = .next t) :
    (∃ i, Effect s t i) ∨ ∃ c, IsRaised c ∧ t = s.faultEntry c := by
  have faulted : ∀ {c : Cause}, IsRaised c → step s = .next (s.faultEntry c) →
      ∃ c, IsRaised c ∧ t = s.faultEntry c := by
    intro c hc hstep
    rw [hstep] at h
    cases h
    exact ⟨c, hc, rfl⟩
  rcases Nat.lt_or_ge s.pc.toNat s.params.cmSize with hpc | hpc
  · cases hw : s.commandAt s.pc.toNat with
    | none => rw [step_of_unwritten hrun hpc hw] at h; cases h
    | some w =>
      cases hi : decode w with
      | none => exact .inr (faulted (by simp [IsRaised]) (step_of_illegal hrun hpc hw hi))
      | some i =>
        rw [step_of_command hrun hpc hw hi] at h
        rcases exec_eq_next h with heff | ⟨c, hc, ht⟩
        · exact .inl ⟨i, heff⟩
        · exact .inr ⟨c, isRaised_of_mem_causes hc, ht⟩
  · exact .inr (faulted (by simp [IsRaised]) (step_of_past_cm hrun hpc))

/-! ## A command that completes, by its kind -/

/-- From `s` to `u` registers are written, or bytes inside data memory. -/
inductive DataWrite (s : State) : State → Prop where
  | register (rd : Reg) (v : Nat) : DataWrite s (s.setReg rd v)
  | halves (rd rc : Reg) (low high : Nat) : DataWrite s (s.setHalves rd rc low high)
  | bytes (a : Nat) (bs : List Byte) (fits : a + bs.length ≤ s.params.dmSize) : DataWrite s (s.writeBytes a bs)

/-- The commands that write no control register and leave `pc` one further (30_encoding.md R160, column "other writes"). -/
def writesDataOnly : Instr → Bool
  | .fcfg _ _ | .fld _ _ _ | .halt | .bnz _ _ | .csrw _ _ => false
  | _ => true

/-- The state with the modulus `p` and the byte order `be` configured (44_prime_field.md R360). -/
def configured (s : State) (p : Nat) (be : Bool) : State :=
  { s with p := p, minv := (invModB (BitVec.ofNat 64 (limb 0 p))).toNat, be := be, fvalid := true }

/-- The state after HALT (48_sequencer.md R551). -/
def halted (s : State) : State :=
  { s with status := { running := false, done := true, fault := false, cause := .none } }

/-- `Effect` with the commands that only write data taken together. -/
inductive Completion (s : State) : Instr → State → Prop where
  | data {i : Instr} {u : State} (hi : writesDataOnly i = true) (hu : DataWrite s u) : Completion s i u.advance
  | configure (ra : Reg) (be : Bool) (hodd : s.x ra % 2 = 1) (h3 : 3 ≤ s.x ra) :
    Completion s (.fcfg ra be) (configured s (s.x ra) be).advance
  | loadValid (rd ra : Reg) (offset v : Nat) : Completion s (.fld rd ra offset) ((s.setReg rd v).setV false).advance
  | loadAbsent (rd ra : Reg) (offset : Nat) : Completion s (.fld rd ra offset) (s.setV true).advance
  | halt : Completion s .halt (halted s)
  | taken (ra : Reg) (offset : Int) (h : s.x ra ≠ 0) : Completion s (.bnz ra offset) (s.branch offset)
  | untaken (ra : Reg) (offset : Int) (h : s.x ra = 0) : Completion s (.bnz ra offset) s.advance
  | writeCsr (ra : Reg) (csr : Nat) {c : Csr} {u : State} (hu : s.writeCsr (s.x ra) c = some u) :
    Completion s (.csrw ra csr) u.advance

/-- An array's bytes lie in data memory when the array does. -/
theorem dataWrite_writeArray {a n : Nat} {ys : List Nat} (hl : ys.length = n)
    (fits : a + n * s.params.elemBytes ≤ s.params.dmSize) : DataWrite s (s.writeArray a ys) :=
  .bytes a _ (by rwa [arrayBytes_length, hl])

theorem Effect.completion (h : Effect s t i) : Completion s i t := by
  cases i <;> simp only [Effect] at h
  case fcfg => obtain ⟨hodd, h3, rfl⟩ := h; exact .configure _ _ hodd h3
  case fld =>
    rcases h with ⟨v, rfl⟩ | rfl
    · exact .loadValid _ _ _ v
    · exact .loadAbsent _ _ _
  case halt => subst h; exact .halt
  case bnz =>
    subst h
    split
    · exact .taken _ _ ‹_›
    · exact .untaken _ _ (not_not.1 ‹_›)
  case csrw => obtain ⟨_, _, _, hu, rfl⟩ := h; exact .writeCsr _ _ hu
  case mulw | clmul => obtain ⟨low, high, rfl⟩ := h; exact .data rfl (.halves _ _ low high)
  case st => obtain ⟨fits, rfl⟩ := h; exact .data rfl (.bytes _ _ (by rwa [leBytes_length]))
  case fst => obtain ⟨fits, c, rfl⟩ := h; exact .data rfl (.bytes _ _ (by rwa [valueBytes_length]))
  case nofl | monofn | monofl | fft | ifft | bfft =>
    obtain ⟨fits, ys, hl, rfl⟩ := h
    exact .data rfl (dataWrite_writeArray hl fits)
  all_goals obtain ⟨v, rfl⟩ := h; exact .data rfl (.register _ v)

/-- A command that answers a next state completed, or took a fault with one of its causes. -/
theorem exec_eq_next_completion (h : exec i s = .next t) : Completion s i t ∨ ∃ c ∈ causes i, t = s.faultEntry c :=
  (exec_eq_next h).imp_left Effect.completion

/-- A write of data leaves `pc` and everything but the registers and data memory. -/
theorem DataWrite.frame (h : DataWrite s u) : u = { s with regs := u.regs, written := u.written, dm := u.dm } := by
  cases h <;> rfl

theorem DataWrite.pc_eq (h : DataWrite s u) : u.pc = s.pc := by rw [h.frame]

theorem DataWrite.status_eq (h : DataWrite s u) : u.status = s.status := by rw [h.frame]

/-! ## Which control registers change -/

/-- From `s` to `t` the field configuration is the same (10_state.md R64, R65, R73). -/
def KeepsField (s t : State) : Prop := t.p = s.p ∧ t.minv = s.minv ∧ t.be = s.be ∧ t.fvalid = s.fvalid

/-- From `s` to `t` FMODE and the bases are the same (10_state.md R63, R66 to R69). -/
def KeepsBases (s t : State) : Prop :=
  t.fmode = s.fmode ∧ t.bbase = s.bbase ∧ t.blen = s.blen ∧ t.nnode = s.nnode ∧ t.xbase = s.xbase

theorem DataWrite.keepsField (h : DataWrite s u) : KeepsField s u := by
  cases h <;> exact ⟨rfl, rfl, rfl, rfl⟩

theorem DataWrite.keepsBases (h : DataWrite s u) : KeepsBases s u := by
  cases h <;> exact ⟨rfl, rfl, rfl, rfl, rfl⟩

theorem DataWrite.v_eq (h : DataWrite s u) : u.v = s.v := by rw [h.frame]

/-- No write of a CSR changes the field configuration: P and MINV are read-only, and of FCTL only FMODE is written
(10_state.md R63 to R65). -/
theorem writeCsr_keepsField {v : Nat} {c : Csr} (h : s.writeCsr v c = some t) : KeepsField s t := by
  cases c <;> cases h <;> exact ⟨rfl, rfl, rfl, rfl⟩

theorem writeCsr_status_eq {v : Nat} {c : Csr} (h : s.writeCsr v c = some t) : t.status = s.status := by
  cases c <;> cases h <;> rfl

theorem writeCsr_pc_eq {v : Nat} {c : Csr} (h : s.writeCsr v c = some t) : t.pc = s.pc := by
  cases c <;> cases h <;> rfl

theorem KeepsField.advance (h : KeepsField s t) : KeepsField s t.advance := h

theorem KeepsBases.advance (h : KeepsBases s t) : KeepsBases s t.advance := h

theorem Completion.keepsField (h : Completion s i t) (hi : ∀ ra be, i ≠ .fcfg ra be) : KeepsField s t := by
  cases h with
  | data _ hu => exact hu.keepsField.advance
  | configure ra be => exact absurd rfl (hi ra be)
  | writeCsr _ _ hu => exact (writeCsr_keepsField hu).advance
  | loadValid | loadAbsent | halt | taken | untaken => exact ⟨rfl, rfl, rfl, rfl⟩

theorem Completion.v_eq (h : Completion s i t) (hfld : ∀ rd ra off, i ≠ .fld rd ra off)
    (hcsrw : ∀ ra csr, i ≠ .csrw ra csr) : t.v = s.v := by
  cases h with
  | data _ hu => exact hu.v_eq
  | loadValid rd ra off | loadAbsent rd ra off => exact absurd rfl (hfld rd ra off)
  | writeCsr ra csr => exact absurd rfl (hcsrw ra csr)
  | configure | halt | taken | untaken => rfl

theorem Completion.keepsBases (h : Completion s i t) (hi : ∀ ra csr, i ≠ .csrw ra csr) : KeepsBases s t := by
  cases h with
  | data _ hu => exact hu.keepsBases.advance
  | writeCsr ra csr => exact absurd rfl (hi ra csr)
  | configure | loadValid | loadAbsent | halt | taken | untaken => exact ⟨rfl, rfl, rfl, rfl, rfl⟩

/-- Settles O17: by the kind of the command; a fault entry changes none of these. -/
theorem configurationChangesOnlyWhereNamed : Obligations.ConfigurationChangesOnlyWhereNamed := by
  intro i s t h
  rcases exec_eq_next_completion h with hc | ⟨c, _, rfl⟩
  · exact ⟨hc.keepsField, hc.v_eq, hc.keepsBases⟩
  · exact ⟨fun _ => ⟨rfl, rfl, rfl, rfl⟩, fun _ _ => rfl, fun _ => ⟨rfl, rfl, rfl, rfl, rfl⟩⟩

/-! ## Where `pc` goes -/

/-- No command that completes sets FAULT. -/
theorem Completion.fault_eq_false (h : Completion s i t) (hs : s.status.fault = false) : t.status.fault = false := by
  cases h with
  | data _ hu => rwa [State.advance_status, hu.status_eq]
  | writeCsr _ _ hu => rwa [State.advance_status, writeCsr_status_eq hu]
  | halt => rfl
  | configure | loadValid | loadAbsent | taken | untaken => exact hs

theorem Completion.pc_eq_next (h : Completion s i t) (hhalt : i ≠ .halt) (hbnz : ∀ ra off, i ≠ .bnz ra off) :
    t.pc = s.pc + 1 := by
  cases h with
  | data _ hu => rw [State.advance_pc, hu.pc_eq]
  | writeCsr _ _ hu => rw [State.advance_pc, writeCsr_pc_eq hu]
  | halt => exact absurd rfl hhalt
  | taken ra off | untaken ra off => exact absurd rfl (hbnz ra off)
  | configure | loadValid | loadAbsent => rfl

theorem Completion.pc_of_halt (h : Completion s .halt t) : t.pc = s.pc := by
  cases h with
  | data hi => cases hi
  | halt => rfl

/-- The target of BNZ, in signed integers (48_sequencer.md R552). -/
theorem branch_pc_toNat (s : State) (off : Int) :
    ((s.branch off).pc.toNat : Int) = ((s.pc.toNat : Int) + off) % 2 ^ 32 := by
  rw [State.branch_pc, BitVec.toNat_add, BitVec.toNat_ofInt]
  omega

theorem Completion.pc_of_bnz {ra : Reg} {off : Int} (h : Completion s (.bnz ra off) t) :
    (s.x ra ≠ 0 → (t.pc.toNat : Int) = ((s.pc.toNat : Int) + off) % 2 ^ 32) ∧ (s.x ra = 0 → t.pc = s.pc + 1) := by
  cases h with
  | data hi => cases hi
  | taken _ _ hx => exact ⟨fun _ => branch_pc_toNat s off, fun h0 => absurd h0 hx⟩
  | untaken _ _ hx => exact ⟨fun h1 => absurd hx h1, fun _ => rfl⟩

/-- Settles O20: a command that completes leaves FAULT clear and `pc` by its kind; a fault entry leaves `pc`, and BNZ raises
nothing. -/
theorem wherePcGoes : Obligations.WherePcGoes := by
  refine ⟨fun i s t hs h => ?_, fun s hrun hpc => ⟨_, step_of_past_cm hrun hpc, rfl⟩⟩
  rcases exec_eq_next_completion h with hc | ⟨c, hc, rfl⟩
  · have hf : t.status.fault ≠ true := by simp [hc.fault_eq_false hs]
    refine ⟨fun ht => absurd ht hf, fun _ => hc.pc_eq_next, ?_, ?_⟩
    · rintro rfl
      exact hc.pc_of_halt
    · rintro ra off rfl
      exact hc.pc_of_bnz
  · refine ⟨fun _ => rfl, (fun ht => by cases ht), fun _ => rfl, ?_⟩
    rintro ra off rfl
    cases hc

end Sys2Proof.Machine
end

section
/-! Every update of the state keeps the legal states, and so do a step and a host action, which make no other update; so every
state the block can reach is legal (10_state.md R50, R52, R58, R60, R64, R65; 60_exceptions.md R640). -/

namespace Sys2Proof.Safety

open Sys2Proof.Machine

variable {s t u : State}

/-! ## The updates -/

/-- FAULT is clear while the unit runs (10_state.md R60). -/
theorem Legal.fault_of_running (h : Legal s) (hrun : s.status.running = true) : s.status.fault = false := by
  have hdone := h.running hrun
  cases hf : s.status.fault with
  | false => rfl
  | true => rw [h.fault hf] at hdone; cases hdone

theorem Legal.advance (h : Legal s) (hf : s.status.fault = false) : Legal s.advance :=
  { h with faultPc := fun hf' => by rw [State.advance_status, hf] at hf'; cases hf' }

theorem Legal.branch (h : Legal s) (hf : s.status.fault = false) (off : Int) : Legal (s.branch off) :=
  { h with faultPc := fun hf' => by rw [State.branch_status, hf] at hf'; cases hf' }

theorem Legal.setReg (h : Legal s) (r : Reg) (v : Nat) : Legal (s.setReg r v) :=
  { h with
    regs := fun q => by
      rw [State.setReg_x, State.setReg_params]
      split
      · exact Nat.mod_lt _ (Nat.two_pow_pos _)
      · exact h.regs q }

theorem Legal.setV (h : Legal s) (b : Bool) : Legal (s.setV b) := { h with }

theorem Legal.writeBytes (h : Legal s) {a : Nat} {bs : List Byte} (fits : a + bs.length ≤ s.params.dmSize) :
    Legal (s.writeBytes a bs) :=
  { h with dm := h.dm.imp (writeBytes_wf · a bs) (Memory.within_writeRun · a bs fits) }

theorem Legal.writeCommand (h : Legal s) {index : Nat} (hi : index < s.params.cmSize) (w : Word) :
    Legal (s.writeCommand index w) :=
  { h with cm := h.cm.imp (writeCommand_wf · index w) (Memory.within_writeRun · index [w] hi) }

/-- A CSR takes a value that fits a register. -/
theorem Legal.writeCsr (h : Legal s) {v : Nat} (hv : v < 2 ^ s.params.regBits) {c : Csr} (hw : s.writeCsr v c = some t) :
    Legal t := by
  obtain ⟨hbbase, hblen, hnnode, hxbase⟩ := h.bases
  cases c <;> cases hw
  case flags => exact h.setV _
  case fctl => exact { h with }
  case bbase => exact { h with bases := ⟨hv, hblen, hnnode, hxbase⟩ }
  case blen => exact { h with bases := ⟨hbbase, hv, hnnode, hxbase⟩ }
  case nnode => exact { h with bases := ⟨hbbase, hblen, hv, hxbase⟩ }
  case xbase => exact { h with bases := ⟨hbbase, hblen, hnnode, hv⟩ }

/-- The computed MINV is the inverse of an odd modulus modulo `2^64` (10_state.md R65, 44_prime_field.md R360). -/
theorem modulus_mul_minv {p : Nat} (hodd : p % 2 = 1) : p * (invModB (BitVec.ofNat 64 (limb 0 p))).toNat % 2 ^ 64 = 1 := by
  have hlow : (BitVec.ofNat 64 (limb 0 p)).toNat = p % 2 ^ 64 := by simp [limb]
  have hinv := invModB_spec (BitVec.ofNat 64 (limb 0 p)) (by omega)
  rwa [hlow, Nat.mod_mul_mod] at hinv

theorem Legal.configured (h : Legal s) {p : Nat} (hp : p < 2 ^ s.params.regBits) (hodd : p % 2 = 1) (h3 : 3 ≤ p) (be : Bool) :
    Legal (configured s p be) :=
  { h with
    p := hp
    minv := BitVec.isLt _
    field := fun _ => ⟨hodd, h3, modulus_mul_minv hodd⟩
    noField := fun hv => by cases hv }

theorem Legal.halted (h : Legal s) : Legal (halted s) :=
  { h with
    running := fun hr => by cases hr
    fault := fun hf => by cases hf
    noCause := fun _ => rfl
    cause := fun hf => by cases hf
    faultPc := fun hf => by cases hf }

theorem Legal.faultEntry (h : Legal s) {c : Cause} (hc : IsRaised c) : Legal (s.faultEntry c) :=
  { h with
    running := fun hr => by cases hr
    fault := fun _ => rfl
    noCause := fun hf => by cases hf
    cause := fun _ => hc
    faultPc := fun _ => rfl }

theorem Legal.start (h : Legal s) (index : Word) : Legal (s.start index) :=
  { h with
    running := fun _ => rfl
    fault := fun hf => by cases hf
    noCause := fun _ => rfl
    cause := fun hf => by cases hf
    faultPc := fun hf => by cases hf }

/-- RESET leaves a legal state on a unit whose parameters are within their bounds (70_reset_and_hazards.md R700). -/
theorem legal_resetWith {c : Params} (hc : c.legal) : Legal (State.resetWith c) where
  params := hc
  regs r := by simp [State.x, State.resetWith]
  p := Nat.two_pow_pos _
  minv := Nat.two_pow_pos 64
  bases := ⟨Nat.two_pow_pos _, Nat.two_pow_pos _, Nat.two_pow_pos _, Nat.two_pow_pos _⟩
  running hr := by cases hr
  fault hf := by cases hf
  noCause _ := rfl
  cause hf := by cases hf
  faultPc hf := by cases hf
  field hv := by cases hv
  noField _ := ⟨rfl, rfl, rfl⟩
  dm := ⟨(reset_memories c).1, fun _ hm => by cases hm⟩
  cm := ⟨(reset_memories c).2, fun _ hm => by cases hm⟩

/-! ## A step -/

theorem Legal.dataWrite (h : Legal s) (hu : DataWrite s u) : Legal u := by
  cases hu with
  | register rd v => exact h.setReg rd v
  | halves rd rc low high => exact (h.setReg rd low).setReg rc high
  | bytes a bs fits => exact h.writeBytes fits

/-- A command that completes on a unit without a fault leaves a legal state. -/
theorem Legal.completion {i : Instr} (h : Legal s) (hf : s.status.fault = false) (hc : Completion s i t) : Legal t := by
  cases hc with
  | data _ hu => exact (h.dataWrite hu).advance (by rwa [hu.status_eq])
  | configure ra be hodd h3 => exact (h.configured (h.regs ra) hodd h3 be).advance hf
  | loadValid rd _ _ v => exact ((h.setReg rd v).setV false).advance hf
  | loadAbsent => exact (h.setV true).advance hf
  | halt => exact h.halted
  | taken _ off => exact h.branch hf off
  | untaken => exact h.advance hf
  | writeCsr ra csr hu => exact (h.writeCsr (h.regs ra) hu).advance (by rwa [writeCsr_status_eq hu])

theorem Legal.step (h : Legal s) (hstep : step s = .next t) : Legal t := by
  cases hrun : s.status.running with
  | false =>
    rw [step_of_stopped hrun] at hstep
    cases hstep
    exact h
  | true =>
    rcases step_running_eq_next hrun hstep with ⟨i, heff⟩ | ⟨c, hc, rfl⟩
    · exact h.completion (h.fault_of_running hrun) heff.completion
    · exact h.faultEntry hc

/-- Settles O11: a stopped unit keeps its state; a running one has FAULT clear, and completes a command, whose updates each keep
the legal states, or takes a fault with a raised cause. -/
theorem stepKeepsLegal : Obligations.StepKeepsLegal := fun _ _ hs h => hs.step h

/-! ## A host action -/

/-- The duties of the host that the widths and sizes of `Legal` rest on (60_exceptions.md R640). -/
def WithinBounds (c : Params) : PortAction → Prop
  | .writeCm index _ => index < c.cmSize
  | .writeDm address bytes => address + bytes.length ≤ c.dmSize
  | .writeCsr _ value => value < 2 ^ c.regBits
  | _ => True

/-- A breach of these duties is refused (93_implementation_defined.md U3). -/
theorem port_withinBounds {a : PortAction} {r : PortReply} (h : s.port a = .next (t, r)) : WithinBounds s.params a := by
  cases a
  case writeCm | writeDm | writeCsr =>
    simp only [State.port, State.portStopped] at h
    split at h
    · cases h
    · split at h
      · assumption
      · cases h
  all_goals trivial

theorem Legal.port {a : PortAction} {r : PortReply} (h : Legal s) (hport : s.port a = .next (t, r)) : Legal t := by
  have hb := port_withinBounds hport
  have heff := port_eq_next hport
  cases a <;> simp only [PortEffect] at heff
  case writeCsr => obtain ⟨_, _, hw⟩ := heff; exact h.writeCsr hb hw
  all_goals subst heff
  case writeCm index word => exact h.writeCommand hb word
  case writeDm => exact h.writeBytes hb
  case writeReg q value => exact h.setReg q value
  case start index => exact h.start index
  case reset => exact legal_resetWith h.params
  all_goals exact h

/-- Settles O13: RESET leaves a legal state, and every step and every host action keeps the legal states. -/
theorem everyReachableStateIsLegal : Obligations.EveryReachableStateIsLegal := by
  intro c s hc hs
  induction hs with
  | reset => exact legal_resetWith hc
  | step _ hstep ih => exact ih.step hstep
  | port _ hport ih => exact ih.port hport

end Sys2Proof.Safety
end

section
/-! How a command can stop the model: only at the read of a byte of data memory that nothing has written (10_state.md R70; LOG
5). -/

namespace Sys2Proof.Machine

variable {s : State} {f : FieldOps} {α β : Type}

/-- The computation stops the model, if it does, at an unwritten byte inside data memory. -/
def StopsAtUnwritten (s : State) (c : Comp α) : Prop :=
  ∀ fault, c = .error (.stuck fault) → ∃ a, fault = .unwrittenData a ∧ a < s.params.dmSize ∧ s.byteAt a = none

namespace StopsAtUnwritten

/-! ## Computations in general -/

theorem of_ok {a : α} : StopsAtUnwritten s (.ok a : Comp α) := by
  rintro _ ⟨⟩

theorem of_raise {c : Cause} {info : Nat} : StopsAtUnwritten s (raise c info : Comp α) := by
  rintro _ ⟨⟩

/-- A computation whose every stop is a fault of the unit. -/
theorem of_trap {c : Comp α} (h : ∀ e, c = .error e → ∃ k info, e = .trap k info) : StopsAtUnwritten s c := by
  intro fault hc
  obtain ⟨_, _, he⟩ := h _ hc
  cases he

theorem of_require {ok : Bool} {c : Cause} {info : Nat} : StopsAtUnwritten s (require ok c info) :=
  of_trap fun _ h => ⟨c, info, (require_eq_error.1 h).2⟩

theorem bind {c : Comp α} {g : α → Comp β} (hc : StopsAtUnwritten s c) (hg : ∀ a, c = .ok a → StopsAtUnwritten s (g a)) :
    StopsAtUnwritten s (c >>= g) := by
  intro fault h
  rcases bind_eq_error.1 h with h | ⟨a, ha, h⟩
  · exact hc fault h
  · exact hg a ha fault h

theorem of_forAll {g : Nat → Comp Unit} {l : List Nat} (h : ∀ a, StopsAtUnwritten s (g a)) :
    StopsAtUnwritten s (forAll g l) := by
  intro fault hl
  obtain ⟨a, _, ha⟩ := forAll_eq_error hl
  exact h a fault ha

/-! ## Reads of data memory -/

/-- A read inside data memory stops only at an unwritten byte of it. -/
theorem of_readBytes {a n : Nat} (fits : a + n ≤ s.params.dmSize) : StopsAtUnwritten s (s.readBytes a n) := by
  intro fault h
  obtain ⟨b, he, _, hb, hnone⟩ := readBytes_eq_error h
  cases he
  exact ⟨b, rfl, by omega, hnone⟩

theorem of_memRead {a n : Nat} (fits : a + n ≤ s.params.dmSize) : StopsAtUnwritten s (s.memRead a n) :=
  (of_readBytes fits).bind fun _ _ => of_ok

theorem of_readArray {a n : Nat} (fits : a + n * s.params.elemBytes ≤ s.params.dmSize) :
    StopsAtUnwritten s (s.readArray a n) := by
  intro fault h
  obtain ⟨b, he, _, hb, hnone⟩ := readArray_eq_error h
  cases he
  exact ⟨b, rfl, by omega, hnone⟩

/-! ## The field and the arrays of a command -/

theorem of_selectField : StopsAtUnwritten s s.selectField :=
  of_trap fun _ h => ⟨_, _, selectField_eq_error h⟩

theorem of_check (hf : s.selectField = .ok f) {a : Nat} : StopsAtUnwritten s (f.check a) :=
  of_trap fun _ h => ⟨_, _, selectField_check_eq_error hf h⟩

theorem of_checkDistinct (hf : s.selectField = .ok f) {nodes : List Nat} : StopsAtUnwritten s (f.checkDistinct nodes) :=
  of_trap fun _ h => by
    obtain ⟨_, _, _, _, hinv⟩ := checkDistinct_eq_error h
    exact ⟨_, selectField_inv_eq_error hf hinv⟩

theorem of_newtonOfValues (hf : s.selectField = .ok f) {nodes vs : List Nat} :
    StopsAtUnwritten s (f.newtonOfValues nodes vs) :=
  of_trap fun _ h => by
    obtain ⟨_, _, _, _, hinv⟩ := newtonOfValues_eq_error h
    exact ⟨_, selectField_inv_eq_error hf hinv⟩

theorem of_monomialOfValues (hf : s.selectField = .ok f) {nodes vs : List Nat} :
    StopsAtUnwritten s (f.monomialOfValues nodes vs) :=
  (of_newtonOfValues hf).bind fun _ _ => of_ok

theorem of_conversionInputs (hf : s.selectField = .ok f) {rd ra : Reg} :
    StopsAtUnwritten s (s.conversionInputs f rd ra) :=
  of_require.bind fun _ hsource => of_require.bind fun _ hnodes => of_require.bind fun _ _ =>
    (of_readArray (checkRange_eq_ok.1 hnodes)).bind fun _ _ => (of_readArray (checkRange_eq_ok.1 hsource)).bind fun _ _ =>
      (of_forAll fun _ => of_check hf).bind fun _ _ => (of_forAll fun _ => of_check hf).bind fun _ _ => of_ok

theorem of_fftCheck {l a : Nat} : StopsAtUnwritten s (s.fftCheck l a) :=
  of_require.bind fun _ _ => of_require.bind fun _ _ => of_require.bind fun _ hbasis =>
    of_require.bind fun _ hdata => (of_readArray (checkRange_eq_ok.1 hbasis)).bind fun _ _ =>
      (of_readArray (checkRange_eq_ok.1 hdata)).bind fun _ _ => (of_forAll fun _ => of_require).bind fun _ _ =>
        (of_forAll fun _ => of_require).bind fun _ _ => of_ok

/-- Every transform has passed the check that FMODE selects GF(2^128). -/
theorem selectField_of_fftCheck {l a : Nat} {p : List Nat × List Nat} (h : s.fftCheck l a = .ok p) :
    s.selectField = .ok (binaryField s.params.gfPoly) := by
  obtain ⟨hmode, _⟩ := fftCheck_eq_ok.1 h
  exact selectField_eq_ok.2 (.inl ⟨hmode, rfl⟩)

/-- A prime-field command of two operands reads no memory. -/
theorem of_primeBinary {rd ra rb : Reg} {op : Nat → Nat → Nat} : StopsAtUnwritten s (s.primeBinary rd ra rb op) :=
  of_require.bind fun _ _ => of_require.bind fun _ _ => of_require.bind fun _ _ => of_ok

end StopsAtUnwritten

open StopsAtUnwritten

/-! ## Every command -/

/-- Every command is a computation that stops the model only at an unwritten byte. -/
theorem exec_stopsAtUnwritten (i : Instr) (s : State) : ∃ r, exec i s = perform s r ∧ StopsAtUnwritten s r := by
  cases i
  case wmul64 | wmul32 | leq | lshr | lshri | ldi | nlt | mulw | halt | bnz => exact ⟨_, rfl, of_ok⟩
  case st | nbit | invw | fcfg | fred | ftom => exact ⟨_, rfl, of_require.bind fun _ _ => of_ok⟩
  case ffromm | clmul | gadd | gmul =>
    exact ⟨_, rfl, of_require.bind fun _ _ => of_require.bind fun _ _ => of_ok⟩
  case fadd | fsub | fmul | feq => exact ⟨_, rfl, of_primeBinary⟩
  case fst =>
    exact ⟨_, rfl, of_require.bind fun _ _ => of_require.bind fun _ _ => of_require.bind fun _ _ => of_ok⟩
  case ld =>
    exact ⟨_, rfl, of_require.bind fun _ hrange => (of_memRead (checkRange_eq_ok.1 hrange)).bind fun _ _ => of_ok⟩
  case fld =>
    refine ⟨_, rfl, of_require.bind fun _ _ => of_require.bind fun _ hrange =>
      (of_readBytes (checkRange_eq_ok.1 hrange)).bind fun _ _ => ?_⟩
    dsimp only
    split <;> exact of_ok
  case evalm =>
    exact ⟨_, rfl, of_selectField.bind fun _ hf => of_require.bind fun _ hrange => (of_check hf).bind fun _ _ =>
      (of_readArray (checkRange_eq_ok.1 hrange)).bind fun _ _ => (of_forAll fun _ => of_check hf).bind fun _ _ => of_ok⟩
  case evaln =>
    exact ⟨_, rfl, of_selectField.bind fun _ hf => of_require.bind fun _ hcoeffs => of_require.bind fun _ hnodes =>
      (of_check hf).bind fun _ _ => (of_readArray (checkRange_eq_ok.1 hnodes)).bind fun _ _ =>
        (of_readArray (checkRange_eq_ok.1 hcoeffs)).bind fun _ _ => (of_forAll fun _ => of_check hf).bind fun _ _ =>
          (of_forAll fun _ => of_check hf).bind fun _ _ => of_ok⟩
  case nofl =>
    exact ⟨_, rfl, of_selectField.bind fun _ hf => (of_conversionInputs hf).bind fun _ _ =>
      (of_checkDistinct hf).bind fun _ _ => (of_newtonOfValues hf).bind fun _ _ => of_ok⟩
  case monofn =>
    exact ⟨_, rfl, of_selectField.bind fun _ hf => (of_conversionInputs hf).bind fun _ _ => of_ok⟩
  case monofl =>
    exact ⟨_, rfl, of_selectField.bind fun _ hf => (of_conversionInputs hf).bind fun _ _ =>
      (of_checkDistinct hf).bind fun _ _ => (of_monomialOfValues hf).bind fun _ _ => of_ok⟩
  case fft => exact ⟨_, rfl, of_fftCheck.bind fun _ _ => of_require.bind fun _ _ => of_ok⟩
  case ifft =>
    exact ⟨_, rfl, of_fftCheck.bind fun _ hp => of_require.bind fun _ _ => of_require.bind fun _ _ =>
      (of_monomialOfValues (selectField_of_fftCheck hp)).bind fun _ _ => of_ok⟩
  case bfft =>
    exact ⟨_, rfl, of_fftCheck.bind fun _ hp => of_require.bind fun _ _ => of_require.bind fun _ _ =>
      ((of_monomialOfValues (selectField_of_fftCheck hp)).bind fun _ _ => of_ok).bind fun _ _ => of_ok⟩
  case csrr =>
    refine ⟨_, rfl, ?_⟩
    split
    · exact of_raise
    · exact of_ok
  case csrw =>
    refine ⟨_, rfl, ?_⟩
    split
    · exact of_raise
    · split
      · exact of_raise
      · exact of_ok

/-- A command answers a fault of the model exactly when its computation stopped with it. -/
theorem perform_eq_fault {r : Comp State} {fault : Fault} : perform s r = .fault fault ↔ r = .error (.stuck fault) := by
  match r with
  | .ok u => simp
  | .error (.trap c info) => simp
  | .error (.stuck g) => simp

/-- A number is not read where one of its bytes is unwritten: the read stops the model. -/
theorem memRead_of_unwritten {a n b : Nat} (hab : a ≤ b) (hb : b < a + n) (hnone : s.byteAt b = none) :
    ∃ d, s.memRead a n = .error (.stuck (.unwrittenData d)) := by
  cases hm : s.memRead a n with
  | error e =>
    obtain ⟨d, rfl, _⟩ := memRead_eq_error hm
    exact ⟨d, rfl⟩
  | ok v =>
    obtain ⟨bs, hbs, _⟩ := memRead_eq_ok.1 hm
    obtain ⟨hl, hread⟩ := readBytes_eq_ok.1 hbs
    have hsome := hread (b - a) (by omega)
    rw [show a + (b - a) = b by omega, hnone] at hsome
    cases hsome

/-- Settles O19: no check of a command stops the model and every read stands behind its range check; a load inside data memory
passes that check and then meets the byte. -/
theorem onlyUnwrittenDataStopsTheModel : Obligations.OnlyUnwrittenDataStopsTheModel := by
  refine ⟨fun i s fault h => ?_, fun rd ra off a s fits hlow hhigh hnone => ?_⟩
  · obtain ⟨r, hr, hstops⟩ := exec_stopsAtUnwritten i s
    rw [hr, perform_eq_fault] at h
    exact hstops fault h
  · obtain ⟨d, hd⟩ := memRead_of_unwritten hlow hhigh hnone
    refine ⟨d, ?_⟩
    simp [exec, execLd, State.effectiveAddress, checkRange_ok fits, hd]

end Sys2Proof.Machine
end

section
/-! The encoder and the decoder are inverse to each other, and the decoder follows the mask and match columns of the opcode map
(30_encoding.md R151 to R158). -/

namespace Sys2Proof

variable {w v : Word} {r q : OpcodeRow}

/-! ## The immediates -/

theorem imm8Field_lt (w : Word) : imm8Field w < 2 ^ 8 := Nat.mod_lt _ (by decide)

theorem imm16Field_lt (w : Word) : imm16Field w < 2 ^ 16 := Nat.mod_lt _ (by decide)

theorem mod_of_fitsImm8 {n : Nat} (h : fitsImm8 n = true) : n % 2 ^ 8 = n := Nat.mod_eq_of_lt (of_decide_eq_true h)

theorem mod_of_fitsImm16 {n : Nat} (h : fitsImm16 n = true) : n % 2 ^ 16 = n := Nat.mod_eq_of_lt (of_decide_eq_true h)

theorem fitsImm8_imm8Field (w : Word) : fitsImm8 (imm8Field w) = true := decide_eq_true (imm8Field_lt w)

theorem fitsImm16_imm16Field (w : Word) : fitsImm16 (imm16Field w) = true := decide_eq_true (imm16Field_lt w)

/-- An offset that fits is read back from the 16 bits it is written in (30_encoding.md R155). -/
theorem signed16_of_fitsOffset16 {offset : Int} (h : fitsOffset16 offset = true) :
    signed16 ((offset % 2 ^ 16).toNat % 2 ^ 16) = offset := by
  simp only [fitsOffset16, Bool.and_eq_true, decide_eq_true_eq] at h
  unfold signed16
  split <;> omega

/-- What 16 bits read as fits them (30_encoding.md R155). -/
theorem fitsOffset16_signed16 {n : Nat} (h : n < 2 ^ 16) : fitsOffset16 (signed16 n) = true := by
  simp only [fitsOffset16, Bool.and_eq_true, decide_eq_true_eq]
  unfold signed16
  split <;> omega

/-- What 16 bits read as is written in the same 16 bits (30_encoding.md R155). -/
theorem signed16_emod_toNat {n : Nat} (h : n < 2 ^ 16) : (signed16 n % 2 ^ 16).toNat = n := by
  unfold signed16
  split <;> omega

/-! ## The fields of an encoded word -/

/-- The fields of a word of format R are what the encoder wrote (30_encoding.md R151). -/
theorem fields_encR {opcode : Nat} (h : opcode < 256) (rd ra rb rc : Reg) (n : Nat) :
    opcodeField (encR opcode rd ra rb rc n) = opcode ∧ rdField (encR opcode rd ra rb rc n) = rd ∧
      raField (encR opcode rd ra rb rc n) = ra ∧ rbField (encR opcode rd ra rb rc n) = rb ∧
      rcField (encR opcode rd ra rb rc n) = rc ∧ imm8Field (encR opcode rd ra rb rc n) = n % 2 ^ 8 :=
  ⟨opcodeField_encR _ _ _ _ _ _ h, rdField_encR _ _ _ _ _ _ h, raField_encR _ _ _ _ _ _ h, rbField_encR _ _ _ _ _ _ h,
    rcField_encR _ _ _ _ _ _ h, imm8Field_encR _ _ _ _ _ _ h⟩

/-- The fields of a word of format M are what the encoder wrote (30_encoding.md R152). -/
theorem fields_encM {opcode : Nat} (h : opcode < 256) (rd ra : Reg) (n : Nat) :
    opcodeField (encM opcode rd ra n) = opcode ∧ rdField (encM opcode rd ra n) = rd ∧
      raField (encM opcode rd ra n) = ra ∧ imm16Field (encM opcode rd ra n) = n % 2 ^ 16 :=
  ⟨opcodeField_encM _ _ _ _ h, rdField_encM _ _ _ _ h, raField_encM _ _ _ _ h, imm16Field_encM _ _ _ _ h⟩

/-! ## The two directions -/

/-- Settles O1: the decoder finds the opcode, every operand and the zeros of the unused fields where the encoder put them, by
the format of the command; an immediate that fits is not cut. -/
theorem decodeInvertsEncode : Obligations.DecodeInvertsEncode := by
  intro i hi
  cases i
  case ld | st | ldi | fld | fst =>
    simp [encode, decode, whenZero, fields_encM, -Nat.reducePow, mod_of_fitsImm16 hi]
  case bnz =>
    simp [encode, decode, whenZero, fields_encM, -Nat.reducePow, -Int.reducePow, signed16_of_fitsOffset16 hi]
  case lshri | fft | ifft | bfft | csrr | csrw =>
    simp [encode, decode, whenZero, fields_encR, -Nat.reducePow, mod_of_fitsImm8 hi]
  case fcfg ra be => cases be <;> simp [encode, decode, whenZero, fields_encR]
  all_goals simp [encode, decode, whenZero, fields_encR]

/-- Settles O2: the word is put together again from its fields, by the format of its opcode; those its command does not use
are zero. -/
theorem encodeInvertsDecode : Obligations.EncodeInvertsDecode := by
  intro w i h
  have hR := encR_fields w
  have hM := encM_fields w
  unfold decode at h
  dsimp only at h
  split at h
  case h_38 => cases h
  all_goals
    rename_i hop
    rw [hop] at hR hM
    simp only [whenZero_eq_some, Option.some.injEq, Bool.and_eq_true, decide_eq_true_eq] at h
  -- LD, ST, FLD, FST: format M with no unused field
  case h_6 | h_7 | h_21 | h_22 =>
    subst h
    exact ⟨fitsImm16_imm16Field w, hM⟩
  case h_8 => -- LDI
    obtain ⟨hra, rfl⟩ := h
    exact ⟨fitsImm16_imm16Field w, by rwa [hra] at hM⟩
  case h_35 => -- BNZ
    obtain ⟨hrd, rfl⟩ := h
    refine ⟨fitsOffset16_signed16 (imm16Field_lt w), ?_⟩
    rwa [encode, signed16_emod_toNat (imm16Field_lt w), ← hrd]
  case h_12 => -- FCFG
    obtain ⟨⟨⟨⟨hrd, hrb⟩, hrc⟩, himm⟩, rfl⟩ := h
    have hbe : cond (imm8Field w == 1) 1 0 = imm8Field w := by
      interval_cases imm8Field w <;> rfl
    exact ⟨rfl, by simpa [encode, hrd, hrb, hrc, hbe] using hR⟩
  -- format R
  all_goals
    obtain ⟨hz, rfl⟩ := h
    exact ⟨by simp [Instr.wf, fitsImm8_imm8Field], by simpa [encode, hz] using hR⟩

/-! ## The masks, field by field (R156) -/

theorem reg_ofNat_and (a b : Nat) : (Fin.ofNat 16 (a &&& b) : Reg) = Fin.ofNat 16 a &&& Fin.ofNat 16 b := by
  apply Fin.ext
  simp only [Fin.ofNat, Fin.and_val]
  exact Nat.and_mod_two_pow (n := 4)

/-- A mask of a word masks each of its fields. -/
theorem fields_and (w m : Word) :
    opcodeField (w &&& m) = opcodeField w &&& opcodeField m ∧ rdField (w &&& m) = rdField w &&& rdField m ∧
      raField (w &&& m) = raField w &&& raField m ∧ rbField (w &&& m) = rbField w &&& rbField m ∧
      rcField (w &&& m) = rcField w &&& rcField m ∧ imm8Field (w &&& m) = imm8Field w &&& imm8Field m := by
  simp only [opcodeField, rdField, raField, rbField, rcField, imm8Field, BitVec.toNat_and, Nat.and_div_two_pow, reg_ofNat_and,
    Nat.and_mod_two_pow, and_self]

/-- The fields of a word given as a number. -/
theorem fields_ofNat (n : Nat) :
    opcodeField (BitVec.ofNat 32 n) = n % 2 ^ 32 / 2 ^ 24 ∧
      rdField (BitVec.ofNat 32 n) = Fin.ofNat 16 (n % 2 ^ 32 / 2 ^ 20) ∧
      raField (BitVec.ofNat 32 n) = Fin.ofNat 16 (n % 2 ^ 32 / 2 ^ 16) ∧
      rbField (BitVec.ofNat 32 n) = Fin.ofNat 16 (n % 2 ^ 32 / 2 ^ 12) ∧
      rcField (BitVec.ofNat 32 n) = Fin.ofNat 16 (n % 2 ^ 32 / 2 ^ 8) ∧
      imm8Field (BitVec.ofNat 32 n) = n % 2 ^ 32 % 2 ^ 8 :=
  ⟨rfl, rfl, rfl, rfl, rfl, rfl⟩

/-- Two words with the same fields are the same (30_encoding.md R151). -/
theorem eq_iff_fields : w = v ↔ opcodeField w = opcodeField v ∧ rdField w = rdField v ∧ raField w = raField v ∧
    rbField w = rbField v ∧ rcField w = rcField v ∧ imm8Field w = imm8Field v := by
  refine ⟨fun h => by simp [h], fun ⟨hop, hrd, hra, hrb, hrc, himm⟩ => ?_⟩
  rw [← encR_fields w, hop, hrd, hra, hrb, hrc, himm, encR_fields v]

/-- A word matches a row exactly when each of its fields does (30_encoding.md R156). -/
theorem matchesWord_iff : r.matchesWord w = true ↔
    opcodeField w &&& opcodeField r.mask = opcodeField r.pattern ∧ rdField w &&& rdField r.mask = rdField r.pattern ∧
      raField w &&& raField r.mask = raField r.pattern ∧ rbField w &&& rbField r.mask = rbField r.pattern ∧
      rcField w &&& rcField r.mask = rcField r.pattern ∧ imm8Field w &&& imm8Field r.mask = imm8Field r.pattern := by
  rw [OpcodeRow.matchesWord, beq_iff_eq, eq_iff_fields]
  simp only [fields_and]

theorem reg_and_zero (x : Reg) : x &&& 0 = 0 := by decide +revert

theorem reg_and_15 (x : Reg) : x &&& 15 = x := by decide +revert

theorem opcodeField_lt (w : Word) : opcodeField w < 2 ^ 8 := by
  have := w.isLt
  unfold opcodeField
  omega

theorem opcodeField_and_255 (w : Word) : opcodeField w &&& 255 = opcodeField w :=
  (Nat.and_two_pow_sub_one_eq_mod _ 8).trans (Nat.mod_eq_of_lt (opcodeField_lt w))

theorem imm8Field_and_255 (w : Word) : imm8Field w &&& 255 = imm8Field w :=
  (Nat.and_two_pow_sub_one_eq_mod _ 8).trans (Nat.mod_eq_of_lt (imm8Field_lt w))

/-- The one mask that covers a part of `imm8`: FCFG's `be` is 0 or 1. -/
theorem imm8Field_and_254 (w : Word) : imm8Field w &&& 254 = 0 ↔ imm8Field w < 2 := by
  have hlt := imm8Field_lt w
  have hhigh := @Nat.and_div_two_pow (imm8Field w) 254 1
  have hlow := @Nat.and_mod_two_pow (imm8Field w) 254 1
  rw [show 254 / 2 ^ 1 = 2 ^ 7 - 1 from rfl, Nat.and_two_pow_sub_one_eq_mod] at hhigh
  simp only [Nat.reduceMod, Nat.reducePow, Nat.and_zero] at hlow
  omega

/-! ## Which rows a word can match -/

/-- The opcode of a row's pattern, and that its mask covers the whole opcode (30_encoding.md R150, R156). -/
theorem opcodeField_of_matchesWord (hr : r ∈ opcodeMap) (h : r.matchesWord w = true) :
    opcodeField w = opcodeField r.pattern := by
  have hmask : ∀ r ∈ opcodeMap, opcodeField r.mask = 255 := by decide
  obtain ⟨hop, _⟩ := matchesWord_iff.1 h
  rwa [hmask r hr, opcodeField_and_255] at hop

/-- Settles O4: every mask covers the opcode, and no two rows have the same. -/
theorem noWordMatchesTwoRows : Obligations.NoWordMatchesTwoRows := by
  intro w r hr q hq hrw hqw
  have hnodup : (opcodeMap.map fun r => opcodeField r.pattern).Nodup := by decide
  refine List.inj_on_of_nodup_map hnodup hr hq ?_
  rw [← opcodeField_of_matchesWord hr hrw, ← opcodeField_of_matchesWord hq hqw]

/-- Of a word with the opcode of a row, the decoder's condition on the unused fields is the rest of the row's mask. -/
theorem decode_of_opcode (hr : r ∈ opcodeMap) (hop : opcodeField w = opcodeField r.pattern) :
    (decode w).map Instr.mnemonic = if r.matchesWord w then some r.mnemonic else none := by
  simp only [opcodeMap, List.mem_cons, List.not_mem_nil, or_false] at hr
  repeat' rcases hr with rfl | hr
  all_goals
    simp only [fields_ofNat, BitVec.ofNat_eq_ofNat, Nat.reducePow, Nat.reduceMod, Nat.reduceDiv] at hop
    simp [decode, hop, whenZero, Instr.mnemonic, matchesWord_iff, fields_ofNat, reg_and_zero, reg_and_15, imm8Field_and_255,
      imm8Field_and_254, and_assoc]

/-- A word whose opcode no row has is no command (30_encoding.md R157, R158). -/
theorem decode_of_unassigned (h : opcodeField w ∉ opcodeMap.map fun r => opcodeField r.pattern) : decode w = none := by
  unfold decode
  dsimp only
  split
  case h_38 => rfl
  all_goals
    rename_i hop
    rw [hop] at h
    exact absurd (by decide) h

/-- Settles O3: a word has the opcode of one row or of none; where it has that of a row, the decoder reads the row's command
exactly when the word matches it. -/
theorem decodeAgreesWithOpcodeMap : Obligations.DecodeAgreesWithOpcodeMap := by
  refine fun w => ⟨fun r hr hw => ?_, fun h => ?_⟩
  · rw [decode_of_opcode hr (opcodeField_of_matchesWord hr hw), if_pos hw]
  · by_cases hmem : opcodeField w ∈ opcodeMap.map fun r => opcodeField r.pattern
    · obtain ⟨r, hr, hop⟩ := List.mem_map.1 hmem
      have hmap := decode_of_opcode hr hop.symm
      rwa [h r hr, if_neg Bool.false_ne_true, Option.map_eq_none_iff] at hmap
    · exact decode_of_unassigned hmem

/-- Settles O5: the decoder evaluates each word. -/
theorem writtenOutWordsDecode : Obligations.WrittenOutWordsDecode := by
  unfold Obligations.WrittenOutWordsDecode
  decide

end Sys2Proof
end

section
/-! What a fetch and a decode that fault leave (30_encoding.md R157, 60_exceptions.md R603), and what a command leaves
unchanged: every register, byte and control register its operand roles do not name (30_encoding.md R160). -/

namespace Sys2Proof.Machine

open Sys2Proof.Safety

variable {s t u : State} {i : Instr} {ds : List Reg} {run : Nat × Nat} {cs : List Csr}

/-! ## The faults of fetch and decode -/

/-- Settles O7: by what the sequencer fetches; the fault entry is the fault record. -/
theorem fetchAndDecodeFaults : Obligations.FetchAndDecodeFaults :=
  fun _ hrun => ⟨fun hpc => ⟨_, step_of_past_cm hrun hpc, rfl⟩,
    fun hpc _ hw hi => ⟨_, step_of_illegal hrun hpc hw hi, rfl⟩, fun hpc hw => step_of_unwritten hrun hpc hw⟩

/-! ## Changes within bounds -/

/-- From `s` to `t` no register changes but those of `ds`, no byte but those of the run (its address and its length), and no
CSR but those of `cs`. -/
structure ChangesOnly (ds : List Reg) (run : Nat × Nat) (cs : List Csr) (s t : State) : Prop where
  regs : ∀ r, r ∉ ds → t.x r = s.x r ∧ t.written[r.val] = s.written[r.val]
  bytes : ∀ b, b < run.1 ∨ run.1 + run.2 ≤ b → t.byteAt b = s.byteAt b
  csrs : ∀ c, c ∉ cs → t.readCsr c = s.readCsr c

namespace ChangesOnly

theorem trans (h : ChangesOnly ds run cs s t) (g : ChangesOnly ds run cs t u) : ChangesOnly ds run cs s u where
  regs r hr := ⟨(g.regs r hr).1.trans (h.regs r hr).1, (g.regs r hr).2.trans (h.regs r hr).2⟩
  bytes b hb := (g.bytes b hb).trans (h.bytes b hb)
  csrs c hc := (g.csrs c hc).trans (h.csrs c hc)

/-- A change of nothing but control registers of `cs`. -/
theorem of_csrs (hregs : t.regs = s.regs) (hwritten : t.written = s.written) (hdm : t.dm = s.dm)
    (hcsrs : ∀ c, c ∉ cs → t.readCsr c = s.readCsr c) : ChangesOnly ds run cs s t where
  regs r _ := by simp [State.x, hregs, hwritten]
  bytes b _ := by simp [State.byteAt, hdm]
  csrs := hcsrs

theorem advance (h : ChangesOnly ds run cs s t) : ChangesOnly ds run cs s t.advance :=
  h.trans (of_csrs rfl rfl rfl fun _ _ => State.advance_readCsr _ _)

theorem of_branch (off : Int) : ChangesOnly ds run cs s (s.branch off) :=
  of_csrs rfl rfl rfl fun _ _ => State.branch_readCsr _ _ _

theorem refl : ChangesOnly ds run cs s s := of_csrs rfl rfl rfl fun _ _ => rfl

theorem of_setReg {rd : Reg} (hrd : rd ∈ ds) (v : Nat) : ChangesOnly ds run cs s (s.setReg rd v) where
  regs r hr := by
    have hne : r ≠ rd := fun e => hr (e ▸ hrd)
    exact ⟨State.setReg_x_ne s v hne, State.setReg_written_ne s v hne⟩
  bytes _ _ := rfl
  csrs _ _ := State.setReg_readCsr _ _ _ _

theorem of_setHalves {rd rc : Reg} (hrd : rd ∈ ds) (hrc : rc ∈ ds) (low high : Nat) :
    ChangesOnly ds run cs s (s.setHalves rd rc low high) :=
  (of_setReg hrd low).trans (of_setReg hrc high)

theorem of_setV (hcs : Csr.flags ∈ cs) (b : Bool) : ChangesOnly ds run cs s (s.setV b) :=
  of_csrs rfl rfl rfl fun _ hc => State.setV_readCsr s b fun e => hc (e ▸ hcs)

theorem of_writeCsr {v : Nat} {c : Csr} (hc : c ∈ cs) (h : s.writeCsr v c = some t) : ChangesOnly ds run cs s t := by
  have hframe : t.regs = s.regs ∧ t.written = s.written ∧ t.dm = s.dm := by
    cases c <;> cases h <;> exact ⟨rfl, rfl, rfl⟩
  obtain ⟨hregs, hwritten, hdm⟩ := hframe
  exact of_csrs hregs hwritten hdm fun k hk => State.writeCsr_readCsr h fun e => hk (e ▸ hc)

theorem of_configured (hcs : [Csr.p, .minv, .fctl] ⊆ cs) (p : Nat) (be : Bool) :
    ChangesOnly ds run cs s (configured s p be) := by
  refine of_csrs rfl rfl rfl fun c hc => ?_
  have hc : c ∉ [Csr.p, .minv, .fctl] := fun h => hc (hcs h)
  cases c <;> simp at hc <;> rfl

theorem of_halted (hcs : Csr.status ∈ cs) : ChangesOnly ds run cs s (halted s) := by
  refine of_csrs rfl rfl rfl fun c hc => ?_
  cases c
  case status => exact absurd hcs hc
  all_goals rfl

theorem of_writeBytes {a : Nat} {bs : List Byte} (hlen : bs.length = run.2) (ha : a = run.1) :
    ChangesOnly ds run cs s (s.writeBytes a bs) where
  regs _ _ := ⟨rfl, rfl⟩
  bytes _ hb := writeBytes_byteAt_outside s a bs (by rwa [ha, hlen])
  csrs _ _ := State.writeBytes_readCsr _ _ _ _

end ChangesOnly

/-! ## Every command -/

open ChangesOnly in
/-- A command that completes changes only what its operand roles name. -/
theorem Effect.changesOnly (h : Effect s t i) : ChangesOnly (dests i) (storedRun i s) (csrWrites i) s t := by
  cases i <;> simp only [Effect] at h
  case fcfg => obtain ⟨_, _, rfl⟩ := h; exact (of_configured (by simp [csrWrites]) _ _).advance
  case fld =>
    rcases h with ⟨v, rfl⟩ | rfl
    · exact ((of_setReg (by simp [dests]) v).trans (of_setV (by simp [csrWrites]) _)).advance
    · exact (of_setV (by simp [csrWrites]) _).advance
  case halt => subst h; exact of_halted (by simp [csrWrites])
  case bnz =>
    subst h
    split
    · exact of_branch _
    · exact refl.advance
  case csrw => obtain ⟨c, _, hcsr, hu, rfl⟩ := h; exact (of_writeCsr (by simp [csrWrites, hcsr]) hu).advance
  case mulw | clmul => obtain ⟨low, high, rfl⟩ := h; exact (of_setHalves (by simp [dests]) (by simp [dests]) low high).advance
  case st => obtain ⟨_, rfl⟩ := h; exact (of_writeBytes (by simp [storedRun]) rfl).advance
  case fst => obtain ⟨_, c, rfl⟩ := h; exact (of_writeBytes (by simp [storedRun]) rfl).advance
  case nofl | monofn | monofl | fft | ifft | bfft =>
    obtain ⟨_, ys, hl, rfl⟩ := h
    exact (of_writeBytes (by rw [arrayBytes_length, hl]; rfl) rfl).advance
  all_goals obtain ⟨v, rfl⟩ := h; exact (of_setReg (by simp [dests]) v).advance

/-- A command that writes no data memory has no run of bytes. -/
theorem storedRun_of_not_writesMemory (h : writesMemory i = false) : storedRun i s = (0, 0) := by
  cases i
  case st | fst | nofl | monofn | monofl | fft | ifft | bfft => cases h
  all_goals rfl

/-- Settles O21: a command that completes changes only what its roles name; a fault entry changes the fault record. -/
theorem effectsStayWithinOperandRoles : Obligations.EffectsStayWithinOperandRoles := by
  intro i s t h
  rcases exec_eq_next h with heff | ⟨c, _, rfl⟩
  · have hchg := heff.changesOnly
    refine ⟨hchg.regs, fun hmem a => hchg.bytes a (.inr ?_), fun a n hrun b hb => hchg.bytes b ?_,
      fun c hc => .inl (hchg.csrs c hc)⟩
    · simp [storedRun_of_not_writesMemory hmem]
    · rwa [hrun]
  · exact ⟨fun _ _ => ⟨rfl, rfl⟩, fun _ _ => rfl, fun _ _ _ _ _ => rfl, fun _ _ => .inr ⟨c, rfl⟩⟩

end Sys2Proof.Machine
end

section
/-! What a command does not read: another value in a register its operand roles do not name changes nothing of what it does
(30_encoding.md R160). Every command computes from its sources an update of the state, the same over both states, and every
update keeps two states apart in that register alone. -/

namespace Sys2Proof.Machine

open Sys2Proof.Safety

variable {s t u : State} {i : Instr} {r q : Reg} {v : Nat}

/-! ## Two states apart in one register -/

/-- The state `u` is `t` but for the register `r`, which holds in `u` what it holds in `t`, or `v`. -/
def SameBut (r : Reg) (v : Nat) (t u : State) : Prop :=
  ∃ regs, u = { t with regs := regs } ∧ (∀ q : Reg, q ≠ r → regs[q.val] = t.x q) ∧ (regs[r.val] = v ∨ regs[r.val] = t.x r)

namespace SameBut

/-- An update that neither reads nor writes a register. -/
theorem of_update (h : SameBut r v t u) (f : State → State) (hregs : (f t).regs = t.regs)
    (hf : ∀ regs, f { t with regs := regs } = { f t with regs := regs }) : SameBut r v (f t) (f u) := by
  obtain ⟨regs, rfl, hother, hr⟩ := h
  refine ⟨regs, hf regs, fun q hq => ?_, ?_⟩
  · rw [hother q hq, State.x, State.x, hregs]
  · rwa [State.x, hregs]

theorem advance (h : SameBut r v t u) : SameBut r v t.advance u.advance := h.of_update State.advance rfl fun _ => rfl

theorem branch (h : SameBut r v t u) (off : Int) : SameBut r v (t.branch off) (u.branch off) :=
  h.of_update (State.branch · off) rfl fun _ => rfl

theorem setV (h : SameBut r v t u) (b : Bool) : SameBut r v (t.setV b) (u.setV b) :=
  h.of_update (State.setV · b) rfl fun _ => rfl

theorem writeBytes (h : SameBut r v t u) (a : Nat) (bs : List Byte) : SameBut r v (t.writeBytes a bs) (u.writeBytes a bs) :=
  h.of_update (State.writeBytes · a bs) rfl fun _ => rfl

theorem writeArray (h : SameBut r v t u) (a : Nat) (ys : List Nat) : SameBut r v (t.writeArray a ys) (u.writeArray a ys) :=
  h.of_update (State.writeArray · a ys) rfl fun _ => rfl

theorem memWrite (h : SameBut r v t u) (a n y : Nat) : SameBut r v (t.memWrite a n y) (u.memWrite a n y) :=
  h.of_update (State.memWrite · a n y) rfl fun _ => rfl

theorem faultEntry (h : SameBut r v t u) (c : Cause) : SameBut r v (t.faultEntry c) (u.faultEntry c) :=
  h.of_update (State.faultEntry · c) rfl fun _ => rfl

theorem configured (h : SameBut r v t u) (p : Nat) (be : Bool) : SameBut r v (configured t p be) (configured u p be) :=
  h.of_update (Machine.configured · p be) rfl fun _ => rfl

theorem halted (h : SameBut r v t u) : SameBut r v (halted t) (halted u) := h.of_update Machine.halted rfl fun _ => rfl

/-- The same value written to the same register. -/
theorem setReg (h : SameBut r v t u) (rd : Reg) (y : Nat) : SameBut r v (t.setReg rd y) (u.setReg rd y) := by
  obtain ⟨regs, rfl, hother, hr⟩ := h
  have hread : ∀ q : Reg, (regs.set rd.val (y % 2 ^ t.params.regBits))[q.val] =
      if q = rd then y % 2 ^ t.params.regBits else regs[q.val] := fun q => by
    simp [Vector.getElem_set, Fin.ext_iff, eq_comm]
  refine ⟨_, rfl, fun q hq => ?_, ?_⟩
  · rw [hread, hother q hq, State.setReg_x]
  · rw [hread, State.setReg_x]
    split
    · exact .inr rfl
    · exact hr

theorem setHalves (h : SameBut r v t u) (rd rc : Reg) (low high : Nat) :
    SameBut r v (t.setHalves rd rc low high) (u.setHalves rd rc low high) :=
  (h.setReg rd low).setReg rc high

end SameBut

/-! ## Two computations that end alike -/

/-- Two computations give states apart in one register, or stop alike. -/
inductive EndsAlike (r : Reg) (v : Nat) : Comp State → Comp State → Prop where
  | ok {t u : State} (h : SameBut r v t u) : EndsAlike r v (.ok t) (.ok u)
  | error (e : Stop) : EndsAlike r v (.error e) (.error e)

/-- After the same computation, two computations that end alike. -/
theorem EndsAlike.bind {α : Type} {c : Comp α} {f g : α → Comp State} (h : ∀ a, EndsAlike r v (f a) (g a)) :
    EndsAlike r v (c >>= f) (c >>= g) := by
  match c with
  | .ok a => exact h a
  | .error e => exact .error e

theorem EndsAlike.perform {c d : Comp State} (h : EndsAlike r v c d) (hs : SameBut r v s u) (ht : perform s c = .next t) :
    ∃ w, perform u d = .next w ∧ SameBut r v t w := by
  cases h with
  | ok h => cases ht; exact ⟨_, rfl, h⟩
  | error e =>
    match e with
    | .trap c _ => cases ht; exact ⟨_, rfl, hs.faultEntry c⟩
    | .stuck _ => cases ht

/-! ## Another value in a register -/

/-- The state with another value in one register. -/
def State.poke (s : State) (r : Reg) (v : Nat) : State := { s with regs := s.regs.set r.val v }

theorem sameBut_poke (s : State) (r : Reg) (v : Nat) : SameBut r v s (s.poke r v) :=
  ⟨_, rfl, fun _ hq => Vector.getElem_set_ne _ _ fun e => hq (Fin.ext e.symm), .inl (Vector.getElem_set_self r.isLt)⟩

/-! What does not read a register is the same over both states. -/

theorem State.poke_x (hq : q ≠ r) : (s.poke r v).x q = s.x q :=
  Vector.getElem_set_ne r.isLt q.isLt fun e => hq (Fin.ext e.symm)

@[simp] theorem State.poke_params : (s.poke r v).params = s.params := rfl
@[simp] theorem State.poke_be : (s.poke r v).be = s.be := rfl
@[simp] theorem State.poke_p : (s.poke r v).p = s.p := rfl
@[simp] theorem State.poke_nnode : (s.poke r v).nnode = s.nnode := rfl
@[simp] theorem State.poke_xbase : (s.poke r v).xbase = s.xbase := rfl
@[simp] theorem State.poke_arrayBytes : (s.poke r v).arrayBytes = s.arrayBytes := rfl
@[simp] theorem State.poke_checkConfigured : (s.poke r v).checkConfigured = s.checkConfigured := rfl
@[simp] theorem State.poke_checkRange (a n : Nat) : (s.poke r v).checkRange a n = s.checkRange a n := rfl
@[simp] theorem State.poke_checkP (a : Nat) : (s.poke r v).checkP a = s.checkP a := rfl
@[simp] theorem State.poke_shiftRight (a n : Nat) : (s.poke r v).shiftRight a n = s.shiftRight a n := rfl
@[simp] theorem State.poke_selectField : (s.poke r v).selectField = s.selectField := rfl
@[simp] theorem State.poke_readCsr (c : Csr) : (s.poke r v).readCsr c = s.readCsr c := by cases c <;> rfl

@[simp] theorem State.poke_readBytes (a n : Nat) : (s.poke r v).readBytes a n = s.readBytes a n :=
  readBytes_congr fun _ _ _ => rfl

@[simp] theorem State.poke_memRead (a n : Nat) : (s.poke r v).memRead a n = s.memRead a n := by simp [State.memRead]

@[simp] theorem State.poke_readArray (a n : Nat) : (s.poke r v).readArray a n = s.readArray a n :=
  readArray_congr rfl fun _ _ _ => rfl

@[simp] theorem State.poke_fftCheck (l a : Nat) : (s.poke r v).fftCheck l a = s.fftCheck l a := by
  simp only [State.fftCheck, poke_readArray]
  rfl

theorem State.poke_effectiveAddress (hq : (s.poke r v).x q = s.x q) (offset : Nat) :
    (s.poke r v).effectiveAddress q offset = s.effectiveAddress q offset := by
  rw [State.effectiveAddress, hq, State.effectiveAddress]

theorem State.poke_conversionInputs {rd ra : Reg} (hrd : (s.poke r v).x rd = s.x rd) (hra : (s.poke r v).x ra = s.x ra)
    (f : FieldOps) : (s.poke r v).conversionInputs f rd ra = s.conversionInputs f rd ra := by
  simp [State.conversionInputs, hrd, hra]

/-- A CSR is written over both states, or read-only over both. -/
theorem State.poke_writeCsr (y : Nat) (c : Csr) : (s.poke r v).writeCsr y c = (s.writeCsr y c).map (State.poke · r v) := by
  cases c <;> rfl

/-! ## Every command -/

/-- The command is a computation over the state that ends alike over `s` and over `s` with another value in the register. -/
def IgnoresRegister (i : Instr) (s : State) (r : Reg) (v : Nat) : Prop :=
  ∃ c : State → Comp State, (∀ t, exec i t = perform t (c t)) ∧ EndsAlike r v (c s) (c (s.poke r v))

/-- A command that always completes is an update of the state. -/
theorem IgnoresRegister.of_update {f : State → State} (hf : ∀ t, exec i t = .next (f t))
    (h : SameBut r v (f s) (f (s.poke r v))) : IgnoresRegister i s r v :=
  ⟨fun t => .ok (f t), hf, .ok h⟩

/-- Every command ignores a register it does not read. -/
theorem exec_ignoresRegister (i : Instr) (s : State) (v : Nat) (hr : r ∉ sources i) : IgnoresRegister i s r v := by
  have hs := sameBut_poke s r v
  have hx : ∀ q ∈ sources i, (s.poke r v).x q = s.x q := fun q hq => State.poke_x (ne_of_mem_of_not_mem hq hr)
  cases i <;> simp only [sources, List.forall_mem_cons, List.not_mem_nil, false_imp_iff, implies_true, and_true] at hx
  case wmul64 | wmul32 =>
    refine .of_update (fun _ => rfl) ?_
    simp only [State.wideMultiply, hx]
    exact (hs.setReg _ _).advance
  case leq | lshr | lshri | nlt =>
    refine .of_update (fun _ => rfl) ?_
    simp only [hx, State.poke_shiftRight, State.poke_params]
    exact (hs.setReg _ _).advance
  case mulw =>
    refine .of_update (fun _ => rfl) ?_
    simp only [hx]
    exact (hs.setHalves _ _ _ _).advance
  case ldi => exact .of_update (fun _ => rfl) (hs.setReg _ _).advance
  case halt => exact .of_update (fun _ => rfl) hs.halted
  case bnz =>
    refine .of_update (fun _ => rfl) ?_
    simp only [hx]
    split
    · exact hs.branch _
    · exact hs.advance
  -- The others can stop: what they compute over the two states is the same, and then the same update follows.
  all_goals
    refine ⟨_, fun _ => rfl, ?_⟩
    simp only [hx, State.primeBinary, State.poke_params, State.poke_be, State.poke_p, State.poke_nnode, State.poke_xbase,
      State.poke_arrayBytes, State.poke_effectiveAddress, State.poke_checkConfigured, State.poke_checkRange,
      State.poke_checkP, State.poke_selectField, State.poke_readBytes, State.poke_memRead, State.poke_readArray,
      State.poke_conversionInputs, State.poke_fftCheck, State.poke_readCsr, State.poke_writeCsr]
  case csrr =>
    split
    · exact .error _
    · exact .ok (hs.setReg _ _).advance
  case csrw =>
    split
    · exact .error _
    · cases s.writeCsr _ _ with
      | none => exact .error _
      | some w => exact .ok (sameBut_poke w r v).advance
  case fld =>
    refine .bind fun _ => .bind fun _ => .bind fun bs => ?_
    by_cases hvalid : bytesValue s.be bs < s.p
    · simp only [hvalid, if_true]
      exact .ok ((hs.setReg _ _).setV _).advance
    · simp only [hvalid, if_false]
      exact .ok (hs.setV _).advance
  case st => exact .bind fun _ => .ok (hs.memWrite _ _ _).advance
  case fst => exact .bind fun _ => .bind fun _ => .bind fun _ => .ok (hs.writeBytes _ _).advance
  case fcfg => exact .bind fun _ => .ok (hs.configured _ _).advance
  case clmul => exact .bind fun _ => .bind fun _ => .ok (hs.setHalves _ _ _ _).advance
  case nbit | invw | fred | ftom => exact .bind fun _ => .ok (hs.setReg _ _).advance
  case ld | ffromm | gadd | gmul => exact .bind fun _ => .bind fun _ => .ok (hs.setReg _ _).advance
  case fadd | fsub | fmul | feq => exact .bind fun _ => .bind fun _ => .bind fun _ => .ok (hs.setReg _ _).advance
  case evalm =>
    exact .bind fun _ => .bind fun _ => .bind fun _ => .bind fun _ => .bind fun _ => .ok (hs.setReg _ _).advance
  case evaln =>
    exact .bind fun _ => .bind fun _ => .bind fun _ => .bind fun _ => .bind fun _ => .bind fun _ => .bind fun _ =>
      .bind fun _ => .ok (hs.setReg _ _).advance
  case monofn | fft => exact .bind fun _ => .bind fun _ => .ok (hs.writeArray _ _).advance
  case nofl | monofl | ifft | bfft =>
    exact .bind fun _ => .bind fun _ => .bind fun _ => .bind fun _ => .ok (hs.writeArray _ _).advance

/-- Settles O23: the command ends alike over both states, so its outcomes are apart in the register alone. -/
theorem otherRegistersDoNotMatter : Obligations.OtherRegistersDoNotMatter := by
  intro i s t r v hr ht
  obtain ⟨c, hc, halike⟩ := exec_ignoresRegister i s v hr
  obtain ⟨u, hu, regs, rfl, hother, hself⟩ := halike.perform (sameBut_poke s r v) (hc s ▸ ht)
  exact ⟨_, (hc (s.poke r v)).trans hu, rfl, hother, hself⟩

end Sys2Proof.Machine
end

section
/-! The wide multiply-accumulate: its word with a nonzero `imm8` is no command, and its double-width result is exact and fits
every register (41_wide_multiply.md R200 to R202). -/

namespace Sys2Proof.Machine

open Sys2Proof.Safety

/-! ## The words -/

/-- A WMUL64 word is a command exactly when its `imm8` is zero (30_encoding.md R158). -/
theorem decode_encR_wmul64 (rd ra rb rc : Reg) (n : Nat) :
    decode (encR 0x10 rd ra rb rc n) = whenZero (n % 2 ^ 8 = 0) (.wmul64 rd ra rb rc) := by
  simp [decode, fields_encR]

@[inherit_doc decode_encR_wmul64] theorem decode_encR_wmul32 (rd ra rb rc : Reg) (n : Nat) :
    decode (encR 0x11 rd ra rb rc n) = whenZero (n % 2 ^ 8 = 0) (.wmul32 rd ra rb rc) := by
  simp [decode, fields_encR]

/-- An `imm8` that fits its field and is not zero leaves no command. -/
theorem whenZero_imm8_eq_none {n : Nat} (hpos : 0 < n) (hn : n < 256) (i : Instr) : whenZero (n % 2 ^ 8 = 0) i = none := by
  have hne : n % 2 ^ 8 ≠ 0 := (Nat.mod_eq_of_lt hn).trans_ne hpos.ne'
  rw [decide_eq_false hne]
  rfl

/-! ## The result -/

/-- The two words of the product, put together, are the product (R200). -/
theorem concat_mulhl (w c a b : Nat) : concat (mulhl w c a b).2 (mulhl w c a b).1 w = a * b + c :=
  Nat.div_add_mod' _ _

/-- The command writes the exact value of the low words (R201, R202). -/
theorem State.wideMultiply_eq (s : State) (w : Nat) (rd ra rb rc : Reg) : s.wideMultiply w rd ra rb rc =
    (s.setReg rd ((s.x ra % 2 ^ w) * (s.x rb % 2 ^ w) + s.x rc % 2 ^ w)).advance := by
  simp only [State.wideMultiply, concat_mulhl, lowBits]

/-- A product of two words with a word added fits two words (R201, R202). -/
theorem mul_add_lt_two_words {w a b c : Nat} (ha : a < 2 ^ w) (hb : b < 2 ^ w) (hc : c < 2 ^ w) :
    a * b + c < 2 ^ (2 * w) :=
  calc a * b + c < a * 2 ^ w + 2 ^ w := Nat.add_lt_add_of_le_of_lt (Nat.mul_le_mul_left a hb.le) hc
    _ = (a + 1) * 2 ^ w := (Nat.succ_mul _ _).symm
    _ ≤ 2 ^ w * 2 ^ w := Nat.mul_le_mul_right _ ha
    _ = 2 ^ (2 * w) := by rw [← pow_add, ← two_mul]

/-- The wide multiply-accumulate of words of which a register holds two: the exact value, and no other change. -/
theorem registerResult_wideMultiply {s : State} {w : Nat} (rd ra rb rc : Reg) (hw : 2 * w ≤ s.params.regBits) :
    RegisterResult s (s.wideMultiply w rd ra rb rc) rd ((s.x ra % 2 ^ w) * (s.x rb % 2 ^ w) + s.x rc % 2 ^ w) := by
  have hlow : ∀ v, v % 2 ^ w < 2 ^ w := fun v => Nat.mod_lt v (Nat.two_pow_pos w)
  have hfits : s.x ra % 2 ^ w * (s.x rb % 2 ^ w) + s.x rc % 2 ^ w < 2 ^ s.params.regBits :=
    (mul_add_lt_two_words (hlow _) (hlow _) (hlow _)).trans_le (Nat.pow_le_pow_right two_pos hw)
  exact State.wideMultiply_eq .. ▸ registerResult_setReg s rd hfits

/-- Settles O24: the words by their `imm8`; the result because two words of 64 bits fit a register of two limbs or more. -/
theorem wideMultiplyIsExact : Obligations.WideMultiplyIsExact := by
  intro rd ra rb rc
  refine ⟨decodeInvertsEncode (.wmul64 rd ra rb rc) rfl, decodeInvertsEncode (.wmul32 rd ra rb rc) rfl, ?_, ?_⟩
  · intro n hpos hn
    rw [decode_encR_wmul64, decode_encR_wmul32]
    exact ⟨whenZero_imm8_eq_none hpos hn _, whenZero_imm8_eq_none hpos hn _⟩
  · intro s hlimbs
    have hbits : 2 * 64 ≤ s.params.regBits := by unfold Params.regBits; omega
    exact ⟨⟨_, rfl, registerResult_wideMultiply rd ra rb rc hbits⟩,
      ⟨_, rfl, registerResult_wideMultiply rd ra rb rc (by omega)⟩⟩

end Sys2Proof.Machine
end

section
/-! What the limb commands and the comparison of Naturals compute: two registers by their limbs, the shifts, and the load and
the store of one register (42_limb.md, 43_natural.md R301). -/

namespace Sys2Proof.Machine

open Sys2Proof.Safety

variable {s : State} {a b n v : Nat}

/-! ## A register by its limbs -/

/-- One limb more of a value. -/
theorem mod_two_pow_limb_succ (v k : Nat) : v % 2 ^ (64 * (k + 1)) = v % 2 ^ (64 * k) + 2 ^ (64 * k) * limb k v := by
  rw [limb, Nat.mul_succ, pow_add, Nat.mod_mul]

/-- Values whose low limbs are equal agree below them. -/
theorem mod_two_pow_eq_of_limbs (h : ∀ k, k < n → limb k a = limb k b) : a % 2 ^ (64 * n) = b % 2 ^ (64 * n) := by
  induction n with
  | zero => simp [Nat.mod_one]
  | succ n ih => rw [mod_two_pow_limb_succ, mod_two_pow_limb_succ, ih fun k hk => h k (by omega), h n n.lt_succ_self]

/-- Registers are equal exactly when every limb is (42_limb.md R251). -/
theorem eq_iff_limbs (ha : a < 2 ^ (64 * n)) (hb : b < 2 ^ (64 * n)) : a = b ↔ ∀ k, k < n → limb k a = limb k b := by
  refine ⟨fun h _ _ => h ▸ rfl, fun h => ?_⟩
  rw [← Nat.mod_eq_of_lt ha, ← Nat.mod_eq_of_lt hb, mod_two_pow_eq_of_limbs h]

/-- Where the high parts differ they decide, whatever the low parts are. -/
theorem add_mul_lt_iff_of_ne {m x y h g : Nat} (hx : x < m) (hy : y < m) (hne : h ≠ g) :
    x + m * h < y + m * g ↔ h < g := by
  have hdiv : ∀ {x h : Nat}, x < m → (x + m * h) / m = h := fun {x h} hx => by
    rw [Nat.add_mul_div_left _ _ (by omega), Nat.div_eq_of_lt hx, Nat.zero_add]
  refine ⟨fun hxy => lt_of_le_of_ne ?_ hne, fun hhg => Nat.lt_of_div_lt_div (c := m) ?_⟩
  · simpa only [hdiv hx, hdiv hy] using Nat.div_le_div_right (c := m) hxy.le
  · rwa [hdiv hx, hdiv hy]

/-- The comparison from limb `k` down decides the order of the values below limb `k + 1` (43_natural.md R301). -/
theorem limbLess_eq_decide (a b k : Nat) : limbLess a b k = decide (a % 2 ^ (64 * (k + 1)) < b % 2 ^ (64 * (k + 1))) := by
  induction k with
  | zero => simp [limbLess, limb]
  | succ k ih =>
    have hlow : ∀ v, v % 2 ^ (64 * (k + 1)) < 2 ^ (64 * (k + 1)) := fun v => Nat.mod_lt v (Nat.two_pow_pos _)
    simp only [limbLess, mod_two_pow_limb_succ _ (k + 1)]
    split
    next heq => simp only [ih, heq, Nat.add_lt_add_iff_right]
    next hne => simp only [add_mul_lt_iff_of_ne (hlow a) (hlow b) hne]

/-- From the highest limb down it decides the order of two registers. -/
theorem limbLess_registers (hn : 0 < n) (ha : a < 2 ^ (64 * n)) (hb : b < 2 ^ (64 * n)) :
    limbLess a b (n - 1) = decide (a < b) := by
  rw [limbLess_eq_decide, Nat.sub_add_cancel hn, Nat.mod_eq_of_lt ha, Nat.mod_eq_of_lt hb]

/-! ## Comparisons -/

/-- A register of two limbs holds every value of 64 bits. -/
theorem lt_two_pow_regBits (hlimbs : 2 ≤ s.params.limbs) (hv : v < 2 ^ 64) : v < 2 ^ s.params.regBits :=
  hv.trans_le (Nat.pow_le_pow_right two_pos (by unfold Params.regBits; omega))

/-- The result of a comparison fits every register (10_state.md R56). -/
theorem registerResult_ofBool (hlimbs : 2 ≤ s.params.limbs) (rd : Reg) (c : Bool) :
    RegisterResult s (s.setReg rd (ofBool c)).advance rd (ofBool c) :=
  registerResult_setReg s rd (lt_two_pow_regBits hlimbs (by cases c <;> decide))

theorem ofBool_decide (p : Prop) [Decidable p] : ofBool (decide p) = if p then 1 else 0 := by
  by_cases h : p <;> simp [ofBool, h]

/-- Settles O25: LEQ compares the values, which are equal exactly when their limbs are; NLT compares limb by limb, which decides
the order of the values. -/
theorem comparisonsDecide : Obligations.ComparisonsDecide := by
  intro rd ra rb
  refine ⟨decodeInvertsEncode (.leq rd ra rb) rfl, decodeInvertsEncode (.nlt rd ra rb) rfl, fun s hlimbs ha hb => ⟨?_, ?_⟩⟩
  · have hleq := registerResult_ofBool hlimbs rd (s.x ra == s.x rb)
    have hlimb := eq_iff_limbs ha hb
    refine ⟨_, rfl, fun hall => ?_, fun ⟨k, hk, hne⟩ => ?_⟩
    · rwa [beq_iff_eq.2 (hlimb.2 hall)] at hleq ⊢
    · rwa [beq_eq_false_iff_ne.2 fun heq => hne (hlimb.1 heq k hk)] at hleq ⊢
  · have hnlt := registerResult_ofBool hlimbs rd (limbLess (s.x ra) (s.x rb) (s.params.limbs - 1))
    refine ⟨_, rfl, ?_⟩
    rwa [limbLess_registers (by omega) ha hb, ofBool_decide] at hnlt ⊢

/-! ## Shifts -/

/-- The logical right shift divides, and gives 0 from `RW` on (42_limb.md R252). -/
theorem State.shiftRight_eq (s : State) (v n : Nat) :
    s.shiftRight v n = if s.params.regBits ≤ n then 0 else v / 2 ^ n := by
  rw [State.shiftRight, Nat.shiftRight_eq_div_pow]

/-- A shifted register, written to a register. -/
theorem registerResult_shiftRight (hv : v < 2 ^ s.params.regBits) (rd : Reg) (n : Nat) :
    RegisterResult s (s.setReg rd (s.shiftRight v n)).advance rd (if s.params.regBits ≤ n then 0 else v / 2 ^ n) := by
  rw [State.shiftRight_eq]
  refine registerResult_setReg s rd ?_
  split
  · exact Nat.two_pow_pos _
  · exact (Nat.div_le_self _ _).trans_lt hv

/-- Settles O26: both commands write the shifted register, which fits as the register did. -/
theorem shiftsAreLogical : Obligations.ShiftsAreLogical :=
  fun rd ra rb => ⟨decodeInvertsEncode (.lshr rd ra rb) rfl,
    fun n hn => decodeInvertsEncode (.lshri rd ra n) (decide_eq_true hn),
    fun s hv => ⟨⟨_, rfl, registerResult_shiftRight hv rd (s.x rb)⟩,
      fun n => ⟨_, rfl, registerResult_shiftRight hv rd n⟩⟩⟩

/-! ## Load and store -/

/-- A command that first checks a range past the end of data memory raises E_ADDR and does nothing else (00_scope.md R15). -/
theorem raises_addr_of_past_dm (h : s.params.dmSize < a + n) (f : Unit → Comp State) :
    Raises s (perform s (s.checkRange a n >>= f)) .addr := by
  have hcheck : s.checkRange a n = .error (.trap .addr a) := checkRange_eq_error.2 ⟨h, rfl⟩
  rw [hcheck]
  exact ⟨_, rfl, rfl⟩

/-- A load whose bytes lie in data memory writes the number they hold (42_limb.md R255). -/
theorem exec_ld_of_fits {rd ra : Reg} {off : Nat} (fits : s.x ra + off + s.params.elemBytes ≤ s.params.dmSize)
    (hread : s.memRead (s.x ra + off) s.params.elemBytes = .ok v) :
    exec (.ld rd ra off) s = .next (s.setReg rd v).advance := by
  simp only [exec, execLd, State.effectiveAddress, checkRange_ok fits, hread, comp_ok_bind, perform_ok]

/-- A store whose bytes lie in data memory writes them (42_limb.md R256). -/
theorem exec_st_of_fits {rs ra : Reg} {off : Nat} (fits : s.x ra + off + s.params.elemBytes ≤ s.params.dmSize) :
    exec (.st rs ra off) s = .next (s.memWrite (s.x ra + off) s.params.elemBytes (s.x rs)).advance := by
  simp only [exec, execSt, State.effectiveAddress, checkRange_ok fits, comp_ok_bind, perform_ok]

/-- The bytes just written hold the number. -/
theorem holdsAt_memWrite (s : State) (a n v : Nat) : HoldsAt (s.memWrite a n v) false a n v := by
  rw [holdsAt_iff]
  simpa [State.memWrite, valueBytes] using readBytes_writeBytes s a (leBytes n v)

/-- A write of data memory and the next command: no other byte and nothing else changes. -/
theorem onlyMemory_memWrite (s : State) (a n v : Nat) : OnlyMemory s (s.memWrite a n v).advance a n :=
  ⟨rfl, fun _ hb => writeBytes_byteAt_outside s a _ (by rwa [leBytes_length])⟩

/-- Settles O27: the range is checked first; a number that fits a register is what the bytes that hold it read as. -/
theorem loadReadsALimb : Obligations.LoadReadsALimb := by
  intro rd ra off
  refine ⟨fun hoff => decodeInvertsEncode (.ld rd ra off) (decide_eq_true hoff), fun s =>
    ⟨fun h => raises_addr_of_past_dm h _, fun v fits hv hheld => ?_⟩⟩
  have hbits : s.params.regBits = 8 * s.params.elemBytes := Nat.mul_assoc 8 8 _
  have hread := memRead_eq_ok_iff_holdsAt.2 ⟨hbits ▸ hv, hheld⟩
  exact ⟨_, exec_ld_of_fits fits hread, registerResult_setReg s rd hv⟩

/-- Settles O28: the range is checked first; the bytes written hold the register. -/
theorem storeWritesALimb : Obligations.StoreWritesALimb :=
  fun rs ra off => ⟨fun hoff => decodeInvertsEncode (.st rs ra off) (decide_eq_true hoff), fun s =>
    ⟨fun h => raises_addr_of_past_dm h _, fun fits =>
      ⟨_, exec_st_of_fits fits, holdsAt_memWrite s _ _ _, rfl, onlyMemory_memWrite s _ _ _⟩⟩⟩

/-! ## Load immediate -/

/-- A LDI word is a command exactly when its `ra` is zero (30_encoding.md R158). -/
theorem decode_encM_ldi (rd ra : Reg) (n : Nat) : decode (encM 0x2A rd ra n) = whenZero (ra = 0) (.ldi rd (n % 2 ^ 16)) := by
  simp [decode, fields_encM]

/-- Settles O29: the word by its `ra`; the constant because 16 bits fit every register. -/
theorem loadImmediateZeroExtends : Obligations.LoadImmediateZeroExtends := by
  intro rd n hn
  refine ⟨decodeInvertsEncode (.ldi rd n) (decide_eq_true hn), fun ra hra => ?_, fun s hlimbs =>
    ⟨_, rfl, registerResult_setReg s rd (lt_two_pow_regBits hlimbs (by omega))⟩⟩
  rw [decode_encM_ldi, decide_eq_false hra]
  rfl

end Sys2Proof.Machine
end

section
/-! What NBIT and INVW compute: one bit of a register, and the inverse of an odd word modulo `2^64`; each first makes its one
check (43_natural.md R302 to R305). -/

namespace Sys2Proof.Machine

open Sys2Proof.Safety

variable {s : State}

/-! ## A command with one check -/

section Required

variable {p : Prop} [Decidable p] {c : Cause} {info : Nat}

/-- A command whose first check fails raises the cause of the check and does nothing else (00_scope.md R15). -/
theorem raises_of_not_required (h : ¬p) (f : Unit → Comp State) : Raises s (perform s (require p c info >>= f)) c := by
  rw [decide_eq_false h, require_false]
  exact ⟨_, rfl, rfl⟩

/-- A command whose first check holds goes on after it. -/
theorem perform_of_required (h : p) (f : Unit → Comp State) : perform s (require p c info >>= f) = perform s (f ()) := by
  rw [decide_eq_true h, require_true, comp_ok_bind]

end Required

/-! ## One bit -/

/-- Bit `i` of a value as 0 or 1 (43_natural.md R302). -/
theorem bitOf_eq_ite_testBit (v i : Nat) : bitOf v i = if v.testBit i then 1 else 0 := by
  rw [bitOf, ← Nat.toNat_testBit]
  cases v.testBit i <;> rfl

/-- One bit fits every register of one bit or more. -/
theorem bitOf_lt_two_pow {n : Nat} (hn : 0 < n) (v i : Nat) : bitOf v i < 2 ^ n :=
  (Nat.mod_lt _ two_pos).trans_le (Nat.le_self_pow hn.ne' 2)

/-- NBIT of an index inside the register writes the bit (43_natural.md R302). -/
theorem exec_nbit_of_lt {rd ra rb : Reg} (h : s.x rb < s.params.regBits) :
    exec (.nbit rd ra rb) s = .next (s.setReg rd (bitOf (s.x ra) (s.x rb))).advance :=
  perform_of_required h _

/-- Settles O30: the index is checked first; a register that has the bit has room for its value. -/
theorem bitExtraction : Obligations.BitExtraction :=
  fun rd ra rb => ⟨decodeInvertsEncode (.nbit rd ra rb) rfl, fun s =>
    ⟨fun h => raises_of_not_required h.not_gt _, fun h => ⟨_, exec_nbit_of_lt h,
      bitOf_eq_ite_testBit (s.x ra) (s.x rb) ▸ registerResult_setReg s rd (bitOf_lt_two_pow (Nat.zero_lt_of_lt h) _ _)⟩⟩⟩

/-! ## The inverse modulo the word -/

/-- Bit 0 is the parity, by which INVW tells odd from even (43_natural.md R304). -/
theorem bitOf_zero (v : Nat) : bitOf v 0 = v % 2 := by
  rw [bitOf, pow_zero, Nat.div_one]

/-- The computed inverse of an odd limb is its inverse modulo `2^64` (43_natural.md R303). -/
theorem limb_mul_invModB {k v : Nat} (hodd : limb k v % 2 = 1) :
    limb k v * (invModB (BitVec.ofNat 64 (limb k v))).toNat % 2 ^ 64 = 1 := by
  have hword : (BitVec.ofNat 64 (limb k v)).toNat = limb k v := Nat.mod_mod _ _
  simpa only [hword] using invModB_spec (BitVec.ofNat 64 (limb k v)) (by rwa [hword])

/-- INVW of an odd limb 0 writes the computed inverse (43_natural.md R304). -/
theorem exec_invw_of_odd {rd ra : Reg} (h : limb 0 (s.x ra) % 2 = 1) :
    exec (.invw rd ra) s = .next (s.setReg rd (invModB (BitVec.ofNat 64 (limb 0 (s.x ra)))).toNat).advance :=
  perform_of_required (bitOf_zero _ ▸ h) _

/-- INVW of an even limb 0 raises E_EVEN (43_natural.md R304). -/
theorem raises_even_of_even {rd ra : Reg} (h : limb 0 (s.x ra) % 2 = 0) : Raises s (exec (.invw rd ra) s) .even :=
  raises_of_not_required (by rw [bitOf_zero, h]; exact Nat.zero_ne_one) _

/-- Settles O31: the parity is checked first; of an odd word the Newton-Hensel steps give the inverse, which fits as a word. -/
theorem inverseModuloTheWord : Obligations.InverseModuloTheWord :=
  fun rd ra => ⟨decodeInvertsEncode (.invw rd ra) rfl, fun s => ⟨raises_even_of_even, fun hlimbs hodd =>
    ⟨_, _, exec_invw_of_odd hodd, BitVec.isLt _, limb_mul_invModB hodd,
      registerResult_setReg s rd (lt_two_pow_regBits hlimbs (BitVec.isLt _))⟩⟩⟩

end Sys2Proof.Machine
end

section
/-! The prime-field commands on registers: the checks every one begins with, FCFG, MULW, and the Montgomery arithmetic by the
equations of its results (44_prime_field.md R360 to R368). -/

namespace Sys2Proof.Machine

open Sys2Proof.Safety Sys2Proof.Claims

variable {s : State} {rd ra rb rc : Reg} {a b v p : Nat} {α : Type}

/-! ## The checks -/

theorem checkConfigured_ok (h : s.fvalid = true) : s.checkConfigured = .ok () := by
  rw [State.checkConfigured, h, require_true]

theorem checkConfigured_error (h : s.fvalid = false) : s.checkConfigured = .error (.trap .config 0) := by
  rw [State.checkConfigured, h, require_false]

theorem checkP_ok (h : a < s.p) : s.checkP a = .ok () := by
  rw [State.checkP, decide_eq_true h, require_true]

/-- A command without a field raises E_CONFIG and does nothing else (R358). -/
theorem raises_config_of_no_field (h : s.fvalid = false) (f : Unit → Comp State) :
    Raises s (perform s (s.checkConfigured >>= f)) .config := by
  rw [checkConfigured_error h]
  exact ⟨_, rfl, rfl⟩

/-- A command whose next operand is no element raises E_DOMAIN and does nothing else (R357). -/
theorem raises_domain_of_le (h : s.p ≤ a) (f : Unit → Comp State) : Raises s (perform s (s.checkP a >>= f)) .domain :=
  raises_of_not_required h.not_gt f

/-- A part that passes leaves the raise to the parts after it. -/
theorem raises_after {x : α} {r : Comp α} {c : Cause} {f : α → Comp State} (hr : r = .ok x)
    (h : Raises s (perform s (f x)) c) : Raises s (perform s (r >>= f)) c := by
  rwa [hr, comp_ok_bind]

/-! ## Commands of two elements -/

section Binary

variable {op : Nat → Nat → Nat}

/-- Either operand outside the field raises E_DOMAIN (R363 to R365, R368). -/
theorem raises_domain_primeBinary (hvalid : s.fvalid = true) (h : s.p ≤ s.x ra ∨ s.p ≤ s.x rb) :
    Raises s (perform s (s.primeBinary rd ra rb op)) .domain := by
  refine raises_after (checkConfigured_ok hvalid) ?_
  rcases le_or_gt s.p (s.x ra) with hle | hlt
  · exact raises_domain_of_le hle _
  · exact raises_after (checkP_ok hlt) (raises_domain_of_le (h.resolve_left hlt.not_ge) _)

/-- On two elements the command writes its result. -/
theorem perform_primeBinary (hvalid : s.fvalid = true) (ha : s.x ra < s.p) (hb : s.x rb < s.p) :
    perform s (s.primeBinary rd ra rb op) = .next (s.setReg rd (op (s.x ra) (s.x rb))).advance := by
  simp only [State.primeBinary, checkConfigured_ok hvalid, checkP_ok ha, checkP_ok hb, comp_ok_bind, perform_ok]

end Binary

/-- An element of a configured field fits every register. -/
theorem registerResult_element (hready : FieldReady s) (rd : Reg) (hv : v < s.p) :
    RegisterResult s (s.setReg rd v).advance rd v := by
  obtain ⟨_, _, _, hp⟩ := hready
  exact registerResult_setReg s rd (hv.trans hp)

/-! ## The functions of the field -/

/-- Adding the subtrahend to the difference gives the minuend back (R352). -/
theorem PF.sub_add_mod (hp : 0 < p) (a b : Nat) : (PF.sub p a b + b) % p = a % p :=
  (ZMod.natCast_eq_natCast_iff' _ _ p).1 (by rw [Nat.cast_add, PF.cast_sub hp, sub_add_cancel])

/-- Reduction in a configured field gives the residue that `R` takes back to its argument (R351). -/
theorem red_spec_of_ready (hready : FieldReady s) (t : Nat) : PF.red s.p s.params.regBits t < s.p ∧
    PF.red s.p s.params.regBits t * 2 ^ s.params.regBits % s.p = t % s.p := by
  obtain ⟨_, hodd, h3, _⟩ := hready
  exact PF.red_spec _ hodd h3 t

/-- The canonical value of an element is the residue that `R` takes back to the element (R354). -/
theorem dec_spec_of_ready (hready : FieldReady s) (ha : a < s.p) : PF.dec s.p s.params.regBits a < s.p ∧
    PF.dec s.p s.params.regBits a * 2 ^ s.params.regBits % s.p = a := by
  obtain ⟨hlt, hmod⟩ := red_spec_of_ready hready a
  exact ⟨hlt, hmod.trans (Nat.mod_eq_of_lt ha)⟩

/-- Elements are the same exactly when their canonical elements are (R354, R368). -/
theorem eq_iff_canonical_eq (hready : FieldReady s) (ha : a < s.p) (hb : b < s.p) :
    a = b ↔ canonical s a = canonical s b :=
  ⟨congrArg (canonical s), (represents_primeField hready).inj ha hb⟩

/-! ## Configuration -/

/-- Limb 0 has the parity of the register. -/
theorem limb_zero_mod_two (v : Nat) : limb 0 v % 2 = v % 2 := by
  rw [limb, mul_zero, pow_zero, Nat.div_one]
  omega

/-- Settles O32: parity and size are one check; the computed MINV is the inverse of the odd low limb. -/
theorem configureTheField : Obligations.ConfigureTheField := by
  refine fun ra be => ⟨Bool.cond_eq_ite be 1 0 ▸ decodeInvertsEncode (.fcfg ra be) rfl, fun s => ⟨fun h => ?_,
    fun hodd h3 => ?_⟩⟩
  · have hbad : ¬(bitOf (s.x ra) 0 = 1 ∧ 3 ≤ s.x ra) := by
      rw [bitOf_zero]
      omega
    exact raises_of_not_required hbad _
  · have hgood : bitOf (s.x ra) 0 = 1 ∧ 3 ≤ s.x ra := ⟨bitOf_zero _ ▸ hodd, h3⟩
    exact ⟨_, perform_of_required hgood _, rfl, BitVec.isLt _, limb_mul_invModB ((limb_zero_mod_two _).trans hodd), rfl, rfl,
      rfl, rfl⟩

/-! ## Addition, subtraction, multiplication, equality -/

/-- Settles O33: the sum is the definition, the difference by the equation that determines it. -/
theorem fieldAdditionAndSubtraction : Obligations.FieldAdditionAndSubtraction := by
  refine fun rd ra rb => ⟨decodeInvertsEncode (.fadd rd ra rb) rfl, decodeInvertsEncode (.fsub rd ra rb) rfl, fun s =>
    ⟨fun h => ⟨raises_config_of_no_field h _, raises_config_of_no_field h _⟩,
      fun hvalid h => ⟨raises_domain_primeBinary hvalid h, raises_domain_primeBinary hvalid h⟩, fun hready ha hb => ?_⟩⟩
  have hpos : 0 < s.p := Nat.zero_lt_of_lt ha
  have hdiff : PF.sub s.p (s.x ra) (s.x rb) < s.p := Nat.mod_lt _ hpos
  exact ⟨⟨_, perform_primeBinary hready.1 ha hb, registerResult_element hready rd (Nat.mod_lt _ hpos)⟩,
    _, _, perform_primeBinary hready.1 ha hb, hdiff, (PF.sub_add_mod hpos _ _).trans (Nat.mod_eq_of_lt ha),
    registerResult_element hready rd hdiff⟩

/-- Settles O34: the product is the Montgomery reduction of the integers' product (R353). -/
theorem montgomeryMultiplication : Obligations.MontgomeryMultiplication := by
  refine fun rd ra rb => ⟨decodeInvertsEncode (.fmul rd ra rb) rfl, fun s => ⟨fun h => raises_config_of_no_field h _,
    raises_domain_primeBinary, fun hready ha hb => ?_⟩⟩
  obtain ⟨hlt, hmod⟩ := red_spec_of_ready hready (s.x ra * s.x rb)
  exact ⟨_, _, perform_primeBinary hready.1 ha hb, hlt, hmod, registerResult_element hready rd hlt⟩

/-- Settles O38: the registers are compared, and elements stand one to one for their canonical elements. -/
theorem fieldEquality : Obligations.FieldEquality := by
  refine fun rd ra rb => ⟨decodeInvertsEncode (.feq rd ra rb) rfl, fun s => ⟨fun h => raises_config_of_no_field h _,
    raises_domain_primeBinary, fun hready ha hb => ⟨_, perform_primeBinary hready.1 ha hb, ?_,
      eq_iff_canonical_eq hready ha hb⟩⟩⟩
  have hbit : ofBool (s.x ra == s.x rb) = if s.x ra = s.x rb then 1 else 0 := ofBool_decide _
  rw [hbit]
  refine registerResult_element hready rd ?_
  obtain ⟨_, _, h3, _⟩ := hready
  split <;> omega

/-! ## The product, its reduction, and the conversions -/

/-- The high half remains in its register, as it is written second (R361). -/
theorem State.setHalves_x_high (s : State) (rd rc : Reg) (low high : Nat) :
    (s.setHalves rd rc low high).x rc = high % 2 ^ s.params.regBits :=
  State.setReg_x_self (s.setReg rd low) rc high

/-- The low half remains where the registers are two (R361). -/
theorem State.setHalves_x_low (s : State) (low high : Nat) (h : rd ≠ rc) :
    (s.setHalves rd rc low high).x rd = low % 2 ^ s.params.regBits := by
  rw [State.setHalves, State.setReg_x_ne _ _ h, State.setReg_x_self]

/-- Both halves written and the counter advanced: nothing but the two registers changes. -/
theorem onlyRegisters_setHalves (s : State) (rd rc : Reg) (low high : Nat) :
    OnlyRegisters s (s.setHalves rd rc low high).advance [rd, rc] := by
  refine ⟨rfl, fun r hr => ?_, fun _ => rfl⟩
  obtain ⟨hd, hc⟩ : r ≠ rd ∧ r ≠ rc := by simpa using hr
  exact ⟨(State.setReg_x_ne _ high hc).trans (State.setReg_x_ne s low hd),
    (State.setReg_written_ne (s.setReg rd low) high hc).trans (State.setReg_written_ne s low hd)⟩

/-- Settles O35: the product of two registers has two registers' bits, so its halves fit. -/
theorem multiLimbProduct : Obligations.MultiLimbProduct := by
  refine fun rd ra rb rc => ⟨decodeInvertsEncode (.mulw rd ra rb rc) rfl, fun s ha hb =>
    ⟨_, rfl, ?_, fun hne => ?_, rfl, onlyRegisters_setHalves s rd rc _ _⟩⟩
  · have hhigh : s.x ra * s.x rb / 2 ^ s.params.regBits < 2 ^ s.params.regBits :=
      Nat.div_lt_of_lt_mul (Nat.mul_lt_mul'' ha hb)
    exact (State.setHalves_x_high ..).trans (Nat.mod_eq_of_lt hhigh)
  · exact (State.setHalves_x_low s _ _ hne).trans (Nat.mod_mod _ _)

/-- FRED writes the reduction of the double-width value (R362). -/
theorem exec_fred_of_configured (hvalid : s.fvalid = true) : exec (.fred rd ra rb) s = .next
    (s.setReg rd (PF.red s.p s.params.regBits (s.x rb * 2 ^ s.params.regBits + s.x ra))).advance := by
  simp only [exec, execFred, checkConfigured_ok hvalid, comp_ok_bind, perform_ok, concat]

/-- Settles O36: reduction is defined on every integer. -/
theorem montgomeryReduction : Obligations.MontgomeryReduction := by
  refine fun rd ra rb => ⟨decodeInvertsEncode (.fred rd ra rb) rfl, fun s => ⟨fun h => raises_config_of_no_field h _,
    fun hready => ?_⟩⟩
  obtain ⟨hlt, hmod⟩ := red_spec_of_ready hready (s.x rb * 2 ^ s.params.regBits + s.x ra)
  exact ⟨_, _, exec_fred_of_configured hready.1, hlt, hmod, registerResult_element hready rd hlt⟩

/-- FTOM writes the Montgomery form of any integer (R366). -/
theorem exec_ftom_of_configured (hvalid : s.fvalid = true) :
    exec (.ftom rd ra) s = .next (s.setReg rd (PF.enc s.p s.params.regBits (s.x ra))).advance := by
  simp only [exec, execFtom, checkConfigured_ok hvalid, comp_ok_bind, perform_ok]

/-- FFROMM writes the canonical value of an element (R367). -/
theorem exec_ffromm_of_element (hvalid : s.fvalid = true) (ha : s.x ra < s.p) :
    exec (.ffromm rd ra) s = .next (s.setReg rd (PF.dec s.p s.params.regBits (s.x ra))).advance := by
  simp only [exec, execFfromm, checkConfigured_ok hvalid, checkP_ok ha, comp_ok_bind, perform_ok]

/-- Settles O37: the way in has no domain check; the way out is reduction of an element. -/
theorem montgomeryConversions : Obligations.MontgomeryConversions := by
  refine fun rd ra => ⟨decodeInvertsEncode (.ftom rd ra) rfl, decodeInvertsEncode (.ffromm rd ra) rfl, fun s =>
    ⟨fun h => ⟨raises_config_of_no_field h _, raises_config_of_no_field h _⟩,
      fun hvalid h => raises_after (checkConfigured_ok hvalid) (raises_domain_of_le h _), fun hready => ?_,
      fun hready ha => ?_⟩⟩
  · have hpos : 0 < s.p := (represents_primeField hready).zero_lt
    exact ⟨_, exec_ftom_of_configured hready.1, registerResult_element hready rd (Nat.mod_lt _ hpos)⟩
  · obtain ⟨hlt, hmod⟩ := dec_spec_of_ready hready ha
    exact ⟨_, _, exec_ffromm_of_element hready.1 ha, hlt, hmod, registerResult_element hready rd hlt⟩

end Sys2Proof.Machine
end

section
/-! The canonical byte buffers of field elements: FLD validates what it loads, FST writes the canonical value, in the configured
byte order (44_prime_field.md R369, R370). -/

namespace Sys2Proof.Machine

open Sys2Proof.Safety

variable {s : State} {rd rs ra : Reg} {off v : Nat}

/-! ## The load -/

/-- A buffer inside data memory that holds a number: the comparison with the modulus decides between the results (R369). -/
theorem exec_fld_of_holdsAt (hvalid : s.fvalid = true) (fits : s.x ra + off + s.params.elemBytes ≤ s.params.dmSize)
    (hv : v < 2 ^ s.params.regBits) (hheld : HoldsAt s s.be (s.x ra + off) s.params.elemBytes v) :
    exec (.fld rd ra off) s = .next (if v < s.p then
      ((s.setReg rd (PF.enc s.p s.params.regBits v)).setV false).advance else (s.setV true).advance) := by
  have hbits : s.params.regBits = 8 * s.params.elemBytes := Nat.mul_assoc 8 8 _
  have hvalue : bytesValue s.be (valueBytes s.be s.params.elemBytes v) = v := by
    rw [bytesValue_valueBytes, ← hbits, Nat.mod_eq_of_lt hv]
  simp only [exec, execFld, State.effectiveAddress, checkConfigured_ok hvalid, checkRange_ok fits, holdsAt_iff.1 hheld,
    comp_ok_bind, hvalue]
  split <;> rfl

/-- A canonical value loads its Montgomery form: a register result but for V (R369). -/
theorem exec_fld_of_canonical (hready : FieldReady s) (fits : s.x ra + off + s.params.elemBytes ≤ s.params.dmSize)
    (hlt : v < s.p) (hheld : HoldsAt s s.be (s.x ra + off) s.params.elemBytes v) :
    ∃ t, exec (.fld rd ra off) s = .next t ∧ t.v = false ∧
      RegisterResult { s with v := t.v } t rd (v * 2 ^ s.params.regBits % s.p) := by
  obtain ⟨hvalid, _, _, hp⟩ := hready
  have hform : v * 2 ^ s.params.regBits % s.p < 2 ^ s.params.regBits :=
    (Nat.mod_lt _ (Nat.zero_lt_of_lt hlt)).trans hp
  rw [exec_fld_of_holdsAt hvalid fits (hlt.trans hp) hheld, if_pos hlt]
  exact ⟨_, rfl, rfl, registerResult_setReg { s with v := false } rd hform⟩

/-- Settles O39: the checks in order; the number is the one the buffer holds, and one comparison decides between the results. -/
theorem fieldLoadValidates : Obligations.FieldLoadValidates := by
  refine fun rd ra off => ⟨fun hoff => decodeInvertsEncode (.fld rd ra off) (decide_eq_true hoff), fun s =>
    ⟨fun h => raises_config_of_no_field h _,
      fun hvalid h => raises_after (checkConfigured_ok hvalid) (raises_addr_of_past_dm h _),
      fun v hready fits hv hheld => ⟨fun hlt => exec_fld_of_canonical hready fits hlt hheld, fun hle => ?_⟩⟩⟩
  rw [exec_fld_of_holdsAt hready.1 fits hv hheld, if_neg hle.not_gt]
  rfl

/-! ## The store -/

/-- The bytes just written in a byte order hold the number in that order, also for the next command. -/
theorem holdsAt_writeBytes (s : State) (be : Bool) (a n v : Nat) :
    HoldsAt (s.writeBytes a (valueBytes be n v)).advance be a n v := by
  show HoldsAt (s.writeBytes a (valueBytes be n v)) be a n v
  rw [holdsAt_iff]
  simpa using readBytes_writeBytes s a (valueBytes be n v)

/-- FST of an element to a buffer inside data memory writes the bytes of its canonical value (R370). -/
theorem exec_fst_of_element (hvalid : s.fvalid = true) (fits : s.x ra + off + s.params.elemBytes ≤ s.params.dmSize)
    (hrs : s.x rs < s.p) : exec (.fst rs ra off) s = .next (s.writeBytes (s.x ra + off)
      (valueBytes s.be s.params.elemBytes (PF.dec s.p s.params.regBits (s.x rs)))).advance := by
  simp only [exec, execFst, State.effectiveAddress, checkConfigured_ok hvalid, checkRange_ok fits, checkP_ok hrs,
    comp_ok_bind, perform_ok]

/-- Settles O40: the checks in order; the bytes written hold the canonical value. -/
theorem fieldStoreIsCanonical : Obligations.FieldStoreIsCanonical := by
  refine fun rs ra off => ⟨fun hoff => decodeInvertsEncode (.fst rs ra off) (decide_eq_true hoff), fun s =>
    ⟨fun h => raises_config_of_no_field h _,
      fun hvalid h => raises_after (checkConfigured_ok hvalid) (raises_addr_of_past_dm h _),
      fun hvalid fits h => raises_after (checkConfigured_ok hvalid) (raises_after (checkRange_ok fits)
        (raises_domain_of_le h _)),
      fun hready fits hrs => ?_⟩⟩
  obtain ⟨hlt, hmod⟩ := dec_spec_of_ready hready hrs
  exact ⟨_, _, exec_fst_of_element hready.1 fits hrs, hlt, hmod, holdsAt_writeBytes s _ _ _ _, rfl, rfl,
    fun b hb => writeBytes_byteAt_outside s _ _ (by rwa [valueBytes_length])⟩

/-- Settles O41: the store leaves the configuration and holds the canonical value, which is valid; its Montgomery form is the
element. -/
theorem fieldStoreThenLoadRoundTrip : Obligations.FieldStoreThenLoadRoundTrip := by
  intro s t rs rd ra off hready hrs fits hexec
  obtain ⟨hlt, hmod⟩ := dec_spec_of_ready hready hrs
  rw [exec_fst_of_element hready.1 fits hrs] at hexec
  cases hexec
  have hheld := holdsAt_writeBytes s s.be (s.x ra + off) s.params.elemBytes (PF.dec s.p s.params.regBits (s.x rs))
  obtain ⟨u, hu, hv, hreg, _⟩ := exec_fld_of_canonical (s := (s.writeBytes _ _).advance) (rd := rd) hready fits hlt hheld
  exact ⟨u, hu, hreg.trans hmod, hv⟩

end Sys2Proof.Machine
end

section
/-! The binary-field commands on registers: their two domain checks, the carry-less product bit by bit, the exclusive or, and the
remainder by GF_POLY (45_binary_field.md R410 to R412). -/

namespace Sys2Proof.Machine

open Sys2Proof.Safety Sys2Proof.Claims

variable {s : State} {a b v : Nat}

/-! ## The bits of the carry-less product -/

/-- A coefficient of a number's polynomial is 1 exactly when the bit is set (R400). -/
theorem bitsPoly_coeff_eq_one_iff (n i : Nat) : (bitsPoly n).coeff i = 1 ↔ n.testBit i = true := by
  simp [bitsPoly_coeff]

/-- The product of two coefficients is the conjunction of the two bits (R401). -/
theorem bitsPoly_coeff_mul (a b i j : Nat) :
    (bitsPoly b).coeff i * (bitsPoly a).coeff j = if b.testBit i && a.testBit j then 1 else 0 := by
  rw [bitsPoly_coeff, bitsPoly_coeff, ite_zero_mul_ite_zero, one_mul]
  simp only [Bool.and_eq_true]

/-- A coefficient of the carry-less product counts, modulo 2, the pairs of set bits whose indices add up to its own (R401). -/
theorem bitsPoly_clmul_coeff (a b n : Nat) : (bitsPoly (clmul a b)).coeff n =
    ((List.range (n + 1)).countP fun i => b.testBit i && a.testBit (n - i) : Nat) := by
  calc (bitsPoly (clmul a b)).coeff n
    _ = ∑ i ∈ Finset.range (n + 1), (bitsPoly b).coeff i * (bitsPoly a).coeff (n - i) := by
      rw [bitsPoly_clmul, mul_comm, Polynomial.coeff_mul, Finset.Nat.sum_antidiagonal_eq_sum_range_succ_mk]
    _ = ∑ i ∈ Finset.range (n + 1), if b.testBit i && a.testBit (n - i) then 1 else 0 :=
      Finset.sum_congr rfl fun i _ => bitsPoly_coeff_mul a b i (n - i)
    _ = ((List.range (n + 1)).countP fun i => b.testBit i && a.testBit (n - i) : Nat) := by
      rw [Finset.sum_boole, ← Nat.count_eq_card_filter_range, Nat.count]
      simp only [Bool.decide_eq_true]

/-- Each bit of the carry-less product is the parity that R401 gives. -/
theorem testBit_clmul (a b n : Nat) : (clmul a b).testBit n = carrylessBit a b n := by
  rw [Bool.eq_iff_iff, ← bitsPoly_coeff_eq_one_iff, bitsPoly_clmul_coeff, ZMod.natCast_eq_one_iff_odd, Nat.odd_iff,
    carrylessBit, beq_iff_eq]

/-! ## The checks -/

theorem checkG_ok (h : a < 2 ^ 128) : checkG a = .ok () := by
  rw [checkG, decide_eq_true h, require_true]

/-- A command that first checks two operands raises E_DOMAIN when either is no element, and does nothing else (R406). -/
theorem raises_domain_of_two_checkG (h : 2 ^ 128 ≤ a ∨ 2 ^ 128 ≤ b) (r : Comp State) :
    Raises s (perform s (checkG a >>= fun _ => checkG b >>= fun _ => r)) .domain := by
  rcases le_or_gt (2 ^ 128) a with hle | hlt
  · exact raises_of_not_required hle.not_gt _
  · exact raises_after (checkG_ok hlt) (raises_of_not_required (h.resolve_left hlt.not_ge).not_gt _)

/-- On two elements such a command goes on after its checks. -/
theorem perform_of_two_checkG (ha : a < 2 ^ 128) (hb : b < 2 ^ 128) (r : Comp State) :
    perform s (checkG a >>= fun _ => checkG b >>= fun _ => r) = perform s r := by
  rw [checkG_ok ha, checkG_ok hb, comp_ok_bind, comp_ok_bind]

/-- An element of GF(2^128) fits every register. -/
theorem element_lt_two_pow_regBits (hlimbs : 2 ≤ s.params.limbs) (hv : v < 2 ^ 128) : v < 2 ^ s.params.regBits :=
  hv.trans_le (Nat.pow_le_pow_right two_pos (Nat.mul_le_mul_left 64 hlimbs))

/-! ## The commands -/

/-- Settles O42: the halves are bits 127..0 and 254..128 of the product, and both fit every register. -/
theorem carrylessProduct : Obligations.CarrylessProduct := by
  refine fun rd ra rb rc => ⟨decodeInvertsEncode (.clmul rd ra rb rc) rfl, fun s =>
    ⟨fun h => raises_domain_of_two_checkG h _, fun hlimbs ha hb => ⟨_, perform_of_two_checkG ha hb _, fun n => ?_,
      fun hne n => ?_, rfl, onlyRegisters_setHalves s rd rc _ _⟩⟩⟩
  · have hhigh : clmul (s.x ra) (s.x rb) / 2 ^ 128 % 2 ^ 127 < 2 ^ 128 :=
      (Nat.mod_lt _ (Nat.two_pow_pos 127)).trans (by decide)
    rw [State.advance_x, State.setHalves_x_high, Nat.mod_eq_of_lt (element_lt_two_pow_regBits hlimbs hhigh),
      Nat.testBit_mod_two_pow, Nat.testBit_div_two_pow, testBit_clmul, Nat.add_comm]
  · have hlow : clmul (s.x ra) (s.x rb) % 2 ^ 128 < 2 ^ 128 := Nat.mod_lt _ (Nat.two_pow_pos 128)
    rw [State.advance_x, State.setHalves_x_low s _ _ hne, Nat.mod_eq_of_lt (element_lt_two_pow_regBits hlimbs hlow),
      Nat.testBit_mod_two_pow, testBit_clmul]

/-- Settles O43: the exclusive or of two elements is an element. -/
theorem binaryFieldAddition : Obligations.BinaryFieldAddition :=
  fun rd ra rb => ⟨decodeInvertsEncode (.gadd rd ra rb) rfl, fun s =>
    ⟨fun h => raises_domain_of_two_checkG h _, fun hlimbs ha hb => ⟨_, _, perform_of_two_checkG ha hb _,
      registerResult_setReg s rd (element_lt_two_pow_regBits hlimbs (GF.add_lt ha hb)), Nat.testBit_xor _ _⟩⟩⟩

/-- Settles O44: reduction leaves the remainder by a polynomial of degree 128 (R402), which is an element. -/
theorem binaryFieldMultiplication : Obligations.BinaryFieldMultiplication := by
  refine fun rd ra rb => ⟨decodeInvertsEncode (.gmul rd ra rb) rfl, fun s => ⟨fun h => raises_domain_of_two_checkG h _,
    fun hlegal ha hb => ?_⟩⟩
  obtain ⟨hlimbs, _, _, hpoly⟩ := hlegal
  obtain ⟨hlt, q, hq⟩ := GF.red_spec hpoly (clmul (s.x ra) (s.x rb))
  exact ⟨_, _, q, perform_of_two_checkG ha hb _, registerResult_setReg s rd (element_lt_two_pow_regBits hlimbs hlt), hlt, hq⟩

end Sys2Proof.Machine
end

section
/-! Arrays of elements byte by byte: what an array read says of data memory, and what an array written leaves there
(46_interpolation.md R452, 20_memory.md R103). -/

namespace Sys2Proof.Machine

open Sys2Proof.Safety

variable {s : State} {a n v : Nat}

/-- A register and its stored bytes have the same bits (00_scope.md R9). -/
theorem Params.regBits_eq_elemBytes (c : Params) : c.regBits = 8 * c.elemBytes := Nat.mul_assoc 8 8 c.limbs

/-- An element is read exactly when it fits a register and its bytes lie there, little-endian. -/
theorem elemRead_eq_ok_iff_holdsAt :
    s.elemRead a = .ok v ↔ v < 2 ^ s.params.regBits ∧ HoldsAt s false a s.params.elemBytes v := by
  rw [State.elemRead, memRead_eq_ok_iff_holdsAt, Params.regBits_eq_elemBytes]

/-- An array is read exactly when element `i` lies little-endian at `a + i*ES` (R452). -/
theorem readArray_eq_ok_iff_holdsAt {es : List Nat} :
    s.readArray a n = .ok es ↔ es.length = n ∧ (∀ e ∈ es, e < 2 ^ s.params.regBits) ∧
      ∀ i, i < n → HoldsAt s false (a + i * s.params.elemBytes) s.params.elemBytes (es.getD i 0) := by
  simp only [readArray_eq_ok, elemRead_eq_ok_iff_holdsAt, List.forall_mem_iff_forall_getElem]
  constructor
  · rintro ⟨hlen, h⟩
    refine ⟨hlen, fun i hi => (h i hi).1, fun i hi => ?_⟩
    rw [List.getD_eq_getElem _ _ (hlen ▸ hi)]
    exact (h i _).2
  · rintro ⟨hlen, hfit, hheld⟩
    refine ⟨hlen, fun i hi => ⟨hfit i hi, ?_⟩⟩
    rw [← List.getD_eq_getElem _ 0 hi]
    exact hheld i (hlen ▸ hi)

/-- Bytes hold a number exactly when they hold its low bits, as many as they have. -/
theorem holdsAt_mod_iff : HoldsAt s false a n (v % 2 ^ (8 * n)) ↔ HoldsAt s false a n v := by
  have hbytes : leBytes n (v % 2 ^ (8 * n)) = leBytes n v := by
    simpa only [leBytes_length, leValue_leBytes] using leBytes_leValue (leBytes n v)
  simp only [holdsAt_iff, valueBytes, cond_false, hbytes]

/-- Element `i` of an array just written lies little-endian at `a + i*ES`, cut to `ES` bytes (R452). -/
theorem holdsAt_writeArray {ys : List Nat} {i : Nat} (hi : i < ys.length) :
    HoldsAt (s.writeArray a ys) false (a + i * s.params.elemBytes) s.params.elemBytes (ys.getD i 0) := by
  obtain ⟨_, _, hheld⟩ := readArray_eq_ok_iff_holdsAt.1 (readArray_writeArray s a ys)
  have hcut := hheld i hi
  rw [Params.regBits_eq_elemBytes, List.getD_eq_getElem _ _ (by simpa), List.getElem_map] at hcut
  rw [List.getD_eq_getElem _ _ hi]
  exact holdsAt_mod_iff.1 hcut

/-- Settles O60: an array is its elements, and what is read back of one just written is what was written. -/
theorem arraysHoldTheirElements : Obligations.ArraysHoldTheirElements :=
  fun s a => ⟨fun _ _ => readArray_eq_ok_iff_holdsAt, fun ys =>
    ⟨fun _ hi => holdsAt_writeArray hi, fun _ hb => writeArray_byteAt_outside s a ys hb⟩⟩

end Sys2Proof.Machine
end

section
/-! The checks of the interpolation commands in their order: the field, the ranges, the elements, the distinct nodes
(46_interpolation.md R451 to R453). -/

namespace Sys2Proof.Machine

open Sys2Proof.Safety Sys2Proof.Claims

variable {s : State} {f : FieldOps} {rd ra rb : Reg} {a : Nat} {nodes es : List Nat} {c : Cause} {α β : Type}

/-! ## A computation that raises -/

/-- The computation raises this cause, with whatever information (00_scope.md R16). -/
def RaisesCause (r : Comp α) (c : Cause) : Prop := ∃ info, r = .error (.trap c info)

/-- What a part raises, the sequence it begins raises. -/
theorem RaisesCause.bind {r : Comp α} (h : RaisesCause r c) (g : α → Comp β) : RaisesCause (r >>= g) c := by
  obtain ⟨info, rfl⟩ := h
  exact ⟨info, rfl⟩

/-- A part that passes leaves the raise to the parts after it. -/
theorem RaisesCause.after {r : Comp α} {x : α} (hr : r = .ok x) {g : α → Comp β} (h : RaisesCause (g x) c) :
    RaisesCause (r >>= g) c := by
  rwa [hr, comp_ok_bind]

/-- A command whose computation raises a cause takes the fault and does nothing else (60_exceptions.md R610, R611). -/
theorem RaisesCause.raises {r : Comp State} (h : RaisesCause r c) : Raises s (perform s r) c := by
  obtain ⟨info, rfl⟩ := h
  exact ⟨_, rfl, rfl⟩

theorem require_raisesCause {p : Prop} [Decidable p] {info : Nat} (h : ¬p) : RaisesCause (require p c info) c :=
  ⟨info, by rw [decide_eq_false h, require_false]⟩

theorem checkRange_raisesCause {n : Nat} (h : s.params.dmSize < a + n) : RaisesCause (s.checkRange a n) .addr :=
  require_raisesCause h.not_ge

/-! ## The selected field (R451) -/

theorem selectField_of_selected (hsel : FieldSelected s) : ∃ f, s.selectField = .ok f := by
  cases hmode : s.fmode with
  | true => exact ⟨_, selectField_eq_ok.2 (.inl ⟨hmode, rfl⟩)⟩
  | false =>
    obtain ⟨hvalid, _⟩ := hsel.resolve_left (by rw [hmode]; exact Bool.false_ne_true)
    exact ⟨_, selectField_eq_ok.2 (.inr ⟨hmode, hvalid, rfl⟩)⟩

theorem selectField_raisesCause (hmode : s.fmode = false) (hvalid : s.fvalid = false) :
    RaisesCause s.selectField .config :=
  ⟨0, by simp [State.selectField, hmode, checkConfigured_error hvalid]⟩

/-- The selected field's check is one comparison with the bound of its elements. -/
theorem selectField_check_eq (hf : s.selectField = .ok f) (a : Nat) :
    f.check a = require (a < elementBound s) .domain a := by
  rcases selectField_eq_ok.1 hf with ⟨hmode, rfl⟩ | ⟨hmode, _, rfl⟩
  · simp only [binaryField_check, checkG, elementBound, hmode, if_true]
  · simp only [primeField_check, State.checkP, elementBound, hmode, Bool.false_eq_true, if_false]

theorem selectField_check_ok (hf : s.selectField = .ok f) (h : a < elementBound s) : f.check a = .ok () := by
  rw [selectField_check_eq hf, decide_eq_true h, require_true]

theorem selectField_check_raisesCause (hf : s.selectField = .ok f) (h : elementBound s ≤ a) :
    RaisesCause (f.check a) .domain := by
  rw [selectField_check_eq hf]
  exact require_raisesCause h.not_gt

theorem forAll_check_ok (hf : s.selectField = .ok f) (h : ∀ e ∈ es, e < elementBound s) : forAll f.check es = .ok () :=
  forAll_eq_ok.2 fun e he => selectField_check_ok hf (h e he)

/-- An array with a value that is no element fails the check of its elements. -/
theorem forAll_check_raisesCause (hf : s.selectField = .ok f) (h : ∃ e ∈ es, elementBound s ≤ e) :
    RaisesCause (forAll f.check es) .domain := by
  obtain ⟨e, he, hle⟩ := h
  cases hall : forAll f.check es with
  | ok u =>
    obtain ⟨info, hraise⟩ := selectField_check_raisesCause hf hle
    rw [forAll_eq_ok.1 hall e he] at hraise
    cases hraise
  | error e =>
    obtain ⟨b, _, hb⟩ := forAll_eq_error hall
    exact ⟨b, congrArg _ (selectField_check_eq_error hf hb)⟩

/-- Two arrays, checked one after the other, of which one has a value that is no element. -/
theorem forAll_check_two_raisesCause (hf : s.selectField = .ok f) (h : ∃ e ∈ nodes ++ es, elementBound s ≤ e)
    (g : Unit → Comp β) : RaisesCause (forAll f.check nodes >>= fun _ => forAll f.check es >>= g) .domain := by
  by_cases hnodes : ∃ e ∈ nodes, elementBound s ≤ e
  · exact (forAll_check_raisesCause hf hnodes).bind _
  · have hes : ∃ e ∈ es, elementBound s ≤ e := by
      obtain ⟨e, he, hle⟩ := h
      exact ⟨e, (List.mem_append.1 he).resolve_left fun hmem => hnodes ⟨e, hmem, hle⟩, hle⟩
    refine .after (forAll_check_ok hf fun e he => ?_) ((forAll_check_raisesCause hf hes).bind g)
    exact lt_of_not_ge fun hle => hnodes ⟨e, he, hle⟩

/-! ## The distinct-node check (R453) -/

/-- The selected field inverts the difference of two nodes exactly when it is a unit modulo `p`, or, in GF(2^128), when the
nodes differ. -/
theorem selectField_inv_sub_ok_iff (hsel : FieldSelected s) (hf : s.selectField = .ok f) (x y : Nat) :
    (∃ d, f.inv (f.sub y x) = .ok d) ↔
      (s.fmode = false → IsUnit (canonical s y - canonical s x)) ∧ (s.fmode = true → y ≠ x) := by
  rcases selectField_eq_ok.1 hf with ⟨hmode, rfl⟩ | ⟨hmode, _, rfl⟩
  · rw [binaryField_inv, binaryField_sub, GF.inv_eq_ok_iff, GF.add, Ne, Nat.xor_eq_zero_iff]
    simp [hmode]
  · have hready : FieldReady s := hsel.resolve_left (by simp [hmode])
    rw [primeField_inv, PF.inv_eq_ok_iff, (represents_primeField hready).sub]
    simp [hmode, canonical]

/-- The distinct-node check passes exactly when every difference of two nodes has an inverse. -/
theorem checkDistinct_eq_ok_iff_nodesDiffer (hsel : FieldSelected s) (hf : s.selectField = .ok f) :
    f.checkDistinct nodes = .ok () ↔ NodesDiffer s nodes := by
  rw [checkDistinct_eq_ok, List.pairwise_iff_getElem]
  simp only [selectField_inv_sub_ok_iff hsel hf]
  constructor
  · intro h i j hji hi
    rw [List.getD_eq_getElem _ _ hi, List.getD_eq_getElem _ _ (hji.trans hi)]
    exact h j i _ hi hji
  · intro h j i hj hi hji
    rw [← List.getD_eq_getElem _ 0 hi, ← List.getD_eq_getElem _ 0 hj]
    exact h i j hji hi

/-- Where the distinct-node check does not pass, it raises E_DIVZERO. -/
theorem checkDistinct_raisesCause (hf : s.selectField = .ok f) (h : f.checkDistinct nodes ≠ .ok ()) :
    RaisesCause (f.checkDistinct nodes) .divzero := by
  cases hcheck : f.checkDistinct nodes with
  | ok u => exact absurd hcheck h
  | error e =>
    obtain ⟨_, _, _, _, hinv⟩ := checkDistinct_eq_error hcheck
    obtain ⟨info, rfl⟩ := selectField_inv_eq_error hf hinv
    exact ⟨info, rfl⟩

/-! ## The inputs of a conversion (R452) -/

/-- Any of the three ranges past the end of data memory raises E_ADDR. -/
theorem conversionInputs_raises_addr (h : s.params.dmSize < s.x ra + s.arrayBytes ∨
    s.params.dmSize < s.xbase + s.arrayBytes ∨ s.params.dmSize < s.x rd + s.arrayBytes) :
    RaisesCause (s.conversionInputs f rd ra) .addr := by
  rcases Nat.lt_or_ge s.params.dmSize (s.x ra + s.arrayBytes) with hra | hra
  · exact (checkRange_raisesCause hra).bind _
  refine .after (checkRange_ok hra) ?_
  rcases Nat.lt_or_ge s.params.dmSize (s.xbase + s.arrayBytes) with hxb | hxb
  · exact (checkRange_raisesCause hxb).bind _
  refine .after (checkRange_ok hxb) ?_
  have hrd := (h.resolve_left hra.not_gt).resolve_left hxb.not_gt
  exact (checkRange_raisesCause hrd).bind _

section Ranges

variable (hra : s.x ra + s.arrayBytes ≤ s.params.dmSize) (hxb : s.xbase + s.arrayBytes ≤ s.params.dmSize)
  (hrd : s.x rd + s.arrayBytes ≤ s.params.dmSize) (hnodes : s.readArray s.xbase s.nnode = .ok nodes)
  (hes : s.readArray (s.x ra) s.nnode = .ok es)

include hra hxb hrd hnodes hes

/-- Arrays in their ranges, with a node or another value that is no element, raise E_DOMAIN. -/
theorem conversionInputs_raises_domain (hf : s.selectField = .ok f) (h : ∃ e ∈ nodes ++ es, elementBound s ≤ e) :
    RaisesCause (s.conversionInputs f rd ra) .domain :=
  .after (checkRange_ok hra) (.after (checkRange_ok hxb) (.after (checkRange_ok hrd) (.after hnodes (.after hes
    (forAll_check_two_raisesCause hf h _)))))

/-- Arrays of elements in their ranges are the inputs. -/
theorem conversionInputs_ok (hf : s.selectField = .ok f) (h : ∀ e ∈ nodes ++ es, e < elementBound s) :
    s.conversionInputs f rd ra = .ok (nodes, es) :=
  conversionInputs_eq_ok.2 ⟨hra, hxb, hrd, hnodes, hes,
    fun e he => selectField_check_ok hf (h e (List.mem_append_left es he)),
    fun e he => selectField_check_ok hf (h e (List.mem_append_right nodes he))⟩

end Ranges

/-- What its inputs raise, every conversion raises. -/
theorem conversions_raise (hf : s.selectField = .ok f) (h : RaisesCause (s.conversionInputs f rd ra) c) :
    ∀ i ∈ [Instr.nofl rd ra, .monofn rd ra, .monofl rd ra], Raises s (exec i s) c := by
  intro i hi
  fin_cases hi <;> exact raises_after hf (h.bind _).raises

/-- The conversions that divide raise what the distinct-node check raises. -/
theorem dividing_conversions_raise (hf : s.selectField = .ok f) (hin : s.conversionInputs f rd ra = .ok (nodes, es))
    (h : RaisesCause (f.checkDistinct nodes) c) : ∀ i ∈ [Instr.nofl rd ra, .monofl rd ra], Raises s (exec i s) c := by
  intro i hi
  fin_cases hi <;> exact raises_after hf (raises_after hin (h.bind _).raises)

/-! ## The evaluations (R460, R462) -/

/-- Either range of an evaluation of the Newton form past the end of data memory raises E_ADDR. -/
theorem evaln_raises_addr (hf : s.selectField = .ok f)
    (h : s.params.dmSize < s.x ra + s.arrayBytes ∨ s.params.dmSize < s.xbase + s.arrayBytes) :
    Raises s (exec (.evaln rd ra rb) s) .addr := by
  refine raises_after hf ?_
  rcases Nat.lt_or_ge s.params.dmSize (s.x ra + s.arrayBytes) with hra | hra
  · exact raises_addr_of_past_dm hra _
  · exact raises_after (checkRange_ok hra) (raises_addr_of_past_dm (h.resolve_left hra.not_gt) _)

/-- A point that is no element raises E_DOMAIN before any read. -/
theorem evaluations_raise_domain_of_point (hf : s.selectField = .ok f) (hra : s.x ra + s.arrayBytes ≤ s.params.dmSize)
    (hrb : elementBound s ≤ s.x rb) : Raises s (exec (.evalm rd ra rb) s) .domain ∧
      (s.xbase + s.arrayBytes ≤ s.params.dmSize → Raises s (exec (.evaln rd ra rb) s) .domain) := by
  have hpoint := selectField_check_raisesCause hf hrb
  exact ⟨raises_after hf (raises_after (checkRange_ok hra) (hpoint.bind _).raises), fun hxb =>
    raises_after hf (raises_after (checkRange_ok hra) (raises_after (checkRange_ok hxb) (hpoint.bind _).raises))⟩

theorem evalm_raises_domain (hf : s.selectField = .ok f) (hra : s.x ra + s.arrayBytes ≤ s.params.dmSize)
    (hrb : s.x rb < elementBound s) (hes : s.readArray (s.x ra) s.nnode = .ok es)
    (h : ∃ e ∈ es, elementBound s ≤ e) : Raises s (exec (.evalm rd ra rb) s) .domain :=
  raises_after hf (raises_after (checkRange_ok hra) (raises_after (selectField_check_ok hf hrb) (raises_after hes
    ((forAll_check_raisesCause hf h).bind _).raises)))

theorem evaln_raises_domain (hf : s.selectField = .ok f) (hra : s.x ra + s.arrayBytes ≤ s.params.dmSize)
    (hxb : s.xbase + s.arrayBytes ≤ s.params.dmSize) (hrb : s.x rb < elementBound s)
    (hnodes : s.readArray s.xbase s.nnode = .ok nodes) (hes : s.readArray (s.x ra) s.nnode = .ok es)
    (h : ∃ e ∈ nodes ++ es, elementBound s ≤ e) : Raises s (exec (.evaln rd ra rb) s) .domain :=
  raises_after hf (raises_after (checkRange_ok hra) (raises_after (checkRange_ok hxb)
    (raises_after (selectField_check_ok hf hrb) (raises_after hnodes (raises_after hes
      (forAll_check_two_raisesCause hf h _).raises)))))

/-- Without a field every interpolation command raises E_CONFIG (R451). -/
theorem interpolation_raises_config (hmode : s.fmode = false) (hvalid : s.fvalid = false) :
    ∀ i ∈ [Instr.evalm rd ra rb, .evaln rd ra rb, .nofl rd ra, .monofn rd ra, .monofl rd ra],
      Raises s (exec i s) .config := by
  intro i hi
  fin_cases hi <;> exact ((selectField_raisesCause hmode hvalid).bind _).raises

/-- Settles O45: each clause names the check that fails first; the checks before it pass by its premises. -/
theorem interpolationChecksInOrder : Obligations.InterpolationChecksInOrder := by
  refine fun rd ra rb s => ⟨interpolation_raises_config, fun hsel => ?_,
    fun f nodes hsel hf _ => checkDistinct_eq_ok_iff_nodesDiffer hsel hf⟩
  obtain ⟨f, hf⟩ := selectField_of_selected hsel
  refine ⟨fun hra => ?_, fun hxb => ?_, fun hrd => ?_, evaluations_raise_domain_of_point hf,
    fun nodes es hra hes => ⟨fun hrb => evalm_raises_domain hf hra hrb hes, fun hxb hnodes =>
      ⟨fun hbad => ⟨fun hrb => evaln_raises_domain hf hra hxb hrb hnodes hes hbad, fun hrd => ?_⟩,
        fun hgood hsame hrd => ?_⟩⟩⟩
  · exact List.forall_mem_cons.2 ⟨raises_after hf (raises_addr_of_past_dm hra _), List.forall_mem_cons.2
      ⟨evaln_raises_addr hf (.inl hra), conversions_raise hf (conversionInputs_raises_addr (.inl hra))⟩⟩
  · exact List.forall_mem_cons.2
      ⟨evaln_raises_addr hf (.inr hxb), conversions_raise hf (conversionInputs_raises_addr (.inr (.inl hxb)))⟩
  · exact conversions_raise hf (conversionInputs_raises_addr (.inr (.inr hrd)))
  · exact conversions_raise hf (conversionInputs_raises_domain hra hxb hrd hnodes hes hf hbad)
  · have hdistinct := checkDistinct_raisesCause hf (mt (checkDistinct_eq_ok_iff_nodesDiffer hsel hf).1 hsame)
    exact dividing_conversions_raise hf (conversionInputs_ok hra hxb hrd hnodes hes hf hgood) hdistinct

end Sys2Proof.Machine
end

section
/-! What the interpolation commands compute, in the ring that represents the selected field: the value of a monomial form and of a
Newton form, the divided differences, and the forms of one polynomial (46_interpolation.md R454, R455, R460 to R465). -/

namespace Sys2Proof.Machine

open Sys2Proof.Safety Sys2Proof.Claims

/-! ## The two fields, selected -/

section Selected

variable {s : State} {f : FieldOps} {v n a : Nat} {ys : List Nat}

theorem elementBound_prime (hmode : s.fmode = false) : elementBound s = s.p := by
  simp [elementBound, hmode]

theorem elementBound_binary (hmode : s.fmode = true) : elementBound s = 2 ^ 128 := by
  simp [elementBound, hmode]

theorem selectField_prime (hmode : s.fmode = false) (hready : FieldReady s) : s.selectField = .ok s.primeField :=
  selectField_eq_ok.2 (.inr ⟨hmode, hready.1, rfl⟩)

theorem selectField_binary (hmode : s.fmode = true) : s.selectField = .ok (binaryField s.params.gfPoly) :=
  selectField_eq_ok.2 (.inl ⟨hmode, rfl⟩)

/-- The selected field is a configured prime field or GF(2^128). -/
theorem selectField_cases (hsel : FieldSelected s) (hf : s.selectField = .ok f) :
    (s.fmode = false ∧ FieldReady s ∧ f = s.primeField) ∨ (s.fmode = true ∧ f = binaryField s.params.gfPoly) := by
  rcases selectField_eq_ok.1 hf with hbinary | ⟨hmode, _, rfl⟩
  · exact .inr hbinary
  · exact .inl ⟨hmode, hsel.resolve_left (by simp [hmode]), rfl⟩

/-- A selected prime field, by its canonical elements. -/
theorem represents_prime (hmode : s.fmode = false) (hready : FieldReady s) :
    Represents s.primeField (elementBound s) (canonical s) := by
  rw [elementBound_prime hmode]
  exact represents_primeField hready

/-- A selected GF(2^128), by the quotient ring. -/
theorem represents_binary (hlegal : s.params.legal) (hmode : s.fmode = true) :
    Represents (binaryField s.params.gfPoly) (elementBound s) (gfElement s.params.gfPoly) := by
  obtain ⟨_, _, _, hpoly⟩ := hlegal
  exact elementBound_binary hmode ▸ represents_binaryField hpoly

variable (hlegal : s.params.legal) (hsel : FieldSelected s)

include hlegal hsel

/-- The selected field is represented by some ring. -/
theorem exists_represents (hf : s.selectField = .ok f) :
    ∃ (R : Type) (_ : CommRing R) (φ : Nat → R), Represents f (elementBound s) φ := by
  rcases selectField_cases hsel hf with ⟨hmode, hready, rfl⟩ | ⟨hmode, rfl⟩
  · exact ⟨_, _, _, represents_prime hmode hready⟩
  · exact ⟨_, _, _, represents_binary hlegal hmode⟩

/-- A product is an element, whatever its factors are. -/
theorem selectField_mul_lt (hf : s.selectField = .ok f) (a b : Nat) : f.mul a b < elementBound s := by
  rcases selectField_cases hsel hf with ⟨hmode, hready, rfl⟩ | ⟨hmode, rfl⟩
  · rw [elementBound_prime hmode]
    exact (red_spec_of_ready hready (a * b)).1
  · obtain ⟨_, _, _, hpoly⟩ := hlegal
    rw [elementBound_binary hmode, binaryField_mul]
    exact GF.mul_lt hpoly a b

/-- An element of the selected field fits every register. -/
theorem selected_element_lt_two_pow_regBits (hv : v < elementBound s) : v < 2 ^ s.params.regBits := by
  cases hmode : s.fmode with
  | true =>
    obtain ⟨hlimbs, _⟩ := hlegal
    exact element_lt_two_pow_regBits hlimbs (elementBound_binary hmode ▸ hv)
  | false =>
    obtain ⟨_, _, _, hp⟩ := hsel.resolve_left (by simp [hmode])
    exact (elementBound_prime hmode ▸ hv).trans hp

/-- Elements written as an array are an array result. -/
theorem arrayResult_of_elements (hlen : ys.length = n) (hys : ∀ y ∈ ys, y < elementBound s) :
    ArrayResult s (s.writeArray a ys).advance a n ys :=
  hlen ▸ arrayResult_writeArray s a fun y hy => selected_element_lt_two_pow_regBits hlegal hsel (hys y hy)

end Selected

/-! ## Evaluation (R460, R462) -/

section Evaluation

variable {s : State} {f : FieldOps} {rd ra rb : Reg} {x : Nat} {ms nodes cs : List Nat}

/-- Two arrays of `N` elements are equally long. -/
theorem arrays_length_eq {a b n bound : Nat} (hnodes : ArrayAt s a n bound nodes) (hcs : ArrayAt s b n bound cs) :
    nodes.length = cs.length := by
  obtain ⟨_, hread, _⟩ := hnodes
  obtain ⟨_, hread', _⟩ := hcs
  exact (readArray_length hread).trans (readArray_length hread').symm

/-- Nodes paired with their coefficients, all below a bound. -/
theorem forall_mem_zip_lt {bound : Nat} (hnodes : ∀ e ∈ nodes, e < bound) (hcs : ∀ c ∈ cs, c < bound) :
    ∀ q ∈ nodes.zip cs, q.1 < bound ∧ q.2 < bound := fun _ hq =>
  ⟨hnodes _ (List.of_mem_zip hq).1, hcs _ (List.of_mem_zip hq).2⟩

theorem exec_evalm_of_elements (hf : s.selectField = .ok f) (hms : ArrayAt s (s.x ra) s.nnode (elementBound s) ms)
    (hrb : s.x rb < elementBound s) :
    exec (.evalm rd ra rb) s = .next (s.setReg rd (f.evalMonomial (s.x rb) ms)).advance := by
  obtain ⟨hrange, hread, hlt⟩ := hms
  simp only [exec, execEvalm, hf, checkRange_ok (n := s.arrayBytes) hrange, selectField_check_ok hf hrb, hread,
    forAll_check_ok hf hlt, comp_ok_bind, perform_ok]

theorem exec_evaln_of_elements (hf : s.selectField = .ok f) (hcs : ArrayAt s (s.x ra) s.nnode (elementBound s) cs)
    (hnodes : ArrayAt s s.xbase s.nnode (elementBound s) nodes) (hrb : s.x rb < elementBound s) :
    exec (.evaln rd ra rb) s = .next (s.setReg rd (f.evalNewton (s.x rb) (nodes.zip cs))).advance := by
  obtain ⟨hrange, hread, hlt⟩ := hcs
  obtain ⟨hrange', hread', hlt'⟩ := hnodes
  simp only [exec, execEvaln, hf, checkRange_ok (n := s.arrayBytes) hrange, checkRange_ok (n := s.arrayBytes) hrange',
    selectField_check_ok hf hrb, hread, hread', forAll_check_ok hf hlt, forAll_check_ok hf hlt', comp_ok_bind, perform_ok]

theorem monomialForm_eq_ringPoly (s : State) (ms : List Nat) : monomialForm s ms = ringPoly (canonical s) ms := rfl

/-- In the prime field Horner's rule gives the value of the monomial form. -/
theorem canonical_evalMonomial (hready : FieldReady s) (x : Nat) (ms : List Nat) :
    canonical s (s.primeField.evalMonomial x ms) = (monomialForm s ms).eval (canonical s x) := by
  rw [monomialForm_eq_ringPoly, ringPoly_eval]
  exact evalMonomial_spec (represents_primeField hready) x ms

/-- In the prime field the nested evaluation gives the value of the Newton form. -/
theorem canonical_evalNewton (hready : FieldReady s) (x : Nat) (hlen : nodes.length = cs.length) :
    canonical s (s.primeField.evalNewton x (nodes.zip cs)) = (newtonForm s nodes cs).eval (canonical s x) := by
  refine (evalNewton_spec (represents_primeField hready) x hlen).trans ?_
  simp [newtonForm, canonical, Polynomial.eval_finsetSum, Polynomial.eval_prod]

variable {poly : Nat} (hpoly : 2 ^ 128 ≤ poly ∧ poly < 2 ^ 129)

include hpoly

/-- In GF(2^128) Horner's rule gives the sum of R455. -/
theorem binaryField_evalMonomial (hx : x < 2 ^ 128) (hms : ∀ m ∈ ms, m < 2 ^ 128) :
    (binaryField poly).evalMonomial x ms = gfEvaluate poly x ms := by
  have r := represents_binaryField hpoly
  obtain ⟨hlt, heval⟩ := gfElement_gfEvaluate hpoly x ms
  exact r.inj (evalMonomial_lt r hx hms) hlt (by rw [heval, ringPoly_eval, evalMonomial_spec r])

/-- In GF(2^128) the nested evaluation gives the sum of R455. -/
theorem binaryField_evalNewton (hx : x < 2 ^ 128) (hnodes : ∀ e ∈ nodes, e < 2 ^ 128) (hcs : ∀ c ∈ cs, c < 2 ^ 128)
    (hlen : nodes.length = cs.length) :
    (binaryField poly).evalNewton x (nodes.zip cs) = gfNewtonEvaluate poly x nodes cs := by
  have r := represents_binaryField hpoly
  obtain ⟨hlt, heval⟩ := gfElement_gfNewtonEvaluate hpoly x nodes cs
  exact r.inj (evalNewton_lt r hx (forall_mem_zip_lt hnodes hcs)) hlt (by rw [heval, evalNewton_spec r x hlen])

end Evaluation

/-- Settles O46: the command runs Horner's rule, which gives the value in either field. -/
theorem monomialEvaluation : Obligations.MonomialEvaluation := by
  refine fun rd ra rb => ⟨decodeInvertsEncode (.evalm rd ra rb) rfl, fun s ms hlegal hms hrb =>
    ⟨fun hmode hready => ?_, fun hmode => ?_⟩⟩
  · have hexec := exec_evalm_of_elements (rd := rd) (selectField_prime hmode hready) hms hrb
    obtain ⟨_, _, hlt⟩ := hms
    have hresult : s.primeField.evalMonomial (s.x rb) ms < s.p :=
      elementBound_prime hmode ▸ evalMonomial_lt (represents_prime hmode hready) hrb hlt
    exact ⟨_, _, hexec, registerResult_element hready rd hresult, hresult, canonical_evalMonomial hready _ _⟩
  · have hexec := exec_evalm_of_elements (rd := rd) (selectField_binary hmode) hms hrb
    rw [elementBound_binary hmode] at hms hrb
    obtain ⟨_, _, hlt⟩ := hms
    obtain ⟨hlimbs, _, _, hpoly⟩ := hlegal
    rw [binaryField_evalMonomial hpoly hrb hlt] at hexec
    obtain ⟨hresult, _⟩ := gfElement_gfEvaluate hpoly (s.x rb) ms
    exact ⟨_, hexec, registerResult_setReg s rd (element_lt_two_pow_regBits hlimbs hresult)⟩

/-- Settles O47: the command runs the nested evaluation, which gives the value in either field. -/
theorem newtonEvaluation : Obligations.NewtonEvaluation := by
  refine fun rd ra rb => ⟨decodeInvertsEncode (.evaln rd ra rb) rfl, fun s nodes cs hlegal hcs hnodes hrb =>
    ⟨fun hmode hready => ?_, fun hmode => ?_⟩⟩
  · have hexec := exec_evaln_of_elements (rd := rd) (selectField_prime hmode hready) hcs hnodes hrb
    have hlen := arrays_length_eq hnodes hcs
    obtain ⟨_, _, hcsLt⟩ := hcs
    obtain ⟨_, _, hnodesLt⟩ := hnodes
    have hresult : s.primeField.evalNewton (s.x rb) (nodes.zip cs) < s.p :=
      elementBound_prime hmode ▸ evalNewton_lt (represents_prime hmode hready) hrb (forall_mem_zip_lt hnodesLt hcsLt)
    exact ⟨_, _, hexec, registerResult_element hready rd hresult, hresult, canonical_evalNewton hready _ hlen⟩
  · have hexec := exec_evaln_of_elements (rd := rd) (selectField_binary hmode) hcs hnodes hrb
    have hlen := arrays_length_eq hnodes hcs
    rw [elementBound_binary hmode] at hcs hnodes hrb
    obtain ⟨_, _, hcsLt⟩ := hcs
    obtain ⟨_, _, hnodesLt⟩ := hnodes
    obtain ⟨hlimbs, _, _, hpoly⟩ := hlegal
    rw [binaryField_evalNewton hpoly hrb hnodesLt hcsLt hlen] at hexec
    obtain ⟨hresult, _⟩ := gfElement_gfNewtonEvaluate hpoly (s.x rb) nodes cs
    exact ⟨_, hexec, registerResult_setReg s rd (element_lt_two_pow_regBits hlimbs hresult)⟩

/-! ## From Newton form to monomial form (R463) -/

section Forms

variable {f : FieldOps} {bound : Nat} {R : Type} [CommRing R] {φ : Nat → R} {nodes cs : List Nat}

/-- The expansion of a Newton form takes its values. -/
theorem monomialOfNewton_eval (r : Represents f bound φ) (hlen : nodes.length = cs.length) (x : R) :
    (ringPoly φ (f.monomialOfNewton (nodes.zip cs))).eval x =
      ∑ k ∈ Finset.range cs.length, φ (cs.getD k 0) * ∏ j ∈ Finset.range k, (x - φ (nodes.getD j 0)) := by
  rw [monomialOfNewton_spec r hlen]
  simp [Polynomial.eval_finsetSum, Polynomial.eval_prod]

/-- Horner's rule on the expansion of a Newton form gives what the nested evaluation of that form gives (R465). -/
theorem evalMonomial_monomialOfNewton (r : Represents f bound φ) (hlen : nodes.length = cs.length)
    (hnodes : ∀ e ∈ nodes, e < bound) (hcs : ∀ c ∈ cs, c < bound) {x : Nat} (hx : x < bound) :
    f.evalMonomial x (f.monomialOfNewton (nodes.zip cs)) = f.evalNewton x (nodes.zip cs) := by
  have hpairs := forall_mem_zip_lt hnodes hcs
  refine r.inj (evalMonomial_lt r hx (monomialOfNewton_lt r hpairs)) (evalNewton_lt r hx hpairs) ?_
  rw [evalMonomial_spec r, ← ringPoly_eval, monomialOfNewton_eval r hlen, evalNewton_spec r x hlen]

end Forms

/-- `ms` are the monomial coefficients of the polynomial with the Newton coefficients `cs`: elements, as many; in the prime field
one polynomial, in GF(2^128) one value at every element (R455, R463). -/
def IsMonomialFormOf (s : State) (nodes cs ms : List Nat) : Prop :=
  (∀ m ∈ ms, m < elementBound s) ∧ (s.fmode = false → monomialForm s ms = newtonForm s nodes cs) ∧
    (s.fmode = true → ∀ y, y < 2 ^ 128 → gfEvaluate s.params.gfPoly y ms = gfNewtonEvaluate s.params.gfPoly y nodes cs)

section Conversions

variable {s : State} {f : FieldOps} {rd ra : Reg} {nodes vs cs ms : List Nat}

/-- In GF(2^128) the expansion of a Newton form has the values of R455. -/
theorem gfEvaluate_monomialOfNewton {poly : Nat} (hpoly : 2 ^ 128 ≤ poly ∧ poly < 2 ^ 129)
    (hlen : nodes.length = cs.length) (y : Nat) :
    gfEvaluate poly y ((binaryField poly).monomialOfNewton (nodes.zip cs)) = gfNewtonEvaluate poly y nodes cs := by
  obtain ⟨hlt, heval⟩ := gfElement_gfEvaluate hpoly y ((binaryField poly).monomialOfNewton (nodes.zip cs))
  obtain ⟨hlt', heval'⟩ := gfElement_gfNewtonEvaluate hpoly y nodes cs
  refine gfElement_injOn hpoly hlt hlt' ?_
  rw [heval, heval', monomialOfNewton_eval (represents_binaryField hpoly) hlen]

/-- In the prime field the expansion of a Newton form is the same polynomial. -/
theorem monomialForm_monomialOfNewton (hready : FieldReady s) (hlen : nodes.length = cs.length) :
    monomialForm s (s.primeField.monomialOfNewton (nodes.zip cs)) = newtonForm s nodes cs := by
  rw [monomialForm_eq_ringPoly]
  exact monomialOfNewton_spec (represents_primeField hready) hlen

/-- What the conversions write is the monomial form. -/
theorem isMonomialFormOf_monomialOfNewton (hlegal : s.params.legal) (hsel : FieldSelected s) (hf : s.selectField = .ok f)
    (hlen : nodes.length = cs.length) (hnodes : ∀ e ∈ nodes, e < elementBound s) (hcs : ∀ c ∈ cs, c < elementBound s) :
    IsMonomialFormOf s nodes cs (f.monomialOfNewton (nodes.zip cs)) := by
  obtain ⟨R, _, φ, r⟩ := exists_represents hlegal hsel hf
  refine ⟨monomialOfNewton_lt r (forall_mem_zip_lt hnodes hcs), ?_⟩
  rcases selectField_cases hsel hf with ⟨hmode, hready, rfl⟩ | ⟨hmode, rfl⟩
  · exact ⟨fun _ => monomialForm_monomialOfNewton hready hlen, by simp [hmode]⟩
  · obtain ⟨_, _, _, hpoly⟩ := hlegal
    exact ⟨by simp [hmode], fun _ y _ => gfEvaluate_monomialOfNewton hpoly hlen y⟩

/-- Arrays of elements, and a destination in its range, are the inputs of a conversion. -/
theorem conversionInputs_of_arrays (hf : s.selectField = .ok f) (hvs : ArrayAt s (s.x ra) s.nnode (elementBound s) vs)
    (hnodes : ArrayAt s s.xbase s.nnode (elementBound s) nodes) (hrd : s.x rd + s.arrayBytes ≤ s.params.dmSize) :
    s.conversionInputs f rd ra = .ok (nodes, vs) := by
  obtain ⟨hra, hread, hlt⟩ := hvs
  obtain ⟨hxb, hread', hlt'⟩ := hnodes
  exact conversionInputs_ok hra hxb hrd hread' hread hf (List.forall_mem_append.2 ⟨hlt', hlt⟩)

theorem exec_monofn_of_inputs (hf : s.selectField = .ok f) (hin : s.conversionInputs f rd ra = .ok (nodes, cs)) :
    exec (.monofn rd ra) s = .next (s.writeArray (s.x rd) (f.monomialOfNewton (nodes.zip cs))).advance := by
  simp only [exec, execMonofn, hf, hin, comp_ok_bind, perform_ok]

/-- Settles O49: the command writes the expansion of the Newton form, which is the same polynomial. -/
theorem newtonToMonomial : Obligations.NewtonToMonomial := by
  refine fun rd ra => ⟨decodeInvertsEncode (.monofn rd ra) rfl, fun s nodes cs hlegal hsel hcs hnodes hrd => ?_⟩
  obtain ⟨f, hf⟩ := selectField_of_selected hsel
  have hin := conversionInputs_of_arrays hf hcs hnodes hrd
  have hlen := arrays_length_eq hnodes hcs
  obtain ⟨_, hread, hcsLt⟩ := hcs
  obtain ⟨_, hread', hnodesLt⟩ := hnodes
  have hmsLen : (f.monomialOfNewton (nodes.zip cs)).length = s.nnode := by
    simp [hlen, readArray_length hread]
  obtain ⟨hmsLt, hsame⟩ := isMonomialFormOf_monomialOfNewton hlegal hsel hf hlen hnodesLt hcsLt
  exact ⟨_, _, exec_monofn_of_inputs hf hin, arrayResult_of_elements hlegal hsel hmsLen hmsLt, hmsLen, hmsLt, hsame⟩

/-! ## The divided differences (R461, R464) -/

/-- Over nodes that pass the check, the difference of a node and an earlier one has its inverse. -/
theorem inv_sub_ok_of_checkDistinct (hdistinct : f.checkDistinct nodes = .ok ()) {i j : Nat} (hij : i < j)
    (hj : j < nodes.length) : ∃ d, f.inv (f.sub (nodes.getD j 0) (nodes.getD i 0)) = .ok d := by
  have hpair := List.pairwise_iff_getElem.1 (checkDistinct_eq_ok.1 hdistinct) i j (hij.trans hj) hj hij
  rwa [List.getD_eq_getElem _ _ hj, List.getD_eq_getElem _ _ (hij.trans hj)]

/-- Over nodes that pass the check, the divided differences never stop. -/
theorem newtonOfValues_ok_of_checkDistinct (hdistinct : f.checkDistinct nodes = .ok ()) (vs : List Nat) :
    ∃ cs, f.newtonOfValues nodes vs = .ok cs := by
  cases hcs : f.newtonOfValues nodes vs with
  | ok cs => exact ⟨cs, rfl⟩
  | error e =>
    obtain ⟨i, j, hij, hj, hstop⟩ := newtonOfValues_eq_error hcs
    obtain ⟨d, hd⟩ := inv_sub_ok_of_checkDistinct hdistinct hij hj
    rw [hd] at hstop
    cases hstop

/-- A divided difference is a value or a product, so it is an element, whatever the field's inverse gives (LOG 11). -/
theorem dividedDifference_lt (hlegal : s.params.legal) (hsel : FieldSelected s) (hf : s.selectField = .ok f)
    (hvs : ∀ v ∈ vs, v < elementBound s) {i k c : Nat} (hi : i < vs.length)
    (h : dividedDifference f nodes vs i k = .ok c) : c < elementBound s := by
  cases k with
  | zero =>
    obtain rfl : vs.getD i 0 = c := by simpa [dividedDifference] using h
    rw [List.getD_eq_getElem _ _ hi]
    exact hvs _ (List.getElem_mem hi)
  | succ k =>
    simp only [dividedDifference, FieldOps.div, bind_eq_ok, Except.ok.injEq] at h
    obtain ⟨_, _, _, _, _, _, rfl⟩ := h
    exact selectField_mul_lt hlegal hsel hf _ _

/-- `cs` are the Newton coefficients of the values `vs`: elements, as many, that are the divided differences (R454). -/
def AreDividedDifferences (s : State) (f : FieldOps) (nodes vs cs : List Nat) : Prop :=
  cs.length = vs.length ∧ (∀ c ∈ cs, c < elementBound s) ∧
    ∀ k, k < vs.length → dividedDifference f nodes vs 0 k = .ok (cs.getD k 0)

theorem areDividedDifferences_newtonOfValues (hlegal : s.params.legal) (hsel : FieldSelected s)
    (hf : s.selectField = .ok f) (hlen : nodes.length = vs.length) (hvs : ∀ v ∈ vs, v < elementBound s)
    (h : f.newtonOfValues nodes vs = .ok cs) : AreDividedDifferences s f nodes vs cs := by
  have hcsLen := newtonOfValues_length h hlen
  refine ⟨hcsLen, fun c hc => ?_, fun k hk => ?_⟩
  · obtain ⟨k, hk, rfl⟩ := List.getElem_of_mem hc
    exact dividedDifference_lt hlegal hsel hf hvs (by omega) (newtonOfValues_getElem hlen h hk)
  · rw [List.getD_eq_getElem _ _ (hcsLen ▸ hk)]
    exact newtonOfValues_getElem hlen h _

theorem exec_nofl_of_inputs (hf : s.selectField = .ok f) (hin : s.conversionInputs f rd ra = .ok (nodes, vs))
    (hdistinct : f.checkDistinct nodes = .ok ()) (hcs : f.newtonOfValues nodes vs = .ok cs) :
    exec (.nofl rd ra) s = .next (s.writeArray (s.x rd) cs).advance := by
  simp only [exec, execNofl, hf, hin, hdistinct, hcs, comp_ok_bind, perform_ok]

theorem monomialOfValues_of_newtonOfValues (hcs : f.newtonOfValues nodes vs = .ok cs) :
    f.monomialOfValues nodes vs = .ok (f.monomialOfNewton (nodes.zip cs)) := by
  rw [FieldOps.monomialOfValues, hcs, comp_ok_bind]

theorem exec_monofl_of_inputs (hf : s.selectField = .ok f) (hin : s.conversionInputs f rd ra = .ok (nodes, vs))
    (hdistinct : f.checkDistinct nodes = .ok ()) (hms : f.monomialOfValues nodes vs = .ok ms) :
    exec (.monofl rd ra) s = .next (s.writeArray (s.x rd) ms).advance := by
  simp only [exec, execMonofl, hf, hin, hdistinct, hms, comp_ok_bind, perform_ok]

/-- Settles O48: over nodes that pass the check the table is there, and its heads are the divided differences. -/
theorem newtonCoefficientsAreDividedDifferences : Obligations.NewtonCoefficientsAreDividedDifferences := by
  refine fun rd ra => ⟨decodeInvertsEncode (.nofl rd ra) rfl,
    fun s f nodes vs hlegal hsel hf hvs hnodes hrd hdistinct => ?_⟩
  have hin := conversionInputs_of_arrays hf hvs hnodes hrd
  have hlen := arrays_length_eq hnodes hvs
  obtain ⟨_, hread, hvsLt⟩ := hvs
  have hvsLen := readArray_length hread
  obtain ⟨cs, hcs⟩ := newtonOfValues_ok_of_checkDistinct hdistinct vs
  obtain ⟨hcsLen, hcsLt, hdiff⟩ := areDividedDifferences_newtonOfValues hlegal hsel hf hlen hvsLt hcs
  exact ⟨_, cs, exec_nofl_of_inputs hf hin hdistinct hcs,
    arrayResult_of_elements hlegal hsel (hcsLen.trans hvsLen) hcsLt, hcsLen.trans hvsLen, hvsLen ▸ hdiff⟩

/-- Settles O50: the table of NOFL, then the expansion of MONOFN; only the latter is written. -/
theorem valuesToMonomial : Obligations.ValuesToMonomial := by
  refine fun rd ra => ⟨decodeInvertsEncode (.monofl rd ra) rfl,
    fun s f nodes vs hlegal hsel hf hvs hnodes hrd hdistinct => ?_⟩
  have hin := conversionInputs_of_arrays hf hvs hnodes hrd
  have hlen := arrays_length_eq hnodes hvs
  obtain ⟨_, hread, hvsLt⟩ := hvs
  obtain ⟨_, _, hnodesLt⟩ := hnodes
  have hvsLen := readArray_length hread
  obtain ⟨cs, hcs⟩ := newtonOfValues_ok_of_checkDistinct hdistinct vs
  obtain ⟨hcsLen, hcsLt, hdiff⟩ := areDividedDifferences_newtonOfValues hlegal hsel hf hlen hvsLt hcs
  have hmsLen : (f.monomialOfNewton (nodes.zip cs)).length = s.nnode := by
    simp [hlen, hcsLen, hvsLen]
  obtain ⟨hmsLt, hsame⟩ := isMonomialFormOf_monomialOfNewton hlegal hsel hf (hlen.trans hcsLen.symm) hnodesLt hcsLt
  exact ⟨_, cs, _, exec_monofl_of_inputs hf hin hdistinct (monomialOfValues_of_newtonOfValues hcs), hcsLen.trans hvsLen,
    hvsLen ▸ hdiff, arrayResult_of_elements hlegal hsel hmsLen hmsLt, hmsLen, hmsLt, hsame⟩

/-! ## The three representations agree (R465) -/

/-- In the prime field the inverses the check finds are inverses. -/
theorem invertibleNodes_prime (hmode : s.fmode = false) (hready : FieldReady s)
    (hdistinct : s.primeField.checkDistinct nodes = .ok ()) :
    InvertibleNodes s.primeField (elementBound s) (canonical s) nodes := by
  obtain ⟨_, hodd, h3, _⟩ := hready
  intro i j hij hj
  obtain ⟨d, hd⟩ := inv_sub_ok_of_checkDistinct hdistinct hij hj
  obtain ⟨hlt, hmul⟩ := PF.inv_spec _ hodd h3 hd
  exact ⟨d, hd, elementBound_prime hmode ▸ hlt, hmul⟩

/-- In GF(2^128) the field finds the inverses that there are (LOG 11). -/
theorem invertibleNodes_binary (hlegal : s.params.legal) (hmode : s.fmode = true)
    (hnodes : ∀ e ∈ nodes, e < elementBound s)
    (hinv : ∀ i j, j < i → i < nodes.length → GfInvertible s.params.gfPoly (nodes.getD i 0 ^^^ nodes.getD j 0)) :
    InvertibleNodes (binaryField s.params.gfPoly) (elementBound s) (gfElement s.params.gfPoly) nodes := by
  obtain ⟨_, _, _, hpoly⟩ := hlegal
  rw [elementBound_binary hmode] at hnodes ⊢
  intro i j hij hj
  have hnode : ∀ k, k < nodes.length → nodes.getD k 0 < 2 ^ 128 := fun k hk =>
    List.getD_eq_getElem nodes 0 hk ▸ hnodes _ (List.getElem_mem hk)
  obtain ⟨d, _, hd⟩ := hinv j i hij hj
  exact GF.inv_spec hpoly (Nat.xor_lt_two_pow (hnode j hj) (hnode i (hij.trans hj))) hd

/-- Settles O51: the selected field has a ring in which Newton's interpolation holds and the two forms are one polynomial. -/
theorem representationsAgree : Obligations.RepresentationsAgree := by
  intro s f nodes vs hlegal hsel hf hlen helems hdistinct hinv
  obtain ⟨hnodes, hvs⟩ := List.forall_mem_append.1 helems
  obtain ⟨R, _, φ, r, hinvertible⟩ : ∃ (R : Type) (_ : CommRing R) (φ : Nat → R),
      Represents f (elementBound s) φ ∧ InvertibleNodes f (elementBound s) φ nodes := by
    rcases selectField_cases hsel hf with ⟨hmode, hready, rfl⟩ | ⟨hmode, rfl⟩
    · exact ⟨_, _, _, represents_prime hmode hready, invertibleNodes_prime hmode hready hdistinct⟩
    · exact ⟨_, _, _, represents_binary hlegal hmode, invertibleNodes_binary hlegal hmode hnodes (hinv hmode)⟩
  obtain ⟨cs, hcs⟩ := newtonOfValues_ok_of_checkDistinct hdistinct vs
  obtain ⟨hcsLt, hvalues⟩ := evalNewton_newtonOfValues r hinvertible hlen hnodes hvs hcs
  have hcsLen : nodes.length = cs.length := hlen.trans (newtonOfValues_length hcs hlen).symm
  exact ⟨cs, _, hcs, monomialOfValues_of_newtonOfValues hcs, hcsLen.symm, by simp [hcsLen], hvalues,
    fun y hy => evalMonomial_monomialOfNewton r hcsLen hnodes hcsLt hy⟩

end Conversions

end Sys2Proof.Machine
end

section
/-! The checks of the transforms in their order: the mode, the size, the ranges of the basis and of the data, their elements
(47_additive_fft.md R501). -/

namespace Sys2Proof.Machine

open Sys2Proof.Safety Sys2Proof.Claims

variable {s : State} {ra rb : Reg} {l a : Nat} {basis d : List Nat} {c : Cause}

/-- A condition that holds leaves the raise to the parts after it. -/
theorem RaisesCause.after_require {β : Type} {ok : Bool} {k : Cause} {info : Nat} {g : Unit → Comp β} (hok : ok = true)
    (h : RaisesCause (g ()) c) : RaisesCause (require ok k info >>= g) c :=
  .after (require_eq_ok.2 hok) h

/-- What the common checks raise, every transform raises. -/
theorem transforms_raise (h : RaisesCause (s.fftCheck l (s.x ra)) c) :
    ∀ i ∈ [Instr.fft ra rb l, .ifft ra rb l, .bfft ra rb l], Raises s (exec i s) c := by
  intro i hi
  fin_cases hi <;> exact (h.bind _).raises

theorem fftCheck_raises_config (hmode : s.fmode = false) : RaisesCause (s.fftCheck l a) .config :=
  ⟨0, by rw [State.fftCheck, hmode, require_false, comp_error_bind]⟩

section BinaryMode

variable (hmode : s.fmode = true)

include hmode

/-- In the binary mode the check of FMODE passes and leaves the raise to the checks after it. -/
theorem fftCheck_raises_domain_of_size (hl : s.blen < l) : RaisesCause (s.fftCheck l a) .domain :=
  .after_require hmode ((require_raisesCause hl.not_ge).bind _)

variable (hl : l ≤ s.blen)

include hl

/-- Either array past the end of data memory raises E_ADDR. -/
theorem fftCheck_raises_addr (h : s.params.dmSize < s.bbase + l * s.params.elemBytes ∨
    s.params.dmSize < a + 2 ^ l * s.params.elemBytes) : RaisesCause (s.fftCheck l a) .addr := by
  refine .after_require hmode (.after_require (decide_eq_true hl) ?_)
  rcases Nat.lt_or_ge s.params.dmSize (s.bbase + l * s.params.elemBytes) with hbasis | hbasis
  · exact (checkRange_raisesCause hbasis).bind _
  · exact .after (checkRange_ok hbasis) ((checkRange_raisesCause (h.resolve_left hbasis.not_gt)).bind _)

/-- Arrays in their ranges, with a basis vector or a value that is no element, raise E_DOMAIN. -/
theorem fftCheck_raises_domain_of_element (hbasis : s.bbase + l * s.params.elemBytes ≤ s.params.dmSize)
    (ha : a + 2 ^ l * s.params.elemBytes ≤ s.params.dmSize) (hreadBasis : s.readArray s.bbase l = .ok basis)
    (hread : s.readArray a (2 ^ l) = .ok d) (h : ∃ e ∈ basis ++ d, 2 ^ 128 ≤ e) :
    RaisesCause (s.fftCheck l a) .domain := by
  rw [← elementBound_binary hmode] at h
  exact .after_require hmode (.after_require (decide_eq_true hl) (.after (checkRange_ok hbasis)
    (.after (checkRange_ok ha) (.after hreadBasis (.after hread
      (forAll_check_two_raisesCause (selectField_binary hmode) h _))))))

end BinaryMode

/-- Settles O52: each clause names the check that fails first; the checks before it pass by its premises. -/
theorem transformChecksInOrder : Obligations.TransformChecksInOrder :=
  fun _ _ _ _ i hi => ⟨fun hmode => transforms_raise (fftCheck_raises_config hmode) i hi,
    fun hmode hl => transforms_raise (fftCheck_raises_domain_of_size hmode hl) i hi,
    fun hmode hl => ⟨fun h => transforms_raise (fftCheck_raises_addr hmode hl h) i hi,
      fun _ _ hbasis ha hreadBasis hread h =>
        transforms_raise (fftCheck_raises_domain_of_element hmode hl hbasis ha hreadBasis hread h) i hi⟩⟩

end Sys2Proof.Machine
end

section
/-! What the transforms compute, in the ring of GF(2^128): the values at the points, and the polynomial that takes given values at
distinct points (47_additive_fft.md R502, R510 to R513). -/

namespace Sys2Proof.Machine

open Sys2Proof.Safety Sys2Proof.Claims

/-! ## One polynomial through the points -/

section Uniqueness

variable {f : FieldOps} {bound : Nat} {R : Type} [CommRing R] {φ : Nat → R} {as bs : List Nat}

/-- The Vandermonde matrix of points whose differences are units takes different vectors to different values. -/
theorem vandermonde_mulVec_injective {n : Nat} {x : Fin n → R} (hx : ∀ i j, i < j → IsUnit (x j - x i)) :
    Function.Injective (Matrix.vandermonde x).mulVec := by
  refine Matrix.mulVec_injective_of_isUnit ((Matrix.isUnit_iff_isUnit_det _).2 ?_)
  rw [Matrix.det_vandermonde]
  exact IsUnit.prod_univ_iff.2 fun i => IsUnit.prod_iff.2 fun j hj => hx i j (Finset.mem_Ioi.1 hj)

/-- A value of the polynomial with these coefficients, as a row of the Vandermonde matrix. -/
theorem ringPoly_eval_eq_vandermonde {n : Nat} (hlen : as.length = n) (x : Fin n → R) (i : Fin n) :
    (ringPoly φ as).eval (x i) = (Matrix.vandermonde x).mulVec (fun j : Fin n => φ (as.getD j 0)) i := by
  rw [ringPoly_eval, hlen, Matrix.mulVec, dotProduct, Finset.sum_range]
  exact Finset.sum_congr rfl fun j _ => mul_comm _ _

/-- Coefficients are determined by as many values at points whose differences are units. -/
theorem eq_of_ringPoly_eval_eq (r : Represents f bound φ) (hlen : as.length = bs.length) (has : ∀ a ∈ as, a < bound)
    (hbs : ∀ b ∈ bs, b < bound) {x : Fin bs.length → R} (hx : ∀ i j, i < j → IsUnit (x j - x i))
    (h : ∀ i, (ringPoly φ as).eval (x i) = (ringPoly φ bs).eval (x i)) : as = bs := by
  have hcoeff : (fun j : Fin bs.length => φ (as.getD j 0)) = fun j : Fin bs.length => φ (bs.getD j 0) :=
    vandermonde_mulVec_injective hx <| funext fun i => by
      rw [← ringPoly_eval_eq_vandermonde hlen, ← ringPoly_eval_eq_vandermonde rfl, h i]
  refine List.ext_getElem hlen fun k hk hk' => r.inj (has _ (List.getElem_mem hk)) (hbs _ (List.getElem_mem hk')) ?_
  rw [← List.getD_eq_getElem _ 0 hk, ← List.getD_eq_getElem _ 0 hk']
  exact congrFun hcoeff ⟨k, hk'⟩

end Uniqueness

/-! ## Polynomials in two parts -/

theorem ringPoly_append {R : Type} [CommRing R] (φ : Nat → R) (as bs : List Nat) :
    ringPoly φ (as ++ bs) = ringPoly φ as + ringPoly φ bs * Polynomial.X ^ as.length := by
  induction as with
  | nil => simp
  | cons a as ih =>
    rw [List.cons_append, ringPoly_cons, ih, ringPoly_cons, List.length_cons, pow_succ]
    ring

section Elements

variable {poly : Nat} (hpoly : 2 ^ 128 ≤ poly ∧ poly < 2 ^ 129)

include hpoly

theorem gfEvaluate_lt (x : Nat) (as : List Nat) : gfEvaluate poly x as < 2 ^ 128 :=
  (gfElement_gfEvaluate hpoly x as).1

/-- The value at an element is the value of the polynomial in the ring. -/
theorem gfEvaluate_eq_iff {x v : Nat} {as : List Nat} (hv : v < 2 ^ 128) :
    gfEvaluate poly x as = v ↔ (ringPoly (gfElement poly) as).eval (gfElement poly x) = gfElement poly v := by
  obtain ⟨hlt, heval⟩ := gfElement_gfEvaluate hpoly x as
  rw [← heval]
  exact ⟨congrArg _, gfElement_injOn hpoly hlt hv⟩

/-- A polynomial's value is the value of its low part plus that of its high part (R512). -/
theorem gfEvaluate_append (x : Nat) (low high : List Nat) : gfEvaluate poly x (low ++ high) =
    GF.add (gfEvaluate poly x low) (gfEvaluate poly x (List.replicate low.length 0 ++ high)) := by
  have hzeros : ringPoly (gfElement poly) (List.replicate low.length 0) = 0 := by
    simp [ringPoly]
  obtain ⟨hlow, hlowEval⟩ := gfElement_gfEvaluate hpoly x low
  obtain ⟨hhigh, hhighEval⟩ := gfElement_gfEvaluate hpoly x (List.replicate low.length 0 ++ high)
  rw [gfEvaluate_eq_iff hpoly (GF.add_lt hlow hhigh), gfElement_add, hlowEval, hhighEval, ringPoly_append, ringPoly_append,
    hzeros, List.length_replicate]
  simp

end Elements

/-! ## The points of a transform (R502) -/

section Points

variable {poly : Nat} {basis : List Nat} {c k i : Nat}

/-- Each difference of two of the first `k` points has an inverse; then no two of them coincide. -/
def PointsInvertible (poly : Nat) (basis : List Nat) (c k : Nat) : Prop :=
  ∀ i j, i < j → j < k → GfInvertible poly (pointOf basis c i ^^^ pointOf basis c j)

theorem getD_take_gfPoints (hk : k ≤ 2 ^ basis.length) (hi : i < k) :
    ((gfPoints basis c).take k).getD i 0 = pointOf basis c i := by
  rw [← gfPoints_getD basis c (hi.trans_le hk), List.getD_eq_getElem?_getD, List.getElem?_take_of_lt hi,
    List.getD_eq_getElem?_getD]

theorem length_take_gfPoints (hk : k ≤ 2 ^ basis.length) : ((gfPoints basis c).take k).length = k := by
  rw [List.length_take, gfPoints_length, Nat.min_eq_left hk]

/-- Every point is an element (R502). -/
theorem gfPoints_lt (hbasis : ∀ e ∈ basis, e < 2 ^ 128) (hc : c < 2 ^ 128) : ∀ x ∈ gfPoints basis c, x < 2 ^ 128 := by
  intro x hx
  obtain ⟨i, _, rfl⟩ := List.mem_map.1 hx
  exact gfPoint_lt hbasis hc i

/-- Two of the first `k` points that coincide fail the check of the points (R511, R512). -/
theorem checkPoints_raisesCause {j : Nat} (hk : k ≤ 2 ^ basis.length) (hij : i < j) (hj : j < k)
    (h : pointOf basis c i = pointOf basis c j) : RaisesCause (checkPoints ((gfPoints basis c).take k)) .singular := by
  refine require_raisesCause fun hnodup => hij.ne ?_
  rw [← getD_take_gfPoints hk (hij.trans hj), ← getD_take_gfPoints hk hj,
    List.getD_eq_getElem _ _ (by rw [length_take_gfPoints hk]; exact hij.trans hj),
    List.getD_eq_getElem _ _ (by rw [length_take_gfPoints hk]; exact hj)] at h
  exact hnodup.getElem_inj_iff.1 h

/-- Points whose differences GF(2^128) inverts are distinct, since 0 has no inverse. -/
theorem checkPoints_ok {points : List Nat}
    (h : InvertibleNodes (binaryField poly) (2 ^ 128) (gfElement poly) points) : checkPoints points = .ok () := by
  refine require_eq_ok.2 (decide_eq_true (List.pairwise_iff_getElem.2 fun i j hi hj hij heq => ?_))
  obtain ⟨d, hd, _⟩ := h i j hij hj
  refine GF.inv_eq_ok_iff.1 ⟨d, hd⟩ ?_
  rw [List.getD_eq_getElem _ _ hi, List.getD_eq_getElem _ _ hj, heq]
  exact Nat.xor_self _

end Points

/-! ## Interpolation over the points -/

section Interpolation

variable {s : State} {basis vs : List Nat} {c k : Nat} (hlegal : s.params.legal) (hmode : s.fmode = true)
  (hbasis : ∀ e ∈ basis, e < 2 ^ 128) (hc : c < 2 ^ 128) (hk : k ≤ 2 ^ basis.length)
  (hinv : PointsInvertible s.params.gfPoly basis c k)

include hlegal hmode hbasis hc hk hinv

/-- The field finds the inverses of the points' differences. -/
theorem invertibleNodes_take_gfPoints : InvertibleNodes (binaryField s.params.gfPoly) (2 ^ 128)
    (gfElement s.params.gfPoly) ((gfPoints basis c).take k) := by
  have hnodes := invertibleNodes_binary (nodes := (gfPoints basis c).take k) hlegal hmode
  rw [elementBound_binary hmode] at hnodes
  refine hnodes (fun x hx => gfPoints_lt hbasis hc x (List.mem_of_mem_take hx)) fun i j hji hi => ?_
  rw [length_take_gfPoints hk] at hi
  rw [getD_take_gfPoints hk hi, getD_take_gfPoints hk (hji.trans hi), Nat.xor_comm]
  exact hinv j i hji hi

/-- The interpolation of values over the first `k` points gives coefficients that take them there (R511, R512). -/
theorem monomialOfValues_take_gfPoints (hlen : vs.length = k) (hvs : ∀ v ∈ vs, v < 2 ^ 128) :
    ∃ ms, (binaryField s.params.gfPoly).monomialOfValues ((gfPoints basis c).take k) vs = .ok ms ∧ ms.length = k ∧
      (∀ m ∈ ms, m < 2 ^ 128) ∧ ∀ i, i < k → gfEvaluate s.params.gfPoly (pointOf basis c i) ms = vs.getD i 0 := by
  have ⟨_, _, _, hpoly⟩ := hlegal
  have hnodes := invertibleNodes_take_gfPoints hlegal hmode hbasis hc hk hinv
  have hlenNodes := length_take_gfPoints (c := c) hk
  obtain ⟨ms, hms, hmsLen, hmsLt, heval⟩ := monomialOfValues_spec (represents_binaryField hpoly) hnodes
    (hlenNodes.trans hlen.symm) (fun x hx => gfPoints_lt hbasis hc x (List.mem_of_mem_take hx)) hvs
  refine ⟨ms, hms, hmsLen.trans hlen, hmsLt, fun i hi => ?_⟩
  have hv : vs.getD i 0 < 2 ^ 128 := List.getD_eq_getElem vs 0 (hlen ▸ hi) ▸ hvs _ (List.getElem_mem _)
  rw [gfEvaluate_eq_iff hpoly hv, ← getD_take_gfPoints hk hi]
  exact heval i (by rwa [hlenNodes])

end Interpolation

end Sys2Proof.Machine
end

section
/-! The transforms on arrays in data memory: what each writes, and that IFFT undoes FFT (47_additive_fft.md R510 to R513). -/

namespace Sys2Proof.Machine

open Sys2Proof.Safety Sys2Proof.Claims

/-! ## The values at the points -/

/-- The values at the points of the polynomial with these coefficients, in index order: what `FFT` writes (R510). -/
def gfValues (poly : Nat) (basis : List Nat) (c : Nat) (as : List Nat) : List Nat :=
  (gfPoints basis c).map fun x => gfSum poly x as

section Values

variable {poly : Nat} {basis as : List Nat} {c i : Nat}

@[simp] theorem gfValues_length : (gfValues poly basis c as).length = 2 ^ basis.length := by
  simp [gfValues]

variable (hpoly : 2 ^ 128 ≤ poly ∧ poly < 2 ^ 129)

include hpoly

/-- Value `i` is the sum of R510 at point `i`. -/
theorem gfValues_getD (hi : i < 2 ^ basis.length) :
    (gfValues poly basis c as).getD i 0 = gfEvaluate poly (pointOf basis c i) as := by
  have hlen : i < (gfPoints basis c).length := by rwa [gfPoints_length]
  rw [gfValues, List.getD_eq_getElem _ _ (by rwa [List.length_map]), List.getElem_map, gfSum_eq_gfEvaluate hpoly,
    ← gfPoints_getD basis c hi, List.getD_eq_getElem _ _ hlen]

theorem gfValues_lt : ∀ y ∈ gfValues poly basis c as, y < 2 ^ 128 := by
  intro y hy
  obtain ⟨x, _, rfl⟩ := List.mem_map.1 hy
  exact gfSum_eq_gfEvaluate hpoly x as ▸ gfEvaluate_lt hpoly x as

end Values

/-! ## FFT (R510) -/

section Commands

variable {s : State} {ra rb : Reg} {l a n : Nat} {basis d ms ys : List Nat}

theorem fftCheck_of_ready (hready : TransformReady s l a basis d) : s.fftCheck l a = .ok (basis, d) := by
  obtain ⟨hmode, hl, ⟨hbasis, hreadBasis, hbasisLt⟩, ha, hread, hlt⟩ := hready
  exact fftCheck_eq_ok.2 ⟨hmode, hl, hbasis, ha, hreadBasis, hread, hbasisLt, hlt⟩

theorem basis_length_of_ready (hready : TransformReady s l a basis d) : basis.length = l := by
  obtain ⟨_, _, ⟨_, hread, _⟩, _⟩ := hready
  exact readArray_length hread

theorem data_length_of_ready (hready : TransformReady s l a basis d) : d.length = 2 ^ l := by
  obtain ⟨_, _, _, _, hread, _⟩ := hready
  exact readArray_length hread

/-- Elements of GF(2^128) written as an array are an array result. -/
theorem arrayResult_of_gfElements (hlegal : s.params.legal) (hmode : s.fmode = true) (hlen : ys.length = n)
    (hys : ∀ y ∈ ys, y < 2 ^ 128) : ArrayResult s (s.writeArray a ys).advance a n ys :=
  arrayResult_of_elements hlegal (.inl hmode) hlen (by rwa [elementBound_binary hmode])

theorem exec_fft_of_ready (hready : TransformReady s l (s.x ra) basis d) (hrb : s.x rb < 2 ^ 128) :
    exec (.fft ra rb l) s =
      .next (s.writeArray (s.x ra) (gfValues s.params.gfPoly basis (s.x rb) d)).advance := by
  simp only [exec, execFft, fftCheck_of_ready hready, checkG_ok hrb, comp_ok_bind, perform_ok, gfValues]

/-- Settles O53: the coset is the last check; the machine's running sum at its point is the rule's sum at the rule's point. -/
theorem forwardTransform : Obligations.ForwardTransform := by
  refine fun ra rb l => ⟨fun hl => decodeInvertsEncode (.fft ra rb l) (decide_eq_true hl),
    fun s basis as hlegal hready => ⟨fun hrb => ?_, fun hrb => ?_⟩⟩
  · exact raises_after (fftCheck_of_ready hready) (raises_of_not_required hrb.not_gt _)
  · have ⟨_, _, _, hpoly⟩ := hlegal
    have hlen := basis_length_of_ready hready
    have ⟨hmode, _⟩ := hready
    exact ⟨_, _, exec_fft_of_ready hready hrb,
      arrayResult_of_gfElements hlegal hmode (by rw [gfValues_length, hlen]) (gfValues_lt hpoly),
      fun i hi => gfValues_getD hpoly (hlen ▸ hi)⟩

/-! ## IFFT (R511) -/

theorem exec_ifft_of_interpolant (hready : TransformReady s l (s.x ra) basis d) (hrb : s.x rb < 2 ^ 128)
    (hpoints : checkPoints (gfPoints basis (s.x rb)) = .ok ())
    (hms : (binaryField s.params.gfPoly).monomialOfValues (gfPoints basis (s.x rb)) d = .ok ms) :
    exec (.ifft ra rb l) s = .next (s.writeArray (s.x ra) ms).advance := by
  simp only [exec, execIfft, fftCheck_of_ready hready, checkG_ok hrb, hpoints, hms, comp_ok_bind, perform_ok]

/-- All the points are the first `2^l` of them. -/
theorem take_gfPoints (hlen : basis.length = l) (c : Nat) : (gfPoints basis c).take (2 ^ l) = gfPoints basis c :=
  List.take_of_length_le (by rw [gfPoints_length, hlen])

/-- Settles O54: two points that coincide fail the check of the points; else the command writes the interpolant. -/
theorem inverseTransform : Obligations.InverseTransform := by
  refine fun ra rb l => ⟨fun hl => decodeInvertsEncode (.ifft ra rb l) (decide_eq_true hl),
    fun s basis vs hlegal hready => ⟨fun hrb => ?_, fun hrb => ?_⟩⟩
  · exact raises_after (fftCheck_of_ready hready) (raises_of_not_required hrb.not_gt _)
  have hlen := basis_length_of_ready hready
  have hall : 2 ^ l ≤ 2 ^ basis.length := by rw [hlen]
  have hpoints := take_gfPoints hlen (s.x rb)
  refine ⟨fun i j hij hj hsame => ?_, fun hinv => ?_⟩
  · have hraise := checkPoints_raisesCause hall hij hj hsame
    rw [hpoints] at hraise
    exact raises_after (fftCheck_of_ready hready) (raises_after (checkG_ok hrb) (hraise.bind _).raises)
  · have ⟨hmode, _, ⟨_, _, hbasis⟩, _, _, hvs⟩ := hready
    have hnodes := invertibleNodes_take_gfPoints hlegal hmode hbasis hrb hall hinv
    obtain ⟨ms, hms, hmsLen, hmsLt, hvalues⟩ :=
      monomialOfValues_take_gfPoints hlegal hmode hbasis hrb hall hinv (data_length_of_ready hready) hvs
    rw [hpoints] at hnodes hms
    exact ⟨_, ms, exec_ifft_of_interpolant hready hrb (checkPoints_ok hnodes) hms,
      arrayResult_of_gfElements hlegal hmode hmsLen hmsLt, hmsLen, hmsLt, hvalues⟩

/-! ## BFFT (R512) -/

/-- The values that remain for the low coefficients: the given values, less those of the high coefficients (R512). -/
def residuals (poly : Nat) (basis : List Nat) (k : Nat) (d : List Nat) : List Nat :=
  List.zipWith (fun v x => GF.add v (gfSum poly x (List.replicate k 0 ++ d.drop k))) (d.take k) ((gfPoints basis 0).take k)

section Residuals

variable {poly k i : Nat} {q : List Nat} (hk : k ≤ 2 ^ basis.length) (hd : d.length = 2 ^ basis.length)

include hk hd

theorem residuals_length : (residuals poly basis k d).length = k := by
  rw [residuals, List.length_zipWith, length_take_gfPoints hk, List.length_take, hd, Nat.min_eq_left hk, Nat.min_self]

variable (hpoly : 2 ^ 128 ≤ poly ∧ poly < 2 ^ 129)

include hpoly

theorem residuals_getD (hi : i < k) : (residuals poly basis k d).getD i 0 =
    GF.add (d.getD i 0) (gfEvaluate poly (pointOf basis 0 i) (List.replicate k 0 ++ d.drop k)) := by
  have hpoint : i < ((gfPoints basis 0).take k).length := by rwa [length_take_gfPoints hk]
  rw [List.getD_eq_getElem _ _ (by rwa [residuals_length hk hd]), ← getD_take_gfPoints hk hi,
    List.getD_eq_getElem _ _ hpoint, List.getD_eq_getElem _ _ (by omega), ← gfSum_eq_gfEvaluate hpoly]
  simp only [residuals, List.getElem_zipWith, List.getElem_take]

theorem residuals_lt (hlt : ∀ v ∈ d, v < 2 ^ 128) : ∀ v ∈ residuals poly basis k d, v < 2 ^ 128 := by
  intro v hv
  obtain ⟨i, hi, rfl⟩ := List.getElem_of_mem hv
  rw [residuals_length hk hd] at hi
  rw [← List.getD_eq_getElem _ 0, residuals_getD hk hd hpoly hi, List.getD_eq_getElem _ _ (by omega)]
  exact GF.add_lt (hlt _ (List.getElem_mem _)) (gfEvaluate_lt hpoly _ _)

/-- Low coefficients that take the residual values make, with the high ones, a polynomial that takes the given values (R512). -/
theorem gfEvaluate_interpolant_append_drop (hq : q.length = k) (hi : i < k)
    (h : gfEvaluate poly (pointOf basis 0 i) q = (residuals poly basis k d).getD i 0) :
    gfEvaluate poly (pointOf basis 0 i) (q ++ d.drop k) = d.getD i 0 := by
  rw [gfEvaluate_append hpoly, h, residuals_getD hk hd hpoly hi, hq]
  exact Nat.xor_xor_cancel_right _ _

end Residuals

theorem bidirectional_of_interpolant {poly k : Nat} {q : List Nat}
    (hq : (binaryField poly).monomialOfValues ((gfPoints basis 0).take k) (residuals poly basis k d) = .ok q) :
    bidirectional poly (gfPoints basis 0) k d = .ok (q ++ (gfValues poly basis 0 (q ++ d.drop k)).drop k) := by
  rw [residuals] at hq
  simp only [bidirectional, hq, comp_ok_bind, gfValues, List.map_drop]

theorem exec_bfft_of_result (hready : TransformReady s l (s.x ra) basis d) (hrb : s.x rb ≤ 2 ^ l)
    (hpoints : checkPoints ((gfPoints basis 0).take (s.x rb)) = .ok ())
    (hys : bidirectional s.params.gfPoly (gfPoints basis 0) (s.x rb) d = .ok ys) :
    exec (.bfft ra rb l) s = .next (s.writeArray (s.x ra) ys).advance := by
  simp only [exec, execBfft, fftCheck_of_ready hready, decide_eq_true hrb, require_true, hpoints, hys, comp_ok_bind, perform_ok]

/-! ### Two lists, joined where the second is cut -/

theorem getD_append_drop {q ys : List Nat} {k i : Nat} (hq : q.length = k) (hi : k ≤ i) :
    (q ++ ys.drop k).getD i 0 = ys.getD i 0 := by
  subst hq
  rw [List.getD_append_right _ _ _ _ hi]
  simp [List.getD_eq_getElem?_getD, hi]

theorem length_append_drop {q ys : List Nat} {k : Nat} (hq : q.length = k) (hys : ys.length = n) (hk : k ≤ n) :
    (q ++ ys.drop k).length = n := by
  rw [List.length_append, List.length_drop, hq, hys, Nat.add_sub_cancel' hk]

/-! ### The command -/

/-- From the array `d` of `k` values and then coefficients, `ps` is the polynomial and `ys` what `BFFT` writes (R512). -/
def IsBidirectional (poly : Nat) (basis : List Nat) (k : Nat) (d ps ys : List Nat) : Prop :=
  (∀ i, i < 2 ^ basis.length → k ≤ i →
      ps.getD i 0 = d.getD i 0 ∧ ys.getD i 0 = gfEvaluate poly (pointOf basis 0 i) ps) ∧
    ∀ i, i < k → gfEvaluate poly (pointOf basis 0 i) ps = d.getD i 0 ∧ ys.getD i 0 = ps.getD i 0

/-- `P` is the interpolant of the residual values, continued by the high coefficients (R512). -/
theorem isBidirectional_of_interpolant {poly k : Nat} {q : List Nat} (hpoly : 2 ^ 128 ≤ poly ∧ poly < 2 ^ 129)
    (hk : k ≤ 2 ^ basis.length) (hd : d.length = 2 ^ basis.length) (hq : q.length = k)
    (h : ∀ i, i < k → gfEvaluate poly (pointOf basis 0 i) q = (residuals poly basis k d).getD i 0) :
    IsBidirectional poly basis k d (q ++ d.drop k) (q ++ (gfValues poly basis 0 (q ++ d.drop k)).drop k) := by
  refine ⟨fun i hi hle => ⟨?_, ?_⟩, fun i hi =>
    ⟨gfEvaluate_interpolant_append_drop hk hd hpoly hq hi (h i hi), ?_⟩⟩
  · exact getD_append_drop hq hle
  · rw [getD_append_drop hq hle, gfValues_getD hpoly hi]
  · rw [List.getD_append _ _ _ _ (hq ▸ hi), List.getD_append _ _ _ _ (hq ▸ hi)]

/-- Settles O55: the check of `k`, the check of the points, and else the command writes the completed polynomial. -/
theorem bidirectionalTransform : Obligations.BidirectionalTransform := by
  refine fun ra rb l => ⟨fun hl => decodeInvertsEncode (.bfft ra rb l) (decide_eq_true hl),
    fun s basis d hlegal hready => ⟨fun hrb => ?_, fun hrb => ?_⟩⟩
  · exact raises_after (fftCheck_of_ready hready) (raises_of_not_required hrb.not_ge _)
  obtain rfl := basis_length_of_ready hready
  refine ⟨fun i j hij hj hsame => ?_, fun hinv => ?_⟩
  · have hraise := checkPoints_raisesCause hrb hij hj hsame
    exact raises_after (fftCheck_of_ready hready)
      (RaisesCause.after_require (decide_eq_true hrb) (hraise.bind _)).raises
  · have ⟨_, _, _, hpoly⟩ := hlegal
    have ⟨hmode, _, ⟨_, _, hbasis⟩, _, _, hlt⟩ := hready
    have hd := data_length_of_ready hready
    have hzero : 0 < 2 ^ 128 := Nat.two_pow_pos 128
    have hnodes := invertibleNodes_take_gfPoints hlegal hmode hbasis hzero hrb hinv
    obtain ⟨q, hq, hqLen, hqLt, hvalues⟩ := monomialOfValues_take_gfPoints hlegal hmode hbasis hzero hrb hinv
      (residuals_length hrb hd) (residuals_lt hrb hd hpoly hlt)
    have hps : ∀ p ∈ q ++ d.drop (s.x rb), p < 2 ^ 128 :=
      List.forall_mem_append.2 ⟨hqLt, fun p hp => hlt p (List.mem_of_mem_drop hp)⟩
    have hys : ∀ y ∈ q ++ (gfValues s.params.gfPoly basis 0 (q ++ d.drop (s.x rb))).drop (s.x rb), y < 2 ^ 128 :=
      List.forall_mem_append.2 ⟨hqLt, fun y hy => gfValues_lt hpoly y (List.mem_of_mem_drop hy)⟩
    exact ⟨_, q ++ d.drop (s.x rb), _,
      exec_bfft_of_result hready hrb (checkPoints_ok hnodes) (bidirectional_of_interpolant hq),
      arrayResult_of_gfElements hlegal hmode (length_append_drop hqLen gfValues_length hrb) hys,
      length_append_drop hqLen hd hrb, hps, isBidirectional_of_interpolant hpoly hrb hd hqLen hvalues⟩

/-! ## IFFT after FFT (R513) -/

/-- A data array that does not overlap the basis, written anew, is ready for the next transform. -/
theorem transformReady_of_arrayResult {t : State} (hready : TransformReady s l a basis d)
    (hresult : ArrayResult s t a (2 ^ l) ys) (hys : ∀ y ∈ ys, y < 2 ^ 128)
    (hdisjoint : s.bbase + l * s.params.elemBytes ≤ a ∨ a + 2 ^ l * s.params.elemBytes ≤ s.bbase) :
    TransformReady t l a basis ys := by
  obtain ⟨hmode, hl, ⟨hrangeBasis, hreadBasis, hbasis⟩, hrange, _, _⟩ := hready
  obtain ⟨hread, _, hframe, hbytes⟩ := hresult
  obtain ⟨dm, pc, rfl⟩ : ∃ dm pc, t = { s with dm := dm, pc := pc } := ⟨_, _, hframe⟩
  refine ⟨hmode, hl, ⟨hrangeBasis, ?_, hbasis⟩, hrange, hread, hys⟩
  rw [← hreadBasis]
  exact readArray_congr (s := s) (a := s.bbase) rfl fun b hle hlt => hbytes b (by omega)

/-- The differences of all the points are units in the ring, so values at the points determine the coefficients. -/
theorem eq_of_gfEvaluate_points_eq {poly c : Nat} {as bs : List Nat} (hpoly : 2 ^ 128 ≤ poly ∧ poly < 2 ^ 129)
    (hinv : PointsInvertible poly basis c n) (has : as.length = n) (hbs : bs.length = n) (hasLt : ∀ a ∈ as, a < 2 ^ 128)
    (hbsLt : ∀ b ∈ bs, b < 2 ^ 128)
    (h : ∀ i, i < n → gfEvaluate poly (pointOf basis c i) as = gfEvaluate poly (pointOf basis c i) bs) : as = bs := by
  subst hbs
  refine eq_of_ringPoly_eval_eq (x := fun i => gfElement poly (pointOf basis c i)) (represents_binaryField hpoly) has hasLt
    hbsLt (fun i j hij => ?_) fun i => ?_
  · obtain ⟨e, _, he⟩ := hinv i j hij j.isLt
    rw [← gfElement_sub, GF.add, Nat.xor_comm]
    exact IsUnit.of_mul_eq_one (gfElement poly e) (by rw [← gfElement_mul hpoly, he, gfElement_one])
  · obtain ⟨_, has'⟩ := gfElement_gfEvaluate hpoly (pointOf basis c i) as
    obtain ⟨_, hbs'⟩ := gfElement_gfEvaluate hpoly (pointOf basis c i) bs
    rw [← has', ← hbs', h i i.isLt]

/-- Settles O56: IFFT gives coefficients that take the values FFT left, and there is one such array. -/
theorem inverseTransformUndoesForward : Obligations.InverseTransformUndoesForward := by
  intro ra rb l s t basis as hlegal hready hrb hinv hdisjoint hfft
  have ⟨_, _, _, hpoly⟩ := hlegal
  have ⟨hmode, _, _, _, _, hasLt⟩ := hready
  have hlen := basis_length_of_ready hready
  rw [exec_fft_of_ready hready hrb, Host.Outcome.next.injEq] at hfft
  subst hfft
  have hvaluesLt := gfValues_lt (basis := basis) (c := s.x rb) (as := as) hpoly
  have hready' := transformReady_of_arrayResult hready
    (arrayResult_of_gfElements hlegal hmode (by rw [gfValues_length, hlen]) hvaluesLt) hvaluesLt hdisjoint
  obtain ⟨_, hifft⟩ := inverseTransform ra rb l
  obtain ⟨_, hcompletes⟩ :=
    hifft (s.writeArray (s.x ra) (gfValues s.params.gfPoly basis (s.x rb) as)).advance basis _ hlegal hready'
  obtain ⟨_, hinverts⟩ := hcompletes hrb
  obtain ⟨u, bs, hexec, ⟨hread, _⟩, hbsLen, hbsLt, hvalues⟩ := hinverts hinv
  refine ⟨u, hexec, hread.trans (congrArg _ ?_)⟩
  refine eq_of_gfEvaluate_points_eq hpoly hinv hbsLen (data_length_of_ready hready) hbsLt hasLt fun i hi => ?_
  exact (hvalues i hi).trans (gfValues_getD hpoly (hlen ▸ hi))

end Commands

end Sys2Proof.Machine
end

section
/-! What the sequencer's commands do: HALT and BNZ, and the read and the write of a control register by its number
(48_sequencer.md R551 to R554, 10_state.md R58 to R69). -/

namespace Sys2Proof.Machine

open Sys2Proof.Safety

variable {s : State} {rd ra : Reg} {off : Int} {n v : Nat} {c : Csr}

/-! ## HALT and BNZ -/

theorem exec_bnz_of_ne_zero (h : s.x ra ≠ 0) : exec (.bnz ra off) s = .next (s.branch off) :=
  congrArg Host.Outcome.next (if_pos h)

theorem exec_bnz_of_eq_zero (h : s.x ra = 0) : exec (.bnz ra off) s = .next s.advance :=
  congrArg Host.Outcome.next (if_neg (not_not.2 h))

/-- The next index wraps past the last one (10_state.md R55). -/
theorem advance_pc_toNat (s : State) : s.advance.pc.toNat = (s.pc.toNat + 1) % 2 ^ 32 := by
  rw [State.advance_pc, BitVec.toNat_add]
  rfl

theorem fitsOffset16_of_bounds (hlow : -(2 ^ 15) ≤ off) (hhigh : off < 2 ^ 15) : fitsOffset16 off = true := by
  rw [fitsOffset16, decide_eq_true hlow, decide_eq_true hhigh, Bool.and_self]

/-- Settles O57: BNZ by whether the register is zero; each of its two outcomes writes `pc` alone. -/
theorem haltAndBranch : Obligations.HaltAndBranch := by
  refine ⟨decodeInvertsEncode .halt rfl, fun _ => rfl, fun ra off =>
    ⟨fun hlow hhigh => decodeInvertsEncode (.bnz ra off) (fitsOffset16_of_bounds hlow hhigh), fun s => ?_⟩⟩
  by_cases hx : s.x ra = 0
  · exact ⟨_, exec_bnz_of_eq_zero hx, rfl, fun hne => absurd hx hne, fun _ => advance_pc_toNat s⟩
  · exact ⟨_, exec_bnz_of_ne_zero hx, rfl, fun _ => branch_pc_toNat s off, fun hzero => absurd hzero hx⟩

/-! ## The control registers by number -/

/-- The numbers from 10 on are reserved (10_state.md R59). -/
theorem csrOfNumber_of_reserved (h : 9 < n) : csrOfNumber n = none := by
  obtain ⟨m, rfl⟩ := Nat.exists_eq_add_of_le' h
  rfl

theorem exists_csrOfNumber (h : n ≤ 9) : ∃ c, csrOfNumber n = some c := by
  interval_cases n
  all_goals exact ⟨_, rfl⟩

/-! ## CSRR -/

theorem ofBool_le_one (b : Bool) : ofBool b ≤ 1 := by cases b <;> decide

/-- A cause has 4 bits (60_exceptions.md R600). -/
theorem Cause.code_lt (cause : Cause) : cause.code < 2 ^ 4 := by cases cause <;> decide

theorem Status.value_lt (status : Status) : status.value < 2 ^ 64 := by
  have := ofBool_le_one status.running
  have := ofBool_le_one status.done
  have := ofBool_le_one status.fault
  have := status.cause.code_lt
  rw [Status.value]
  omega

theorem State.flagsValue_lt (s : State) : s.flagsValue < 2 ^ 64 := (ofBool_le_one s.v).trans_lt (by decide)

theorem State.fctlValue_lt (s : State) : s.fctlValue < 2 ^ 64 := by
  have := ofBool_le_one s.fmode
  have := ofBool_le_one s.be
  have := ofBool_le_one s.fvalid
  rw [State.fctlValue]
  omega

/-- What a control register reads as fits every register (10_state.md R58). -/
theorem readCsr_lt_of_legal (h : Legal s) (c : Csr) : s.readCsr c < 2 ^ s.params.regBits := by
  have ⟨hlimbs, _⟩ := h.params
  obtain ⟨hbbase, hblen, hnnode, hxbase⟩ := h.bases
  cases c
  case status => exact lt_two_pow_regBits hlimbs s.status.value_lt
  case faultPc => exact lt_two_pow_regBits hlimbs (s.faultPc.isLt.trans (by decide))
  case flags => exact lt_two_pow_regBits hlimbs s.flagsValue_lt
  case fctl => exact lt_two_pow_regBits hlimbs s.fctlValue_lt
  case p => exact h.p
  case minv => exact lt_two_pow_regBits hlimbs h.minv
  case bbase => exact hbbase
  case blen => exact hblen
  case nnode => exact hnnode
  case xbase => exact hxbase

theorem exec_csrr_of_csr (hn : csrOfNumber n = some c) :
    exec (.csrr rd n) s = .next (s.setReg rd (s.readCsr c)).advance := by
  simp only [exec, execCsrr, hn, perform_ok]

theorem raises_csrr_of_reserved (hn : csrOfNumber n = none) : Raises s (exec (.csrr rd n) s) .illegal := by
  simp only [exec, execCsrr, hn]
  exact ⟨_, rfl, rfl⟩

/-- Settles O58: the number finds the control register, whose value fits `rd`. -/
theorem readOfControlRegisters : Obligations.ReadOfControlRegisters := by
  refine fun rd n => ⟨fun hn => decodeInvertsEncode (.csrr rd n) (decide_eq_true hn), fun s =>
    ⟨fun hn => raises_csrr_of_reserved (csrOfNumber_of_reserved hn), fun hlegal hn => ?_⟩⟩
  obtain ⟨c, hc⟩ := exists_csrOfNumber hn
  refine ⟨_, s.readCsr c, exec_csrr_of_csr hc, registerResult_setReg s rd (readCsr_lt_of_legal hlegal c), ?_⟩
  and_intros
  all_goals
    rintro rfl
    cases hc
    rfl

/-! ## CSRW -/

theorem bitOf_zero_beq_one (v : Nat) : (bitOf v 0 == 1) = v.testBit 0 := by
  rw [bitOf_zero, Nat.testBit_zero]
  rfl

/-- The state after a value is written to the control register of a number; none where there is no such register or it is
read-only (R554). -/
def State.writeCsrNumber (s : State) (v n : Nat) : Option State := (csrOfNumber n).bind (s.writeCsr v)

theorem writeCsrNumber_of_reserved (hn : 9 < n) : s.writeCsrNumber v n = none := by
  rw [State.writeCsrNumber, csrOfNumber_of_reserved hn, Option.bind_none]

/-- STATUS, FAULT_PC, P and MINV are read-only (10_state.md R58). -/
theorem writeCsrNumber_of_readOnly (hn : n ∈ [0, 1, 4, 5]) : s.writeCsrNumber v n = none := by
  simp only [List.mem_cons, List.not_mem_nil, or_false] at hn
  rcases hn with rfl | rfl | rfl | rfl <;> rfl

/-- CSRW advances over what it wrote, or raises E_ILLEGAL (R554). -/
theorem exec_csrw_eq (s : State) (ra : Reg) (n : Nat) : exec (.csrw ra n) s =
    (s.writeCsrNumber (s.x ra) n).elim (.next (s.faultEntry .illegal)) fun t => .next t.advance := by
  simp only [exec, execCsrw, State.writeCsrNumber]
  cases csrOfNumber n with
  | none => rfl
  | some c =>
    dsimp only [Option.bind_some]
    cases s.writeCsr (s.x ra) c with
    | none => rfl
    | some t => rfl

theorem raises_csrw_of_refused (h : s.writeCsrNumber (s.x ra) n = none) : Raises s (exec (.csrw ra n) s) .illegal := by
  rw [exec_csrw_eq, h]
  exact ⟨_, rfl, rfl⟩

/-- Settles O59: the refused numbers are the reserved and the read-only ones; each other number has its one field written. -/
theorem writeOfControlRegisters : Obligations.WriteOfControlRegisters := by
  refine fun ra n => ⟨fun hn => decodeInvertsEncode (.csrw ra n) (decide_eq_true hn), fun s => ⟨fun hn => ?_, ?_⟩⟩
  · exact raises_csrw_of_refused (hn.elim writeCsrNumber_of_reserved writeCsrNumber_of_readOnly)
  · rw [← bitOf_zero_beq_one]
    and_intros
    all_goals
      rintro rfl
      exact exec_csrw_eq s ra _

end Sys2Proof.Machine
end

section
/-! What RESET leaves, what START begins, and what the host port does on a running and on a stopped unit (70_reset_and_hazards.md
R700, R701; 60_exceptions.md R640 to R642). -/

namespace Sys2Proof.Machine

open Sys2Proof.Safety Sys2Proof.Claims

variable {s t : State} {a : PortAction} {c : Csr} {n v : Nat}

/-! ## Reset -/

/-- Settles O9: each value is the reset state's own field, or what a CSR whose fields are all zero reads as. -/
theorem resetLeavesTheSpecsValues : Obligations.ResetLeavesTheSpecsValues := by
  rintro c _ rfl
  have no_byte : ∀ a, (State.resetWith c).byteAt a = none := fun _ => rfl
  have no_command : ∀ a, (State.resetWith c).commandAt a = none := fun _ => rfl
  exact ⟨rfl, rfl, rfl, rfl, rfl, rfl, rfl, rfl, rfl, rfl, rfl, rfl, no_byte, no_command, rfl⟩

/-- The reference parameters are within their bounds (00_scope.md R9; LOG 2). -/
theorem reference_legal : Config.reference.legal := by decide

/-- Settles O10: the reset state is legal on every unit with legal parameters, and the reference ones are. -/
theorem resetIsLegal : Obligations.ResetIsLegal :=
  ⟨legal_resetWith reference_legal, fun _ => legal_resetWith⟩

/-! ## The port, by whether the unit runs -/

/-- Settles O8: the sequencer fetches only while RUNNING is set. -/
theorem stoppedUnitKeepsState : Obligations.StoppedUnitKeepsState := fun _ => step_of_stopped

/-- Settles O12: each host action that is performed makes one of the updates that keep the legal states. -/
theorem hostActionsKeepLegal : Obligations.HostActionsKeepLegal := fun _ _ _ _ hs hport => hs.port hport

theorem port_of_running (hrun : s.status.running = true) (hreset : a ≠ .reset) (hdone : a ≠ .observeDone) :
    s.port a = .refused .hostWhileRunning := by
  cases a
  case reset => exact absurd rfl hreset
  case observeDone => exact absurd rfl hdone
  all_goals exact if_pos hrun

theorem port_of_stopped (hrun : s.status.running = false) (a : PortAction) : s.port a = s.portStopped a := by
  have hnot : ¬ s.status.running = true := by simp [hrun]
  cases a
  case reset | observeDone => rfl
  all_goals exact if_neg hnot

/-! ## START -/

/-- Settles O15: START writes `pc` and STATUS, and what it leaves runs at `pc0` with the command memory it found. -/
theorem startBeginsARun : Obligations.StartBeginsARun := by
  intro s pc0 hrun
  have clean : cleanStart (s.start pc0) := rfl
  exact ⟨s.start pc0, port_of_stopped hrun _, rfl, rfl, clean, rfl,
    fun _ _ hpc hw hi => step_of_command rfl hpc hw hi⟩

/-! ## What a stopped unit's host writes -/

theorem writeCommand_commandAt_self (s : State) (i : Nat) (w : Word) : (s.writeCommand i w).commandAt i = some w := by
  rw [State.commandAt, State.writeCommand_cm, Memory.read_writeRun, if_pos (by simp)]
  simp

theorem writeCommand_commandAt_ne (s : State) (w : Word) {i j : Nat} (h : j ≠ i) :
    (s.writeCommand i w).commandAt j = s.commandAt j :=
  Memory.read_writeRun_outside s.cm i [w] j (by rw [List.length_singleton]; omega)

theorem portStopped_writeCsr (hv : v < 2 ^ s.params.regBits) (hn : csrOfNumber n = some c) (hw : s.writeCsr v c = some t) :
    s.portStopped (.writeCsr n v) = .next (t, .nothing) := by
  simp only [State.portStopped, if_pos hv, hn, hw]

/-- A location takes what the host writes within its bounds. -/
theorem hostWrites_of_stopped (hrun : s.status.running = false) : HostWrites s := by
  simp only [HostWrites, port_of_stopped hrun]
  refine ⟨fun i w hi => ?_, fun a bs fits => ?_, fun r v hv => ?_, fun v hv => ?_⟩
  · exact ⟨s.writeCommand i w, if_pos hi, writeCommand_commandAt_self s i w,
      fun _ => writeCommand_commandAt_ne s w, rfl⟩
  · exact ⟨s.writeBytes a bs, if_pos fits, fun _ => writeBytes_byteAt_inside s a bs,
      fun _ => writeBytes_byteAt_outside s a bs, rfl⟩
  · have hself : (s.setReg r v).x r = v := (s.setReg_x_self r v).trans (Nat.mod_eq_of_lt hv)
    exact ⟨s.setReg r v, if_pos hv, hself, fun _ => s.setReg_x_ne v, rfl⟩
  · rw [← bitOf_zero_beq_one]
    and_intros
    all_goals exact portStopped_writeCsr hv rfl rfl

/-! ## What it reads -/

theorem portStopped_readCm_of_written {i : Nat} {w : Word} (hi : i < s.params.cmSize) (hw : s.commandAt i = some w) :
    s.portStopped (.readCm i) = .next (s, .word w) := by
  simp only [State.portStopped, if_pos hi, hw]

theorem portStopped_readCm_of_unwritten {i : Nat} (hi : i < s.params.cmSize) (hw : s.commandAt i = none) :
    s.portStopped (.readCm i) = .fault (.unwrittenCommand i) := by
  simp only [State.portStopped, if_pos hi, hw]

theorem portStopped_readDm {a n : Nat} (fits : a + n ≤ s.params.dmSize) :
    s.portStopped (.readDm a n) = portRead s (s.readBytes a n >>= fun bs => .ok (.bytes bs)) := if_pos fits

theorem portStopped_readDm_of_written {a n : Nat} {bs : List Byte} (fits : a + n ≤ s.params.dmSize)
    (hbs : s.readBytes a n = .ok bs) : s.portStopped (.readDm a n) = .next (s, .bytes bs) := by
  rw [portStopped_readDm fits, hbs]
  rfl

/-- A read over a byte that nothing has written ends at such a byte. -/
theorem readBytes_of_unwritten {a n k : Nat} (hk : k < n) (hnone : s.byteAt (a + k) = none) :
    ∃ b, s.readBytes a n = .error (.stuck (.unwrittenData b)) := by
  cases hr : s.readBytes a n with
  | ok bs =>
    obtain ⟨hlen, hwritten⟩ := readBytes_eq_ok.1 hr
    rw [hwritten k (hlen ▸ hk)] at hnone
    cases hnone
  | error e =>
    obtain ⟨b, rfl, _⟩ := readBytes_eq_error hr
    exact ⟨b, rfl⟩

theorem portStopped_readDm_of_unwritten {a n k : Nat} (fits : a + n ≤ s.params.dmSize) (hk : k < n)
    (hnone : s.byteAt (a + k) = none) : ∃ b, s.portStopped (.readDm a n) = .fault (.unwrittenData b) := by
  obtain ⟨b, hb⟩ := readBytes_of_unwritten hk hnone
  refine ⟨b, ?_⟩
  rw [portStopped_readDm fits, hb]
  rfl

/-- A written location answers its value and an unwritten one stops the model. -/
theorem hostReads_of_stopped (hrun : s.status.running = false) : HostReads s := by
  simp only [HostReads, port_of_stopped hrun]
  refine ⟨fun _ => rfl, rfl, fun i hi => ?_, fun a n fits => ?_, ?_⟩
  · exact ⟨fun _ => portStopped_readCm_of_written hi, portStopped_readCm_of_unwritten hi⟩
  · exact ⟨fun _ hlen hbs => portStopped_readDm_of_written fits (readBytes_eq_ok.2 ⟨hlen, hbs⟩),
      fun ⟨_, hk, hnone⟩ => portStopped_readDm_of_unwritten fits hk hnone⟩
  · exact ⟨rfl, rfl, rfl, rfl, rfl, rfl, rfl, rfl, rfl, rfl⟩

/-! ## What is refused -/

theorem portStopped_writeCsr_of_reserved (hn : 9 < n) : s.portStopped (.writeCsr n v) = .refused .hostOutOfRange := by
  simp only [State.portStopped, csrOfNumber_of_reserved hn, ite_self]

theorem portStopped_readCsr_of_reserved (hn : 9 < n) : s.portStopped (.readCsr n) = .refused .hostOutOfRange := by
  simp only [State.portStopped, csrOfNumber_of_reserved hn]

/-- STATUS, FAULT_PC, P and MINV are read-only to the host as to CSRW (10_state.md R58). -/
theorem portStopped_writeCsr_of_readOnly (hv : v < 2 ^ s.params.regBits) (hn : n ∈ [0, 1, 4, 5]) :
    s.portStopped (.writeCsr n v) = .refused .hostReadOnly := by
  simp only [List.mem_cons, List.not_mem_nil, or_false] at hn
  rcases hn with rfl | rfl | rfl | rfl <;> exact if_pos hv

/-- Every breach of the host's duties is refused. -/
theorem hostRefusals_of_stopped (hrun : s.status.running = false) : HostRefusals s := by
  simp only [HostRefusals, port_of_stopped hrun]
  refine ⟨fun i w hi => ?_, fun a bs hout => if_neg (Nat.not_le.2 hout), fun a n hout => if_neg (Nat.not_le.2 hout),
    fun r v hv => if_neg (Nat.not_lt.2 hv), fun n v h => ?_, fun _ => portStopped_readCsr_of_reserved,
    fun _ _ => portStopped_writeCsr_of_readOnly⟩
  · exact ⟨if_neg (Nat.not_lt.2 hi), if_neg (Nat.not_lt.2 hi)⟩
  · exact h.elim (fun hv => if_neg (Nat.not_lt.2 hv)) portStopped_writeCsr_of_reserved

/-- Settles O14: RESET and observing `done` answer at once; of the others a running unit refuses all, and a stopped one performs
those within the host's duties. -/
theorem hostPortActions : Obligations.HostPortActions :=
  fun _ => ⟨fun _ => port_of_running, rfl, rfl,
    fun hrun => ⟨hostWrites_of_stopped hrun, hostReads_of_stopped hrun, hostRefusals_of_stopped hrun⟩⟩

end Sys2Proof.Machine
end

section
/-! Fault entry: the fault record is all that a step or a command that faults leaves, with a cause its row of the table gives it
(60_exceptions.md R600, R610, R611). -/

namespace Sys2Proof.Machine

open Sys2Proof.Safety

variable {s t : State} {i : Instr}

theorem faultedWith_faultEntry (s : State) (c : Cause) : FaultedWith s (s.faultEntry c) c := rfl

/-- A command that leaves FAULT set, where it was clear, took a fault with one of its causes: none that completes sets it. -/
theorem exec_eq_faultEntry (hs : s.status.fault = false) (h : exec i s = .next t) (ht : t.status.fault = true) :
    ∃ c ∈ causes i, t = s.faultEntry c := by
  rcases exec_eq_next_completion h with hc | hfault
  · rw [hc.fault_eq_false hs] at ht
    cases ht
  · exact hfault

/-- A step that leaves FAULT set, where it was clear, took a fault: at the fetch, at the decode or in the command. -/
theorem step_eq_faultEntry (hrun : s.status.running = true) (hs : s.status.fault = false) (h : step s = .next t)
    (ht : t.status.fault = true) : ∃ c, t = s.faultEntry c := by
  rcases step_running_eq_next hrun h with ⟨_, heff⟩ | ⟨c, _, hfault⟩
  · rw [heff.completion.fault_eq_false hs] at ht
    cases ht
  · exact ⟨c, hfault⟩

/-- Settles O18: a step or a command that faults leaves the fault entry over the state before it, which is the fault record. -/
theorem faultsArePrecise : Obligations.FaultsArePrecise := by
  refine ⟨fun s t hrun hs h ht => ?_, fun i s t hs h ht => ?_⟩
  · obtain ⟨c, rfl⟩ := step_eq_faultEntry hrun hs h ht
    exact faultedWith_faultEntry s c
  · obtain ⟨c, _, rfl⟩ := exec_eq_faultEntry hs h ht
    exact faultedWith_faultEntry s c

theorem exec_ne_refused (i : Instr) (s : State) (e : Refusal) : exec i s ≠ .refused e := by
  obtain ⟨r, hr, _⟩ := exec_eq_perform i s
  rw [hr]
  exact perform_ne_refused s r e

/-- Settles O22: a command is the outcome of a computation, which is never a refusal; the cause of its fault entry is one the
computation raises. -/
theorem commandsRaiseOnlyTheirCauses : Obligations.CommandsRaiseOnlyTheirCauses := by
  refine fun i s => ⟨exec_ne_refused i s, fun t hs h ht => ?_⟩
  obtain ⟨c, hc, rfl⟩ := exec_eq_faultEntry hs h ht
  exact hc

end Sys2Proof.Machine
end
